-- ==== Sys2Proof/Word.lean ====
section
/-!
DEFINITION. The words CORE moves: 32-bit register words and samples, 43-bit control-port requests,
and the 64-bit words of the binary64 reference profiles.
-/

namespace Sys2Proof

/-- One 32-bit word: a register, a sample, or a binary32 value (R7, R53). -/
abbrev Word := BitVec 32

/-- A word offset on the control port, `offset[11:2]` (R50). -/
abbrev WAddr := BitVec 10

/-- A control-port request in format CTL: WE, WADDR, WDATA (R70). -/
abbrev Req := BitVec 43

/-- A binary64 value of the reference profiles RF64 and MAG (R112, R168). -/
abbrev Double := BitVec 64

/-- The canonical quiet NaN of binary32 (R10). -/
def nan32 : Word := 0x7FC00000#32

/-- `+inf` in binary32. -/
def posInf32 : Word := 0x7F800000#32

/-- `-inf` in binary32. -/
def negInf32 : Word := 0xFF800000#32

/-- `+0.0` in binary32. -/
def zero32 : Word := 0x00000000#32

end Sys2Proof
end

