-- ==== Sys2Proof/Machine/Float.lean ====
section
/-!
DEFINITION. IEEE 754 arithmetic on bit patterns, computed exactly over the integers and rounded once
(R7, R9-R12): binary32 for the sample path, binary64 for the reference profiles of R112 and R168.

Every finite value of a format is a whole number of UNITS, one unit being its least subnormal
(2^-149 in binary32, 2^-1074 in binary64). Sums are exact in units, products in squared units, so
each operation is one exact integer computation and one call of `roundMag`.
-/

namespace Sys2Proof.Machine

/-- A binary interchange format: the widths of its fraction and exponent fields (R7). -/
structure FloatFmt where
  fracBits : Nat
  expBits : Nat
  deriving DecidableEq, Repr

namespace FloatFmt

/-- binary32: bit 31 sign, bits 30:23 exponent, bits 22:0 fraction (R7). -/
def b32 : FloatFmt := ⟨23, 8⟩

/-- binary64, the format of the reference profiles (R112, R168). -/
def b64 : FloatFmt := ⟨52, 11⟩

/-- A unit of the format is `2 ^ -unitExp`: 149 for binary32, 1074 for binary64. -/
def unitExp (F : FloatFmt) : Nat := 2 ^ (F.expBits - 1) - 2 + F.fracBits

/-- The sign bit, as a pattern. -/
def signBit (F : FloatFmt) : Nat := 2 ^ (F.fracBits + F.expBits)

/-- The pattern of `+inf`. -/
def infPat (F : FloatFmt) : Nat := (2 ^ F.expBits - 1) * 2 ^ F.fracBits

/-- The pattern of the canonical quiet NaN: sign 0, exponent all ones, fraction top bit (R10). -/
def nanPat (F : FloatFmt) : Nat := F.infPat + 2 ^ (F.fracBits - 1)

end FloatFmt

/-- What a bit pattern stands for: a NaN, an infinity, or `mag` units with a sign. -/
inductive FVal where
  | nan
  | inf (neg : Bool)
  | fin (neg : Bool) (mag : Nat)
  deriving DecidableEq, Repr

/-- Read a bit pattern as a value (R7). -/
def unpack (F : FloatFmt) (bits : Nat) : FVal :=
  let neg := bits.testBit (F.fracBits + F.expBits)
  let e := bits / 2 ^ F.fracBits % 2 ^ F.expBits
  let f := bits % 2 ^ F.fracBits
  if e = 2 ^ F.expBits - 1 then
    if f = 0 then .inf neg else .nan
  else if e = 0 then .fin neg f
  else .fin neg ((2 ^ F.fracBits + f) * 2 ^ (e - 1))

/-- `num / den` rounded to a whole number, ties to even (R9). -/
def divRNE (num den : Nat) : Nat :=
  let q := num / den
  let r := num % den
  if 2 * r < den then q
  else if den < 2 * r then q + 1
  else q + q % 2

/-- The pattern (without sign) of the non-negative value `num / den` units, rounded once with
roundTiesToEven; too large a value gives `+inf` (R9). The low `sh` bits of the quotient are dropped;
since a pattern counts representable values in order, a carry out of the fraction lands in the
exponent by itself. -/
def roundMag (F : FloatFmt) (num den : Nat) : Nat :=
  let sh := Nat.log2 (num / den) - F.fracBits
  min (sh * 2 ^ F.fracBits + divRNE num (den * 2 ^ sh)) F.infPat

/-- Put a sign on a pattern. -/
def withSign (F : FloatFmt) (neg : Bool) (pat : Nat) : Nat :=
  if neg then F.signBit + pat else pat

/-- `mag` units with a sign, as an integer number of units. -/
def signedMag (neg : Bool) (mag : Nat) : Int :=
  if neg then -(mag : Int) else mag

namespace FVal

/-- The value with its sign changed; a NaN stays a NaN. -/
def flip : FVal → FVal
  | .nan => .nan
  | .inf s => .inf (!s)
  | .fin s m => .fin (!s) m

/-- Neither an infinity nor a NaN (R12). -/
def isFinite : FVal → Bool
  | .fin _ _ => true
  | _ => false

/-- Is the value a zero of either sign? -/
def isZero : FVal → Bool
  | .fin _ m => m == 0
  | _ => false

/-- Is the value a NaN? -/
def isNaN : FVal → Bool
  | .nan => true
  | _ => false

/-- IEEE `<=` on the real values: `-0 = +0`, and false when an operand is a NaN (R12). -/
def le : FVal → FVal → Bool
  | .nan, _ => false
  | _, .nan => false
  | .inf true, _ => true
  | _, .inf false => true
  | .inf false, _ => false
  | _, .inf true => false
  | .fin s m, .fin t n => decide (signedMag s m ≤ signedMag t n)

end FVal

/-- The sum of two values (R9-R11): exact in units, rounded once. An exactly zero sum is `-0` only
when both operands are negative. -/
def addVal (F : FloatFmt) : FVal → FVal → Nat
  | .nan, _ => F.nanPat
  | _, .nan => F.nanPat
  | .inf s, .inf t => if s = t then withSign F s F.infPat else F.nanPat
  | .inf s, .fin _ _ => withSign F s F.infPat
  | .fin _ _, .inf t => withSign F t F.infPat
  | .fin s m, .fin t n =>
    let x := signedMag s m + signedMag t n
    if x = 0 then withSign F (s && t) 0
    else withSign F (decide (x < 0)) (roundMag F x.natAbs 1)

/-- The product of two values (R9-R11): its sign, a zero's too, is the XOR of the operands' signs. -/
def mulVal (F : FloatFmt) : FVal → FVal → Nat
  | .nan, _ => F.nanPat
  | _, .nan => F.nanPat
  | .inf s, .inf t => withSign F (s ^^ t) F.infPat
  | .inf s, .fin t n => if n = 0 then F.nanPat else withSign F (s ^^ t) F.infPat
  | .fin s m, .inf t => if m = 0 then F.nanPat else withSign F (s ^^ t) F.infPat
  | .fin s m, .fin t n => withSign F (s ^^ t) (roundMag F (m * n) (2 ^ F.unitExp))

/-- The quotient of two values, for the reference profiles (R112, R168). -/
def divVal (F : FloatFmt) : FVal → FVal → Nat
  | .nan, _ => F.nanPat
  | _, .nan => F.nanPat
  | .inf _, .inf _ => F.nanPat
  | .inf s, .fin t _ => withSign F (s ^^ t) F.infPat
  | .fin s _, .inf t => withSign F (s ^^ t) 0
  | .fin s m, .fin t n =>
    if n = 0 then if m = 0 then F.nanPat else withSign F (s ^^ t) F.infPat
    else withSign F (s ^^ t) (roundMag F (m * 2 ^ F.unitExp) n)

/-! ### binary32, the sample path (R9-R12) -/

/-- The value a binary32 word stands for. -/
def val32 (a : Word) : FVal := unpack .b32 a.toNat

/-- `add32` (R9). -/
def add32 (a b : Word) : Word := BitVec.ofNat 32 (addVal .b32 (val32 a) (val32 b))

/-- `sub32` (R9): the sum with the second operand's sign changed. -/
def sub32 (a b : Word) : Word := BitVec.ofNat 32 (addVal .b32 (val32 a) (val32 b).flip)

/-- `mul32` (R9): no fused multiply-add exists, so every product is rounded by itself. -/
def mul32 (a b : Word) : Word := BitVec.ofNat 32 (mulVal .b32 (val32 a) (val32 b))

/-- `isFinite` (R12). -/
def isFinite32 (a : Word) : Bool := (val32 a).isFinite

/-- IEEE `<=` on binary32 words (R12). -/
def le32 (a b : Word) : Bool := (val32 a).le (val32 b)

/-- IEEE `<` on binary32 words (R12): `a <= b` and not `b <= a`; a NaN makes it false. -/
def lt32 (a b : Word) : Bool := le32 a b && !le32 b a

/-- `-a`: the sign bit changed. -/
def neg32 (a : Word) : Word := a ^^^ 0x80000000#32

/-! ### binary64, the reference profiles (R112, R168) -/

/-- The value a binary64 word stands for. -/
def val64 (a : Double) : FVal := unpack .b64 a.toNat

/-- binary64 addition. -/
def add64 (a b : Double) : Double := BitVec.ofNat 64 (addVal .b64 (val64 a) (val64 b))

/-- binary64 subtraction. -/
def sub64 (a b : Double) : Double := BitVec.ofNat 64 (addVal .b64 (val64 a) (val64 b).flip)

/-- binary64 multiplication. -/
def mul64 (a b : Double) : Double := BitVec.ofNat 64 (mulVal .b64 (val64 a) (val64 b))

/-- binary64 division. -/
def div64 (a b : Double) : Double := BitVec.ofNat 64 (divVal .b64 (val64 a) (val64 b))

/-- `-a`: the sign bit changed. -/
def neg64 (a : Double) : Double := a ^^^ 0x8000000000000000#64

/-- The lesser of two binary64 values that are no NaN. -/
def min64 (a b : Double) : Double := if (val64 a).le (val64 b) then a else b

/-- The greater of two binary64 values that are no NaN. -/
def max64 (a b : Double) : Double := if (val64 a).le (val64 b) then b else a

/-- A whole number as a binary64 value. -/
def natTo64 (n : Nat) : Double := BitVec.ofNat 64 (roundMag .b64 (n * 2 ^ FloatFmt.b64.unitExp) 1)

/-- A binary32 value read as the binary64 word of the same real value (R13: its exact value). -/
def widen (a : Word) : Double :=
  BitVec.ofNat 64 <|
    match val32 a with
    | .nan => FloatFmt.b64.nanPat
    | .inf s => withSign .b64 s FloatFmt.b64.infPat
    | .fin s m =>
      withSign .b64 s (roundMag .b64 (m * 2 ^ (FloatFmt.b64.unitExp - FloatFmt.b32.unitExp)) 1)

/-- `rnd32` of a binary64 value: the nearest binary32 value, ties to even (R13); a NaN becomes the
canonical one. -/
def rnd32 (a : Double) : Word :=
  BitVec.ofNat 32 <|
    match val64 a with
    | .nan => FloatFmt.b32.nanPat
    | .inf s => withSign .b32 s FloatFmt.b32.infPat
    | .fin s m =>
      withSign .b32 s (roundMag .b32 m (2 ^ (FloatFmt.b64.unitExp - FloatFmt.b32.unitExp)))

end Sys2Proof.Machine
end

