-- ==== Sys2Proof/Machine/Data.lean ====
section
/-!
DEFINITION. The records CORE's state is made of (10_state.md), the indices of R15, and the turns of
the three agents (R4). Plain data only.
-/

namespace Sys2Proof.Machine

/-- A coefficient set `(b0, b1, b2, a1, a2)` with `a0 = 1` implicit (R32), over any kind of number:
binary32 words in the state, binary64 words in RF64, real numbers in statements. -/
structure CoefSet (α : Type) where
  b0 : α
  b1 : α
  b2 : α
  a1 : α
  a2 : α
  deriving DecidableEq, Repr, Inhabited

/-- The same set with every value converted. -/
def CoefSet.map {α β : Type} (f : α → β) (c : CoefSet α) : CoefSet β :=
  ⟨f c.b0, f c.b1, f c.b2, f c.a1, f c.a2⟩

/-- A binary32 coefficient set, `COEF[j]` (R32). -/
abbrev Coefs := CoefSet Word

/-- Every value `+0.0` (R37). -/
def Coefs.zero : Coefs := ⟨zero32, zero32, zero32, zero32, zero32⟩

/-- Are the values of a set all finite (R111 P2)? -/
def Coefs.finite (c : Coefs) : Bool :=
  isFinite32 c.b0 && isFinite32 c.b1 && isFinite32 c.b2 && isFinite32 c.a1 && isFinite32 c.a2

/-- A delay line `ST[j] = (s1, s2)` (R34). -/
structure Delay where
  s1 : Word
  s2 : Word
  deriving DecidableEq, Repr, Inhabited

/-- A delay line at rest, `(+0, +0)` (R37, R203). -/
def Delay.zero : Delay := ⟨zero32, zero32⟩

/-- The thirteen delay lines, in slot order (R34). -/
abbrev Delays := Vector Delay 13

/-- Every delay line at rest (R37, R203). -/
def Delays.zero : Delays := Vector.replicate 13 Delay.zero

/-- The two cut-filter banks (R145). -/
inductive Bank where
  | low
  | high
  deriving DecidableEq, Repr

/-- The two kinds of Butterworth design: `HP` for the LowCut bank, `LP` for the HighCut bank
(R108, R109, R151). -/
inductive CutKind where
  | hp
  | lp
  deriving DecidableEq, Repr

/-- LowCut is high-pass, HighCut is low-pass (R151). -/
def Bank.kind : Bank → CutKind
  | .low => .hp
  | .high => .lp

/-- `slot_B(i)`: `i` for LowCut, `9 + i` for HighCut (R145, R15). -/
def Bank.slot : Bank → Fin 4 → Fin 13
  | .low, i => ⟨i.val, by omega⟩
  | .high, i => ⟨9 + i.val, by omega⟩

/-- The slot of peak band `b`, `4 + b` (R15, R162). -/
def peakSlot (b : Fin 5) : Fin 13 := ⟨4 + b.val, by omega⟩

/-- The stage index of peak band `b`, `b + 1` (R15). -/
def peakStage (b : Fin 5) : Fin 7 := ⟨b.val + 1, by omega⟩

/-- The stage index of a bank, 0 or 6 (R15, R145). -/
def Bank.stage : Bank → Fin 7
  | .low => 0
  | .high => 6

/-- The section indices of a bank, in processing order (R146). -/
def sectionIxs : List (Fin 4) := [0, 1, 2, 3]

/-- The band indices, in processing order (R161). -/
def bandIxs : List (Fin 5) := [0, 1, 2, 3, 4]

/-- The slot indices, in processing order (R15). -/
def slotIxs : List (Fin 13) := [0, 1, 2, 3, 4, 5, 6, 7, 8, 9, 10, 11, 12]

/-- A chain position (R5, R15). -/
inductive Stage where
  | lowCut
  | peak (b : Fin 5)
  | highCut
  deriving DecidableEq, Repr

/-- The seven stages in the fixed order of R5. -/
def stages : List Stage :=
  [.lowCut, .peak 0, .peak 1, .peak 2, .peak 3, .peak 4, .highCut]

/-- A cut stage's configuration `Cut {n, coefs[0..n-1], byp}`; `n` is the list's length (R110). -/
structure CutCfg where
  coefs : List Coefs
  byp : Bool
  deriving DecidableEq, Repr

/-- A peak stage's configuration `Peak {coef, byp}` (R110). -/
structure PeakCfg where
  coef : Coefs
  byp : Bool
  deriving DecidableEq, Repr

/-- The seven stage configurations `designSnapshot` returns (R110). -/
structure ChainCfg where
  lowCut : CutCfg
  peak : Vector PeakCfg 5
  highCut : CutCfg
  deriving DecidableEq, Repr

/-- `PEND`: the partial map from stages to pending configurations (R23). -/
structure Pending where
  lowCut : Option CutCfg
  peak : Vector (Option PeakCfg) 5
  highCut : Option CutCfg
  deriving DecidableEq, Repr

/-- The lifecycle states (R22). -/
inductive LState where
  | unprepared
  | prepared
  | processing
  | released
  deriving DecidableEq, Repr

/-- The encoding of `LSTATE` in `STATUS[1:0]` (R22). -/
def LState.code : LState → BitVec 2
  | .unprepared => 0
  | .prepared => 1
  | .processing => 2
  | .released => 3

/-- `LSTATE in {PREPARED, PROCESSING}`: the states that admit PROCESS, UPDATE and QUERY (R160,
R180, R166). -/
def LState.isReady : LState → Bool
  | .prepared => true
  | .processing => true
  | .unprepared => false
  | .released => false

/-- The sticky error bits of STATUS (R24). -/
structure Errors where
  cerr : Bool
  serr : Bool
  ierr : Bool
  deriving DecidableEq, Repr

/-- The name of one sticky error bit (R24, R241). -/
inductive ErrBit where
  | cerr
  | serr
  | ierr
  deriving DecidableEq, Repr

/-- The staging registers (R26-R29). The two slope codes are the fields of SLOPE, `bypass` the seven
bits BYPASS holds; reserved bits have no storage (R77). -/
structure Staging where
  lcSlope : BitVec 4
  hcSlope : BitVec 4
  bypass : BitVec 7
  fs : Word
  lcFreq : Word
  hcFreq : Word
  bandFreq : Vector Word 5
  bandGain : Vector Word 5
  bandQ : Vector Word 5
  deriving DecidableEq, Repr

/-- A parameter snapshot (R100). -/
structure Snapshot where
  freq : Vector Word 5
  gain : Vector Word 5
  q : Vector Word 5
  lcFreq : Word
  hcFreq : Word
  lcSlope : BitVec 4
  hcSlope : BitVec 4
  byp : BitVec 7
  deriving DecidableEq, Repr

/-- The active configuration the sample path reads (R30-R33): `SBYP`, `SECBYP_LC`, `SECBYP_HC`,
`COEF` and `ACT_FS`. A set flag means bypassed. -/
structure Active where
  sbyp : Vector Bool 7
  secLow : Vector Bool 4
  secHigh : Vector Bool 4
  coef : Vector Coefs 13
  fs : Word
  deriving DecidableEq, Repr

/-- Which agent takes the next step (R4), chosen by the environment (R59: one total order).
`control`: the control agent performs its next request, or completes a held write that can now
complete. `retry`: the control agent waits on its held write and retries it. `sample`: the sample
agent performs its next PROCESS. `commit n`: the commit agent installs the pending stage that
`n` picks (R183). `reset`: the reset event (R270). -/
inductive Turn where
  | control
  | retry
  | sample
  | commit (pick : Nat)
  | reset
  deriving DecidableEq, Repr, Inhabited

end Sys2Proof.Machine
end

