-- ==== Sys2Proof/Config.lean ====
section
/-!
DEFINITION. What is fixed for one instance of CORE (R6), and the values the spec leaves free.

The build-time parameters are a record of plain data, `Params`. Every machine state carries the
record of the instance it is a state of, and no step changes it, so a statement about every state
is a statement about every configuration (log entry 6). The constants declared `opaque` have no
body: nothing can be proved of their values.
-/

namespace Sys2Proof

open Sys2Proof.Machine

/-- How a configuration function of R6 is evaluated: by the spec's reference profile (the default),
or by some other implementation, of which the spec's named properties alone are known. -/
inductive Profile where
  | reference
  | other (id : Nat)
  deriving DecidableEq, Repr

/-- The configuration parameters of R6. `Q_MIN` and `Q_MAX` are fixed (I3), see `qMin` and `qMax`. -/
structure Params where
  gainMax : Word
  bandMin : Vector Word 5
  bandMax : Vector Word 5
  cutMin : Word
  cutMax : Word
  fMinHz : Word
  nyqFrac : Double
  factory : Profile
  mag : Profile
  deriving DecidableEq, Repr

/-- `Q_MIN`, the binary32 value nearest 0.1 (R6). -/
def qMin : Word := 0x3DCCCCCD#32

/-- `Q_MAX`, 10.0 (R6). -/
def qMax : Word := 0x41200000#32

/-- The default parameters of R6: gain to 24 dB, 20 Hz to 20000 Hz, `F_MIN_HZ = 2.0`, `NYQ_FRAC` the
binary64 nearest 0.49, and the reference profiles. -/
def Params.default : Params where
  gainMax := 0x41C00000#32
  bandMin := Vector.replicate 5 0x41A00000#32
  bandMax := Vector.replicate 5 0x469C4000#32
  cutMin := 0x41A00000#32
  cutMax := 0x469C4000#32
  fMinHz := 0x40000000#32
  nyqFrac := 0x3FDF5C28F5C28F5C#64
  factory := .reference
  mag := .reference

namespace Config

/-- FREE VALUE (R4, R183, I8, I9): which agent moves when the environment's schedule lists no turn,
one choice for each value of the tick counter (log entry 2). -/
opaque freeTurn : Nat → Turn

/-- FREE VALUE (R111): what a FACTORY other than RF64 gives for a peak design, before the named
properties P2 and P4 are imposed. Arguments: configuration, fs, f, Q, g (log entry 7). -/
opaque otherPeak : Params → Word → Word → Word → Word → Coefs

/-- FREE VALUE (R111): what a FACTORY other than RF64 gives for section `i` of an `n`-section cut
design, before P2 and P4 are imposed. Arguments: configuration, kind, fs, f, n, i (log entry 7). -/
opaque otherCut : Params → CutKind → Word → Word → Nat → Nat → Coefs

/-- FREE VALUE (R168): what a MAG other than the reference gives for a finite response, before M4's
finiteness is imposed (log entry 11), and what the reference gives for one where its binary64
evaluation is not finite (log entry 24). Arguments: configuration, active configuration, f. -/
opaque otherMag : Params → Active → Word → Word

/-- FREE VALUE: the query's result where R165 states no response, because an active coefficient is
not finite or `ACT_FS` not finite and positive. No reachable state of a well-formed configuration is one (log entry 13). -/
opaque unstatedMag : Params → Active → Word → Word

end Config

end Sys2Proof
end

