-- ==== Sys2Proof/Syntax.lean ====
section
/-!
DEFINITION. The transactions CORE accepts, one constructor for each row of opcode_table.json
(R74, R75).
-/

namespace Sys2Proof

/-- A transaction of CORE (R74). -/
inductive Instr where
  /-- REG_READ (R220). WDATA is carried by the request and ignored (R70). -/
  | regRead (waddr : WAddr) (wdata : Word)
  /-- REG_WRITE (R221): a write to any word offset but CMD's. -/
  | regWrite (waddr : WAddr) (wdata : Word)
  /-- CMD_NOP (R201). -/
  | cmdNop
  /-- CMD_PREPARE (R202). -/
  | cmdPrepare
  /-- CMD_UPDATE (R180). -/
  | cmdUpdate
  /-- CMD_FLUSH (R203). -/
  | cmdFlush
  /-- CMD_RELEASE (R204). -/
  | cmdRelease
  /-- CMD_QUERY (R166). -/
  | cmdQuery
  /-- CMD_ILLEGAL (R205): any other word written to CMD, by its RSV and OP fields (R73). -/
  | cmdIllegal (rsv : BitVec 24) (op : BitVec 8)
  /-- PROCESS (R160): one sample on the sample port. -/
  | process (x : Word)
  deriving DecidableEq, Repr

/-- The word offset of CMD, byte offset 0x008 (R73). -/
def cmdWAddr : WAddr := 2#10

end Sys2Proof
end

