-- ==== Sys2Proof/WellFormed.lean ====
section
/-!
DEFINITION. Well-formed instructions (R73-R76) and well-formed configurations (R6).
-/

namespace Sys2Proof

open Sys2Proof.Machine

/-- Is the word `{rsv, op}` one of the six commands of R74? -/
def isCommandWord (rsv : BitVec 24) (op : BitVec 8) : Bool :=
  rsv == 0#24 && decide (op.toNat ≤ 5)

/-- An instruction some transaction stands for: a REG_WRITE is not to CMD, and a CMD_ILLEGAL word is
not one of the six commands (R75). -/
def Instr.wf : Instr → Bool
  | .regRead _ _ => true
  | .regWrite waddr _ => waddr != cmdWAddr
  | .cmdNop => true
  | .cmdPrepare => true
  | .cmdUpdate => true
  | .cmdFlush => true
  | .cmdRelease => true
  | .cmdQuery => true
  | .cmdIllegal rsv op => !isCommandWord rsv op
  | .process _ => true

/-- `0 < lo <= hi` and both finite: a frequency range of R6. -/
def rangeWf (lo hi : Word) : Bool :=
  isFinite32 lo && isFinite32 hi && lt32 zero32 lo && le32 lo hi

/-- `0 < v < 0.5` in binary64. -/
def nyqWf (v : Double) : Bool :=
  !(val64 v).le (val64 0#64) && !(val64 0x3FE0000000000000#64).le (val64 v)
    && (val64 v).isFinite

/-- The constraints every configuration meets (R6). -/
def Params.wf (p : Params) : Bool :=
  (p.gainMax == 0x41400000#32 || p.gainMax == 0x41C00000#32)
    && bandIxs.all (fun b => rangeWf p.bandMin[b] p.bandMax[b])
    && rangeWf p.cutMin p.cutMax
    && isFinite32 p.fMinHz && lt32 zero32 p.fMinHz
    && nyqWf p.nyqFrac

end Sys2Proof
end

