-- ==== Sys2Proof/Decode.lean ====
section
/-!
DEFINITION. The decoder of R75, total on every request and every sample, the encoder written from
the same formats (R70-R74), and the byte frames in which `decodeTableWord` carries a word of
opcode_table.json.
-/

namespace Sys2Proof

/-- A transaction on one of CORE's two ports, as bits: a 43-bit CTL request (R70) or a 32-bit SMP
input word (R72). -/
inductive Transaction where
  | ctl (req : Req)
  | smp (x : Word)
  deriving DecidableEq, Repr

/-- WE, bit 42 (R70). -/
def Req.we (r : Req) : Bool := r.getLsbD 42

/-- WADDR, bits 41:32 (R70). -/
def Req.waddr (r : Req) : WAddr := r.extractLsb' 32 10

/-- WDATA, bits 31:0 (R70). -/
def Req.wdata (r : Req) : Word := r.extractLsb' 0 32

/-- A CTL request from its three fields, `WE<<42 | WADDR<<32 | WDATA` (R70). -/
def Req.mk (we : Bool) (waddr : WAddr) (wdata : Word) : Req :=
  BitVec.ofNat 43 (we.toNat * 2 ^ 42 + waddr.toNat * 2 ^ 32 + wdata.toNat)

/-- OP, bits 7:0 of a word written to CMD (R73). -/
def cmdOp (w : Word) : BitVec 8 := w.extractLsb' 0 8

/-- RSV, bits 31:8 of a word written to CMD (R73). -/
def cmdRsv (w : Word) : BitVec 24 := w.extractLsb' 8 24

/-- The word written to CMD with these two fields (R73). -/
def cmdWord (rsv : BitVec 24) (op : BitVec 8) : Word :=
  BitVec.ofNat 32 (rsv.toNat * 2 ^ 8 + op.toNat)

/-- The command a word written to CMD stands for: lines (3) and (4) of R75, by the opcodes of R74. -/
def decodeCommand (w : Word) : Instr :=
  if cmdRsv w = 0#24 then
    if cmdOp w = 0x00#8 then .cmdNop
    else if cmdOp w = 0x01#8 then .cmdPrepare
    else if cmdOp w = 0x02#8 then .cmdUpdate
    else if cmdOp w = 0x03#8 then .cmdFlush
    else if cmdOp w = 0x04#8 then .cmdRelease
    else if cmdOp w = 0x05#8 then .cmdQuery
    else .cmdIllegal (cmdRsv w) (cmdOp w)
  else .cmdIllegal (cmdRsv w) (cmdOp w)

/-- The decoder of a control-port request: lines (2) to (5) of R75. -/
def decodeCtl (r : Req) : Instr :=
  if Req.we r then
    if Req.waddr r = cmdWAddr then decodeCommand (Req.wdata r)
    else .regWrite (Req.waddr r) (Req.wdata r)
  else .regRead (Req.waddr r) (Req.wdata r)

/-- The decoder of R75. -/
def decode : Transaction → Instr
  | .smp x => .process x
  | .ctl r => decodeCtl r

/-- Why a byte frame carries no transaction. -/
inductive DecodeError where
  /-- The frame is neither 4 bytes (SMP) nor 6 bytes (CTL). -/
  | badLength
  /-- A 6-byte frame has a bit set above bit 42, outside format CTL (R70). -/
  | strayBits
  deriving DecidableEq, Repr

/-- The number whose bytes these are, the first one least significant. -/
def ofBytes : List (BitVec 8) → Nat
  | [] => 0
  | b :: bs => b.toNat + 256 * ofBytes bs

/-- The `n` low bytes of a number, least significant first. -/
def toBytes : Nat → Nat → List (BitVec 8)
  | 0, _ => []
  | n + 1, w => BitVec.ofNat 8 w :: toBytes n (w / 256)

/-- The decoder on bytes, total, rejecting by name: 4 bytes are a sample, 6 bytes a control-port
request (log entry 14). -/
def decodeBytes (bs : List (BitVec 8)) : Except DecodeError Transaction :=
  if bs.length = 4 then .ok (.smp (BitVec.ofNat 32 (ofBytes bs)))
  else if bs.length = 6 then
    if ofBytes bs < 2 ^ 43 then .ok (.ctl (BitVec.ofNat 43 (ofBytes bs))) else .error .strayBits
  else .error .badLength

/-- How many bytes carry a word of a table row with `nbits` bits: 4 for a 32-bit SMP row, 6 for a
43-bit CTL row (and for its 48 bits in whole bytes). -/
def frameBytes (nbits : Nat) : Nat := if nbits ≤ 32 then 4 else if nbits ≤ 48 then 6 else 0

/-- The transaction a word of opcode_table.json stands for, if it is one. -/
def tableTransaction (nbits w : Nat) : Option Transaction :=
  if 256 ^ frameBytes nbits ≤ w then none
  else
    match decodeBytes (toBytes (frameBytes nbits) w) with
    | .ok t => some t
    | .error _ => none

/-- The instruction the decoder reads from a word of opcode_table.json, numbered as the table
numbers its bits. -/
def decodeTableWord (nbits w : Nat) : Option Instr := (tableTransaction nbits w).map decode

/-- A write of a word to CMD (R73). -/
def encodeCommand (rsv : BitVec 24) (op : BitVec 8) : Transaction :=
  .ctl (Req.mk true cmdWAddr (cmdWord rsv op))

/-- The encoder, from the formats of R70-R74. -/
def encode : Instr → Transaction
  | .regRead waddr wdata => .ctl (Req.mk false waddr wdata)
  | .regWrite waddr wdata => .ctl (Req.mk true waddr wdata)
  | .cmdNop => encodeCommand 0#24 0x00#8
  | .cmdPrepare => encodeCommand 0#24 0x01#8
  | .cmdUpdate => encodeCommand 0#24 0x02#8
  | .cmdFlush => encodeCommand 0#24 0x03#8
  | .cmdRelease => encodeCommand 0#24 0x04#8
  | .cmdQuery => encodeCommand 0#24 0x05#8
  | .cmdIllegal rsv op => encodeCommand rsv op
  | .process x => .smp x

/-- Does a control-port request decode to a command, a write to CMD (R200)? -/
def Req.isCommand (r : Req) : Bool := Req.we r && Req.waddr r == cmdWAddr

end Sys2Proof
end

