-- ==== Sys2Proof/Machine/Elementary.lean ====
section
/-!
DEFINITION. The correctly rounded binary64 functions the reference profiles name: `sin`, `cos`,
`tan`, `pow(10, y)`, `log10`, `sqrt` (R112, R168).

Each transcendental function is evaluated by a series in fixed point at a working precision of `P`
bits, which gives a lower and an upper bound of the exact value. When both bounds round to the same
binary64 pattern, that pattern is the correctly rounded value; otherwise a higher precision is
tried (`firstAgreement`). The bounds are `slack` units of `2^-P` wide, far more than the series'
accumulated truncation on the domains below. Outside those domains, which no design or query of a
well-formed configuration leaves, a function answers NaN (log entry 9).
-/

namespace Sys2Proof.Machine

/-- A rational bound: numerator and positive denominator. -/
abbrev Bound := Int × Nat

/-- The binary64 pattern nearest to a rational, ties to even. -/
def roundBound (b : Bound) : Nat :=
  withSign .b64 (decide (b.1 < 0)) (roundMag .b64 (b.1.natAbs * 2 ^ FloatFmt.b64.unitExp) b.2)

/-- The common rounding of a lower and an upper bound, if they agree. -/
def agree (lo hi : Bound) : Option Nat :=
  let a := roundBound lo
  if a = roundBound hi then some a else none

/-- Half the width of an enclosure, in units of `2^-P`. -/
def slack : Int := 2 ^ 24

/-- The working precisions tried, in order. -/
def precisions : List Nat := [320, 640, 1280, 2560]

/-- The rounding of the first enclosure whose two bounds agree. If none does (no argument is known
for which that happens), the last lower bound's rounding. -/
def firstAgreement (enclose : Nat → Bound × Bound) : List Nat → Double
  | [] => BitVec.ofNat 64 (roundBound (enclose 2560).1)
  | P :: more =>
    match agree (enclose P).1 (enclose P).2 with
    | some pat => BitVec.ofNat 64 pat
    | none => firstAgreement enclose more

/-- `mag` binary64 units in fixed point at `P` bits, rounded down. -/
def toFixed (P mag : Nat) : Nat := mag * 2 ^ P / 2 ^ FloatFmt.b64.unitExp

/-- `t - t x²/((k+1)(k+2)) + ...`: the alternating series of sine (`k = 1`) and cosine (`k = 0`),
where `x2` is `x²` in fixed point. -/
def altSeries (P x2 : Nat) : Nat → Nat → Nat → Int
  | 0, _, _ => 0
  | n + 1, k, t => (t : Int) - altSeries P x2 n (k + 2) (t * x2 / 2 ^ P / ((k + 1) * (k + 2)))

/-- `sin x` in fixed point, for `x` given in fixed point. -/
def sinFixed (P x : Nat) : Int := altSeries P (x * x / 2 ^ P) (P / 4) 1 x

/-- `cos x` in fixed point. -/
def cosFixed (P x : Nat) : Int := altSeries P (x * x / 2 ^ P) (P / 4) 0 (2 ^ P)

/-- `t + t z/k + ...`: the series of the exponential. -/
def expSeries (P z : Nat) : Nat → Nat → Nat → Nat
  | 0, _, _ => 0
  | n + 1, k, t => t + expSeries P z n (k + 1) (t * z / 2 ^ P / k)

/-- `t/k + t z²/(k+2) + ...`: the series of the inverse hyperbolic tangent. -/
def atanhSeries (P z2 : Nat) : Nat → Nat → Nat → Nat
  | 0, _, _ => 0
  | n + 1, k, t => t / k + atanhSeries P z2 n (k + 2) (t * z2 / 2 ^ P)

/-- `atanh z` in fixed point, for `z` given in fixed point, `z <= 1/3`. -/
def atanhFixed (P z : Nat) : Nat := atanhSeries P (z * z / 2 ^ P) (P / 3) 1 z

/-- `ln 2 = 2 atanh (1/3)` in fixed point. -/
def ln2Fixed (P : Nat) : Nat := 2 * atanhFixed P (2 ^ P / 3)

/-- `ln 10 = 3 ln 2 + 2 atanh (1/9)` in fixed point. -/
def ln10Fixed (P : Nat) : Nat := 3 * ln2Fixed P + 2 * atanhFixed P (2 ^ P / 9)

/-- An enclosure of a fixed-point value. -/
def around (P : Nat) (x : Int) : Bound × Bound := ((x - slack, 2 ^ P), (x + slack, 2 ^ P))

/-- Is the magnitude at most 8? The domain of `sin64`, `cos64` and `tan64`. -/
def withinEight (mag : Nat) : Bool := decide (mag ≤ 8 * 2 ^ FloatFmt.b64.unitExp)

/-- `sin`, correctly rounded, for arguments of magnitude at most 8. -/
def sin64 (a : Double) : Double :=
  match val64 a with
  | .fin s m =>
    if m = 0 then a
    else if withinEight m then
      let r := firstAgreement (fun P => around P (sinFixed P (toFixed P m))) precisions
      if s then neg64 r else r
    else BitVec.ofNat 64 FloatFmt.b64.nanPat
  | _ => BitVec.ofNat 64 FloatFmt.b64.nanPat

/-- `cos`, correctly rounded, for arguments of magnitude at most 8. -/
def cos64 (a : Double) : Double :=
  match val64 a with
  | .fin _ m =>
    if m = 0 then natTo64 1
    else if withinEight m then
      firstAgreement (fun P => around P (cosFixed P (toFixed P m))) precisions
    else BitVec.ofNat 64 FloatFmt.b64.nanPat
  | _ => BitVec.ofNat 64 FloatFmt.b64.nanPat

/-- An enclosure of `tan x` for `0 < x < pi/2`: sine over cosine, each bound the wrong way round in
the denominator. -/
def tanEnclosure (P x : Nat) : Bound × Bound :=
  let s := sinFixed P x
  let c := cosFixed P x
  ((s - slack, (c + slack).toNat), (s + slack, (c - slack).toNat))

/-- `tan`, correctly rounded, for arguments in `[0, pi/2)`, the domain of the cut designs. -/
def tan64 (a : Double) : Double :=
  match val64 a with
  | .fin s m =>
    if m = 0 then a
    else if withinEight m then
      let r := firstAgreement (fun P => tanEnclosure P (toFixed P m)) precisions
      if s then neg64 r else r
    else BitVec.ofNat 64 FloatFmt.b64.nanPat
  | _ => BitVec.ofNat 64 FloatFmt.b64.nanPat

/-- An enclosure of `10^y` or of its inverse, from `e^(|y| ln 10)`. -/
def tenPowEnclosure (neg : Bool) (mag P : Nat) : Bound × Bound :=
  let z := mag * ln10Fixed P / 2 ^ FloatFmt.b64.unitExp
  let e : Int := expSeries P z (P / 4) 1 (2 ^ P)
  if neg then ((2 ^ P, (e + slack).toNat), (2 ^ P, (e - slack).toNat)) else around P e

/-- `pow(10, y)`, correctly rounded, for `|y| <= 2`, which holds every `g/40` of a valid gain. -/
def tenPow64 (a : Double) : Double :=
  match val64 a with
  | .fin s m =>
    if m = 0 then natTo64 1
    else if m ≤ 2 * 2 ^ FloatFmt.b64.unitExp then
      firstAgreement (tenPowEnclosure s m) precisions
    else BitVec.ofNat 64 FloatFmt.b64.nanPat
  | _ => BitVec.ofNat 64 FloatFmt.b64.nanPat

/-- An enclosure of `log10 v` for `v` of `mag` binary64 units: with `v = m * 2^k` and
`3/4 <= m < 3/2`, it is `(2 atanh ((m-1)/(m+1)) + k ln 2) / ln 10`. -/
def log10Enclosure (mag P : Nat) : Bound × Bound :=
  let l := Nat.log2 mag
  let up := decide (3 * 2 ^ l ≤ 2 * mag)
  let base : Nat := if up then 2 ^ (l + 1) else 2 ^ l
  let k : Int := (if up then l + 1 else l : Nat) - (FloatFmt.b64.unitExp : Int)
  let z : Int := (mag : Int) - base
  let az : Int := 2 * atanhFixed P (z.natAbs * 2 ^ P / (mag + base))
  let ln : Int := (if z < 0 then -az else az) + k * ln2Fixed P
  around P (ln * 2 ^ P / ln10Fixed P)

/-- `log10`, correctly rounded: `-inf` of a zero, NaN of a negative value. -/
def log10of64 (a : Double) : Double :=
  match val64 a with
  | .nan => BitVec.ofNat 64 FloatFmt.b64.nanPat
  | .inf s => BitVec.ofNat 64 (if s then FloatFmt.b64.nanPat else FloatFmt.b64.infPat)
  | .fin s m =>
    if m = 0 then BitVec.ofNat 64 (withSign .b64 true FloatFmt.b64.infPat)
    else if s then BitVec.ofNat 64 FloatFmt.b64.nanPat
    else if m = 2 ^ FloatFmt.b64.unitExp then 0#64
    else firstAgreement (log10Enclosure m) precisions

/-- Newton's iteration for the whole part of a square root, from above. -/
def isqrtFrom (n : Nat) : Nat → Nat → Nat
  | 0, x => x
  | fuel + 1, x =>
    let y := (x + n / x) / 2
    if y < x then isqrtFrom n fuel y else x

/-- The whole part of the square root of `n`. -/
def isqrt (n : Nat) : Nat :=
  if n = 0 then 0 else isqrtFrom n 64 (2 ^ (Nat.log2 n / 2 + 1))

/-- `sqrt`, correctly rounded: the whole part of the root in units, with a sticky bit for the rest. -/
def sqrt64 (a : Double) : Double :=
  match val64 a with
  | .nan => BitVec.ofNat 64 FloatFmt.b64.nanPat
  | .inf s => BitVec.ofNat 64 (if s then FloatFmt.b64.nanPat else FloatFmt.b64.infPat)
  | .fin s m =>
    if m = 0 then a
    else if s then BitVec.ofNat 64 FloatFmt.b64.nanPat
    else
      let n := m * 2 ^ FloatFmt.b64.unitExp
      let r := isqrt n
      BitVec.ofNat 64 (roundMag .b64 (2 * r + if r * r = n then 0 else 1) 2)

end Sys2Proof.Machine
end

