-- ==== Sys2Proof/Machine/Factory.lean ====
section
/-!
DEFINITION. The coefficient factory (40_coefficient_factory.md): validation (R102, R103), the design
formulas (R101, R104-R109), the reference profile RF64 (R112), the named properties of FACTORY
(R111), and `designSnapshot` (R110).

The formulas are written once, over an abstract arithmetic (`Arith`). RF64 is their evaluation in
binary64; Machine/Exact.lean evaluates the same text over the real numbers.
-/

namespace Sys2Proof.Machine

/-! ### Validation -/

/-- `lo <= v <= hi`; a NaN fails (R12, R102). -/
def inRange (lo hi v : Word) : Bool := le32 lo v && le32 v hi

/-- `validSnap` (R102). The bypass bits are not checked. -/
def validSnap (p : Params) (s : Snapshot) : Bool :=
  bandIxs.all (fun b =>
    inRange p.bandMin[b] p.bandMax[b] s.freq[b]
      && inRange (neg32 p.gainMax) p.gainMax s.gain[b]
      && inRange qMin qMax s.q[b])
    && inRange p.cutMin p.cutMax s.lcFreq && inRange p.cutMin p.cutMax s.hcFreq
    && decide (s.lcSlope.toNat ≤ 3) && decide (s.hcSlope.toNat ≤ 3)

/-- `validFs`: finite and positive (R103). -/
def validFs (fs : Word) : Bool := isFinite32 fs && lt32 zero32 fs

/-! ### The design formulas, over any arithmetic -/

/-- The operations the design formulas and the magnitude response use (R13). -/
structure Arith (α : Type) where
  nat : Nat → α
  pi : α
  neg : α → α
  add : α → α → α
  sub : α → α → α
  mul : α → α → α
  div : α → α → α
  min : α → α → α
  max : α → α → α
  sin : α → α
  cos : α → α
  tan : α → α
  tenPow : α → α
  log10 : α → α
  sqrt : α → α

/-- The clamp bounds of R101: `F_MIN_HZ` and `NYQ_FRAC`. -/
structure Clamp (α : Type) where
  fMin : α
  nyqFrac : α

variable {α : Type} (A : Arith α)

/-- `clampF(f, fs) = min(max(f, F_MIN_HZ), NYQ_FRAC * fs)` (R101). -/
def clampFreq (k : Clamp α) (f fs : α) : α := A.min (A.max f k.fMin) (A.mul k.nyqFrac fs)

/-- `A = 10^(g/40)` (R104). -/
def halfGain (g : α) : α := A.tenPow (A.div g (A.nat 40))

/-- `w0 = 2*pi*fe/fs` (R105); also the query's `w` (R165). -/
def angular (f fs : α) : α := A.div (A.mul (A.mul (A.nat 2) A.pi) f) fs

/-- `alpha = sin(w0)/(2*Q)` (R105). -/
def peakAlpha (w0 q : α) : α := A.div (A.sin w0) (A.mul (A.nat 2) q)

/-- The peak set from `A`, `alpha` and `c = cos(w0)` (R105). -/
def peakFrom (amp alpha c : α) : CoefSet α :=
  let a0 := A.add (A.nat 1) (A.div alpha amp)
  { b0 := A.div (A.add (A.nat 1) (A.mul alpha amp)) a0
    b1 := A.div (A.mul (A.neg (A.nat 2)) c) a0
    b2 := A.div (A.sub (A.nat 1) (A.mul alpha amp)) a0
    a1 := A.div (A.mul (A.neg (A.nat 2)) c) a0
    a2 := A.div (A.sub (A.nat 1) (A.div alpha amp)) a0 }

/-- `designPeak(fs, f, Q, g)` before rounding (R105). -/
def peakDesign (k : Clamp α) (fs f q g : α) : CoefSet α :=
  let w0 := angular A (clampFreq A k f fs) fs
  peakFrom A (halfGain A g) (peakAlpha A w0 q) (A.cos w0)

/-- `Q(n, i) = 1 / (2*cos(((2i+1)*pi)/(4n)))` (R107, R112). -/
def sectionQ (n i : Nat) : α :=
  A.div (A.nat 1)
    (A.mul (A.nat 2) (A.cos (A.div (A.mul (A.nat (2 * i + 1)) A.pi) (A.nat (4 * n)))))

/-- `K = tan(pi*fe/fs)` (R108). -/
def warp (fe fs : α) : α := A.tan (A.div (A.mul A.pi fe) fs)

/-- `D = 1 + K/Q + K*K` (R108). -/
def cutDenominator (k q : α) : α := A.add (A.add (A.nat 1) (A.div k q)) (A.mul k k)

/-- One cut section from `K` and `Q`: high-pass (R108) or low-pass (R109). -/
def cutFrom (kind : CutKind) (k q : α) : CoefSet α :=
  let d := cutDenominator A k q
  let b0 := match kind with
    | .hp => A.div (A.nat 1) d
    | .lp => A.div (A.mul k k) d
  { b0 := b0
    b1 := match kind with
      | .hp => A.mul (A.neg (A.nat 2)) b0
      | .lp => A.mul (A.nat 2) b0
    b2 := b0
    a1 := A.div (A.mul (A.nat 2) (A.sub (A.mul k k) (A.nat 1))) d
    a2 := A.div (A.add (A.sub (A.nat 1) (A.div k q)) (A.mul k k)) d }

/-- Section `i` of `designCut(kind, fs, f, n)` before rounding (R108, R109). -/
def cutDesign (kind : CutKind) (c : Clamp α) (fs f : α) (n i : Nat) : CoefSet α :=
  cutFrom A kind (warp A (clampFreq A c f fs) fs) (sectionQ A n i)

/-! ### RF64, the reference profile (R112) -/

/-- binary64 arithmetic with correctly rounded functions, `pi` the binary64 value of R112. -/
def rf64 : Arith Double where
  nat := natTo64
  pi := 0x400921FB54442D18#64
  neg := neg64
  add := add64
  sub := sub64
  mul := mul64
  div := div64
  min := min64
  max := max64
  sin := sin64
  cos := cos64
  tan := tan64
  tenPow := tenPow64
  log10 := log10of64
  sqrt := sqrt64

/-- The clamp bounds of a configuration, in binary64. RF64 clamps with the configured `F_MIN_HZ` and
`NYQ_FRAC` (R6, R101), also where they are not the 2.0 and 0.49 that R112 names: the model's choice
(log entry 25). -/
def clamp64 (p : Params) : Clamp Double := ⟨widen p.fMinHz, p.nyqFrac⟩

/-- `designPeak` under RF64, each value rounded once to binary32 (R112). -/
def rf64Peak (p : Params) (fs f q g : Word) : Coefs :=
  (peakDesign rf64 (clamp64 p) (widen fs) (widen f) (widen q) (widen g)).map rnd32

/-- Section `i` of `designCut` under RF64 (R112). -/
def rf64Cut (p : Params) (kind : CutKind) (fs f : Word) (n i : Nat) : Coefs :=
  (cutDesign rf64 kind (clamp64 p) (widen fs) (widen f) n i).map rnd32

/-! ### FACTORY and its named properties (R111) -/

/-- A value made finite: itself if it is, else `+0.0`. -/
def toFinite (w : Word) : Word := if isFinite32 w then w else zero32

/-- A peak set with P2 and P4 of R111: every value finite and `b1 = a1`. A set that has both
properties is left as it is (log entry 7). -/
def conformPeak (c : Coefs) : Coefs :=
  let f := c.map toFinite
  { f with b1 := f.a1 }

/-- `-2.0` for a high-pass, `2.0` for a low-pass section: the factor of P4 (R111). -/
def cutFactor : CutKind → Word
  | .hp => 0xC0000000#32
  | .lp => 0x40000000#32

/-- Has a cut set P2 and P4 of R111: every value finite, `b2` the same pattern as `b0`, and
`b1 = -2*b0` (HP) or `2*b0` (LP) as values? R12's `=` makes the two zeros equal, so P4 leaves the
sign of a zero `b1` open. -/
def cutStructured (kind : CutKind) (c : Coefs) : Bool :=
  c.finite && c.b2 == c.b0 && le32 c.b1 (mul32 (cutFactor kind) c.b0)
    && le32 (mul32 (cutFactor kind) c.b0) c.b1

/-- A cut set with P2 and P4 of R111. A set that has both properties is left as it is, the sign of a
zero `b1` included; another one is given both (log entry 7). -/
def conformCut (kind : CutKind) (c : Coefs) : Coefs :=
  if cutStructured kind c then c
  else
    let b0 := if isFinite32 (mul32 (cutFactor kind) c.b0) then c.b0 else zero32
    { b0 := b0
      b1 := mul32 (cutFactor kind) b0
      b2 := b0
      a1 := toFinite c.a1
      a2 := toFinite c.a2 }

/-- RF64's set as R112 evaluates it. It is finite on every argument R102 and R103 allow; on others,
which no command designs for, it is conformed to P2 and P4 so that P2 holds (log entry 8). -/
def literalOr (conform : Coefs → Coefs) (c : Coefs) : Coefs := if c.finite then c else conform c

/-- FACTORY's `designPeak` (R6, R111): RF64 (R112), or another profile held to P2 and P4. It is a
function of its arguments and the configuration alone (P1). -/
@[irreducible] def designPeak (p : Params) (fs f q g : Word) : Coefs :=
  match p.factory with
  | .reference => literalOr conformPeak (rf64Peak p fs f q g)
  | .other _ => conformPeak (Config.otherPeak p fs f q g)

/-- FACTORY's `designCut`, section `i` of `n` (R6, R111): RF64, whose `b1` is the rounding of
`-2*b0` or `2*b0` with the binary64 `b0` (R112, log entry 8), or another profile held to P2 and
P4. -/
@[irreducible] def designCut (p : Params) (kind : CutKind) (fs f : Word) (n i : Nat) : Coefs :=
  match p.factory with
  | .reference => literalOr (conformCut kind) (rf64Cut p kind fs f n i)
  | .other _ => conformCut kind (Config.otherCut p kind fs f n i)

/-! ### The whole snapshot (R110) -/

/-- The configuration of a cut bank for a slope code: `n = code + 1` sections (R106, R110). -/
def cutCfg (p : Params) (b : Bank) (fs f : Word) (code : BitVec 4) (byp : Bool) : CutCfg where
  coefs := (List.range (code.toNat + 1)).map (fun i => designCut p b.kind fs f (code.toNat + 1) i)
  byp := byp

/-- The configuration of peak band `b` (R110). -/
def peakCfg (p : Params) (s : Snapshot) (fs : Word) (b : Fin 5) : PeakCfg where
  coef := designPeak p fs s.freq[b] s.q[b] s.gain[b]
  byp := s.byp.getLsbD (b.val + 1)

/-- `designSnapshot(snap, fs)` (R110). Every set is computed whatever the bypass bits say. -/
def designSnapshot (p : Params) (s : Snapshot) (fs : Word) : ChainCfg where
  lowCut := cutCfg p .low fs s.lcFreq s.lcSlope (s.byp.getLsbD 0)
  peak := #v[peakCfg p s fs 0, peakCfg p s fs 1, peakCfg p s fs 2, peakCfg p s fs 3,
    peakCfg p s fs 4]
  highCut := cutCfg p .high fs s.hcFreq s.hcSlope (s.byp.getLsbD 6)

end Sys2Proof.Machine
end

