-- ==== Sys2Proof/Machine/State.lean ====
section
/-!
DEFINITION. CORE's state as plain data (10_state.md), the two ports and the schedule the agents act
through (R4, R50, R59), the state after reset (R37), and the reasons a step could stop.
-/

namespace Sys2Proof.Machine

/-- What stands at CORE's two ports, and which agent moves next. Only `held` belongs to CORE (a
control-port write that is holding, R14, R200); the rest is the outside world's (log entries 1-3).
* `ctlIn`: the control agent's requests not yet performed, in issue order (R58).
* `smpIn`: the sample agent's input samples not yet processed, in order (R72).
* `held`: the word of a write to CMD that is holding.
* `ctlOut`: every RDATA word returned so far, oldest first (R71).
* `smpOut`: every output sample Y returned so far, oldest first (R72).
* `turns`: the schedule, the total order of the agents' steps to come (R59).
* `tick`: how many turns were taken from the free value after the schedule ran out. -/
structure Ports where
  ctlIn : List (BitVec 43)
  smpIn : List Word
  held : Option Word
  ctlOut : List Word
  smpOut : List Word
  turns : List Turn
  tick : Nat
  deriving DecidableEq, Repr

/-- The machine's state: every state element of 10_state.md, the configuration parameters of the
instance (R6), and its ports.
* `lstate`: LSTATE (R22); `pend`: PEND (R23); `err`: STATUS.CERR, SERR, IERR (R24).
* `stg`: the staging registers SLOPE, BYPASS, FS, LC_FREQ, HC_FREQ, BAND_* (R26-R29).
* `act`: the active configuration SBYP, SECBYP_LC, SECBYP_HC, COEF, ACT_FS (R30-R33).
* `st`: the delay lines (R34); `qfreq`, `qresult`: QFREQ, QRESULT (R35).
ID is a constant (R25), and BUSY and ACT_BYPASS are composed from these (R23, R36). -/
structure State where
  params : Params
  lstate : LState
  pend : Pending
  err : Errors
  stg : Staging
  act : Active
  st : Delays
  qfreq : Word
  qresult : Word
  port : Ports
  deriving DecidableEq, Repr

/-- Why a step stops with a fault. There is no reason: CORE has no traps and never stops (R240,
93_implementation_defined.md: no behaviour of CORE is a fault). Safe. -/
inductive Fault where
  deriving DecidableEq, Repr

/-- Why a step is refused. -/
inductive Refusal where
  /-- An instruction that has no meaning in this model, by its mnemonic. Raised only by an arm of
  `exec`; no arm does. Safe. -/
  | notModelled (mnemonic : String)
  deriving DecidableEq, Repr

/-- The outcome of a step of CORE. -/
abbrev Result := Host.Outcome State Fault Refusal

/-- No pending commit (R37). -/
def Pending.empty : Pending where
  lowCut := none
  peak := Vector.replicate 5 none
  highCut := none

/-- No error bit set (R37). -/
def Errors.clear : Errors := ⟨false, false, false⟩

/-- The staging registers at reset: all +0.0, slope codes 0, BYPASS 0x7F (R37). -/
def Staging.reset : Staging where
  lcSlope := 0#4
  hcSlope := 0#4
  bypass := 0x7F#7
  fs := zero32
  lcFreq := zero32
  hcFreq := zero32
  bandFreq := Vector.replicate 5 zero32
  bandGain := Vector.replicate 5 zero32
  bandQ := Vector.replicate 5 zero32

/-- The active configuration at reset: everything bypassed, every value +0.0 (R37). -/
def Active.reset : Active where
  sbyp := Vector.replicate 7 true
  secLow := Vector.replicate 4 true
  secHigh := Vector.replicate 4 true
  coef := Vector.replicate 13 Coefs.zero
  fs := zero32

/-- Ports with nothing offered, nothing held, nothing returned and no schedule. -/
def Ports.empty : Ports where
  ctlIn := []
  smpIn := []
  held := none
  ctlOut := []
  smpOut := []
  turns := []
  tick := 0

/-- The machine right after reset (R37, R271), with the default parameters of R6. -/
def State.reset : State where
  params := Params.default
  lstate := .unprepared
  pend := Pending.empty
  err := Errors.clear
  stg := Staging.reset
  act := Active.reset
  st := Delays.zero
  qfreq := zero32
  qresult := zero32
  port := Ports.empty

end Sys2Proof.Machine
end

