-- ==== Sys2Proof/Machine/Flags.lean ====
section
/-!
DEFINITION. STATUS: its sticky error bits, BUSY, and the word a read composes (R24, R223). CORE has
no other flags: no datapath operation writes one (R11, R24).
-/

namespace Sys2Proof.Machine

/-- Is any commit pending? -/
def Pending.any (p : Pending) : Bool :=
  p.lowCut.isSome || bandIxs.any (fun b => p.peak[b].isSome) || p.highCut.isSome

/-- BUSY: 1 iff PEND is non-empty (R23). -/
def State.busy (s : State) : Bool := s.pend.any

/-- The error bits with one of them set; a second error of the same code leaves it set (R246). -/
def Errors.set (e : Errors) : ErrBit → Errors
  | .cerr => { e with cerr := true }
  | .serr => { e with serr := true }
  | .ierr => { e with ierr := true }

/-- `set_error(E)`: sets sticky bit E of STATUS and changes nothing else (R14). CORE takes no
exception: this is all that recording an error does (R240, R244, R245). -/
def State.setError (b : ErrBit) (s : State) : State := { s with err := s.err.set b }

/-- The error bits after a write of `w` to STATUS: bit 8 clears CERR, bit 9 SERR, bit 10 IERR, and
a 0 bit leaves its error bit (R223). -/
def Errors.writeOneToClear (e : Errors) (w : Word) : Errors where
  cerr := e.cerr && !w.getLsbD 8
  serr := e.serr && !w.getLsbD 9
  ierr := e.ierr && !w.getLsbD 10

/-- The word a read of STATUS returns (R223):
`{21'b0, IERR, SERR, CERR, 5'b0, BUSY, LSTATE[1:0]}`. -/
def State.statusWord (s : State) : Word :=
  0#21 ++ BitVec.ofBool s.err.ierr ++ BitVec.ofBool s.err.serr ++ BitVec.ofBool s.err.cerr
    ++ 0#5 ++ BitVec.ofBool s.busy ++ s.lstate.code

end Sys2Proof.Machine
end

