-- ==== Sys2Proof/Machine/Operands.lean ====
section
/-!
DEFINITION. The operand forms: the register a word offset names (R51), what a read of it returns and
what a write to it stores (R222-R229), and the composed words SLOPE, BYPASS and ACT_BYPASS.
-/

namespace Sys2Proof.Machine

/-- A value of a coefficient set by its index in the register map: 0 b0, 1 b1, 2 b2, 3 a1, 4 a2
(R51). -/
inductive CoefIx where
  | b0
  | b1
  | b2
  | a1
  | a2
  deriving DecidableEq, Repr

/-- A register of the map of R51; `reserved` stands for every other offset (R52). -/
inductive Reg where
  | id
  | status
  | cmd
  | slope
  | bypass
  | fs
  | lcFreq
  | hcFreq
  | bandFreq (b : Fin 5)
  | bandGain (b : Fin 5)
  | bandQ (b : Fin 5)
  | qfreq
  | qresult
  | actBypass
  | actFs
  | coef (j : Fin 13) (m : CoefIx)
  | st1 (j : Fin 13)
  | st2 (j : Fin 13)
  | reserved
  deriving DecidableEq, Repr

/-- The registers at byte offsets 0x000-0x01C, by word offset (R51). -/
def headReg : Nat → Reg
  | 0 => .id
  | 1 => .status
  | 2 => .cmd
  | 3 => .slope
  | 4 => .bypass
  | 5 => .fs
  | 6 => .lcFreq
  | 7 => .hcFreq
  | _ => .reserved

/-- The registers at byte offsets 0x070-0x07C, by word offset from 0x070 (R51). -/
def queryReg : Nat → Reg
  | 0 => .qfreq
  | 1 => .qresult
  | 2 => .actBypass
  | 3 => .actFs
  | _ => .reserved

/-- A band register by its word offset within the band's 0x10 bytes (R51); 0x02C + 0x10*b is
reserved. -/
def bandReg (b : Fin 5) : Nat → Reg
  | 0 => .bandFreq b
  | 1 => .bandGain b
  | 2 => .bandQ b
  | _ => .reserved

/-- A coefficient register by its index m within the slot's 0x20 bytes (R51); m = 5..7 is
reserved. -/
def coefReg (j : Fin 13) : Nat → Reg
  | 0 => .coef j .b0
  | 1 => .coef j .b1
  | 2 => .coef j .b2
  | 3 => .coef j .a1
  | 4 => .coef j .a2
  | _ => .reserved

/-- The register at a word offset (R51): the bands at 0x020 + 0x10*b, the coefficients at
0x100 + 0x20*j + 4*m, the delay lines at 0x300 + 8*j and 0x304 + 8*j. -/
def regAt (waddr : WAddr) : Reg :=
  let w := waddr.toNat
  if w < 8 then headReg w
  else if h : w < 28 then bandReg ⟨(w - 8) / 4, by omega⟩ ((w - 8) % 4)
  else if w < 32 then queryReg (w - 28)
  else if w < 64 then .reserved
  else if h : w < 168 then coefReg ⟨(w - 64) / 8, by omega⟩ ((w - 64) % 8)
  else if w < 192 then .reserved
  else if h : w < 218 then
    if (w - 192) % 2 = 0 then .st1 ⟨(w - 192) / 2, by omega⟩ else .st2 ⟨(w - 192) / 2, by omega⟩
  else .reserved

/-- A value of a coefficient set. -/
def CoefSet.get {α : Type} (c : CoefSet α) : CoefIx → α
  | .b0 => c.b0
  | .b1 => c.b1
  | .b2 => c.b2
  | .a1 => c.a1
  | .a2 => c.a2

/-- Flags as a number, the first one bit 0. -/
def flagsNat : List Bool → Nat
  | [] => 0
  | f :: fs => f.toNat + 2 * flagsNat fs

/-- The section bypass flags of a bank (R31, R145). -/
def Active.secbyp (a : Active) : Bank → Vector Bool 4
  | .low => a.secLow
  | .high => a.secHigh

/-- ACT_BYPASS (R36): SBYP in bits 6:0, SECBYP_LC in 11:8, SECBYP_HC in 19:16. -/
def Active.bypassWord (a : Active) : Word :=
  BitVec.ofNat 32
    (flagsNat a.sbyp.toList + 2 ^ 8 * flagsNat a.secLow.toList + 2 ^ 16 * flagsNat a.secHigh.toList)

/-- SLOPE as a read returns it (R225): `{20'b0, HC_SLOPE, 4'b0, LC_SLOPE}`. -/
def Staging.slopeWord (g : Staging) : Word := 0#20 ++ g.hcSlope ++ 0#4 ++ g.lcSlope

/-- The ID word, ASCII "TMEQ" (R25). -/
def idWord : Word := 0x544D4551#32

/-- `REG[r]`: the word a read of register `r` returns (R222-R229). A read has no side effect
(R56). -/
def State.readReg (s : State) : Reg → Word
  | .id => idWord
  | .status => s.statusWord
  | .cmd => 0#32
  | .slope => s.stg.slopeWord
  | .bypass => s.stg.bypass.setWidth 32
  | .fs => s.stg.fs
  | .lcFreq => s.stg.lcFreq
  | .hcFreq => s.stg.hcFreq
  | .bandFreq b => s.stg.bandFreq[b]
  | .bandGain b => s.stg.bandGain[b]
  | .bandQ b => s.stg.bandQ[b]
  | .qfreq => s.qfreq
  | .qresult => s.qresult
  | .actBypass => s.act.bypassWord
  | .actFs => s.act.fs
  | .coef j m => s.act.coef[j].get m
  | .st1 j => s.st[j].s1
  | .st2 j => s.st[j].s2
  | .reserved => 0#32

/-- `REG[r] <- w` (R222-R229): staging registers and QFREQ store the word, STATUS clears the error
bits written with 1, and a write to a read-only or reserved register is ignored. A write to CMD is a
command and never comes here (R75, R224). -/
def State.writeReg (s : State) (w : Word) : Reg → State
  | .id => s
  | .status => { s with err := s.err.writeOneToClear w }
  | .cmd => s
  | .slope =>
    { s with stg := { s.stg with lcSlope := w.extractLsb' 0 4, hcSlope := w.extractLsb' 8 4 } }
  | .bypass => { s with stg := { s.stg with bypass := w.extractLsb' 0 7 } }
  | .fs => { s with stg := { s.stg with fs := w } }
  | .lcFreq => { s with stg := { s.stg with lcFreq := w } }
  | .hcFreq => { s with stg := { s.stg with hcFreq := w } }
  | .bandFreq b => { s with stg := { s.stg with bandFreq := s.stg.bandFreq.set b w } }
  | .bandGain b => { s with stg := { s.stg with bandGain := s.stg.bandGain.set b w } }
  | .bandQ b => { s with stg := { s.stg with bandQ := s.stg.bandQ.set b w } }
  | .qfreq => { s with qfreq := w }
  | .qresult => s
  | .actBypass => s
  | .actFs => s
  | .coef _ _ => s
  | .st1 _ => s
  | .st2 _ => s
  | .reserved => s

end Sys2Proof.Machine
end

