-- ==== Sys2Proof/Machine/Magnitude.lean ====
section
/-!
DEFINITION. The magnitude response of the active chain (R165) and the configuration function MAG
(R168).

Property M3 asks for the exact response's infinities and NaNs. They are decided here by integer
arithmetic: a section's numerator or denominator vanishes at `w = 2*pi*f/ACT_FS` only where
`cos w` is rational, which happens at the five ratios `f/ACT_FS` of `twoCos`, or when all of its
values are 0 (log entry 12).
-/

namespace Sys2Proof.Machine

/-- Is slot `j` active: its stage's SBYP is 0 and, in a cut bank, its SECBYP bit is 0 (R165)? -/
def Active.slotActive (a : Active) (j : Fin 13) : Bool :=
  if h : j.val < 4 then !a.sbyp[0] && !a.secLow[j.val]
  else if h : j.val < 9 then !a.sbyp[j.val - 3]
  else !a.sbyp[6] && !a.secHigh[j.val - 9]

/-- The coefficient sets of the active slots, in increasing `j` (R165, R168). -/
def Active.activeCoefs (a : Active) : List Coefs :=
  (slotIxs.filter a.slotActive).map (fun j => a.coef[j])

/-! ### The infinities of the exact response (R165, R168 M3) -/

/-- A finite word's value in units of `2^-149`, with its sign. -/
def units32 (w : Word) : Int :=
  match val32 w with
  | .fin s m => signedMag s m
  | .inf _ => 0
  | .nan => 0

/-- `2 cos (2*pi*f/fs)` where it is a whole number: at `f/fs` = 0, 1/6, 1/4, 1/3 and 1/2, for `f`
and `fs` in the same units. Between 0 and 1/2 it is rational nowhere else. -/
def twoCos (f fs : Int) : Option Int :=
  if f = 0 then some 2
  else if 6 * f = fs then some 1
  else if 4 * f = fs then some 0
  else if 3 * f = fs then some (-1)
  else if 2 * f = fs then some (-2)
  else none

/-- Is `x0 + x1*e^{-jw} + x2*e^{-2jw}` zero, given `2 cos w` where it is whole? On the real axis
(`cos w = 1` or `-1`) the sum decides; elsewhere real and imaginary part give `x0 = x2` and
`x1 = -2 x2 cos w`. -/
def vanishes (x0 x1 x2 : Int) : Option Int → Bool
  | some t =>
    if t = 2 ∨ t = -2 then decide (2 * x0 + t * x1 + 2 * x2 = 0)
    else decide (x0 = x2) && decide (x1 + t * x2 = 0)
  | none => decide (x0 = 0) && decide (x1 = 0) && decide (x2 = 0)

/-- What kind of extended real a response is. -/
inductive ExtKind where
  | finite
  | posInf
  | negInf
  | nan
  deriving DecidableEq, Repr

/-- The kind of a sum (R165): `-inf` with no `+inf` is `-inf`, and `+inf` with `-inf` is NaN. -/
def ExtKind.add : ExtKind → ExtKind → ExtKind
  | .nan, _ => .nan
  | _, .nan => .nan
  | .finite, k => k
  | k, .finite => k
  | .posInf, .posInf => .posInf
  | .negInf, .negInf => .negInf
  | .posInf, .negInf => .nan
  | .negInf, .posInf => .nan

/-- 1.0 in units of `2^-149`, the implicit `a0`. -/
def oneUnits : Int := 2 ^ 149

/-- The kind of `dB_j(w)` (R165): a zero numerator gives `-inf`, a zero denominator `+inf`, `0/0`
NaN. -/
def sectionKind (tc : Option Int) (c : Coefs) : ExtKind :=
  match vanishes (units32 c.b0) (units32 c.b1) (units32 c.b2) tc,
      vanishes oneUnits (units32 c.a1) (units32 c.a2) tc with
  | true, true => .nan
  | true, false => .negInf
  | false, true => .posInf
  | false, false => .finite

/-- The kind of `E(f)` (R165). -/
def responseKind (a : Active) (f : Word) : ExtKind :=
  a.activeCoefs.foldl
    (fun k c => k.add (sectionKind (twoCos (units32 f) (units32 a.fs)) c)) .finite

/-! ### The response, over any arithmetic -/

variable {α : Type} (A : Arith α)

/-- `|x0 + x1*e^{-jw} + x2*e^{-2jw}|`, from its real and imaginary parts (R165). -/
def polyAbs (w x0 x1 x2 : α) : α :=
  let w2 := A.mul (A.nat 2) w
  let re := A.add (A.add x0 (A.mul x1 (A.cos w))) (A.mul x2 (A.cos w2))
  let im := A.add (A.mul x1 (A.sin w)) (A.mul x2 (A.sin w2))
  A.sqrt (A.add (A.mul re re) (A.mul im im))

/-- `dB_j(w) = 20*log10(|numerator| / |denominator|)` (R165). -/
def sectionDb (w : α) (c : CoefSet α) : α :=
  A.mul (A.nat 20)
    (A.log10 (A.div (polyAbs A w c.b0 c.b1 c.b2) (polyAbs A w (A.nat 1) c.a1 c.a2)))

/-- `E(f)`, summed in increasing `j` (R165, R168). -/
def responseDb (w : α) (cs : List (CoefSet α)) : α :=
  cs.foldl (fun e c => A.add e (sectionDb A w c)) (A.nat 0)

/-! ### MAG (R168) -/

/-- The reference profile: `E(f)` in binary64, rounded once to binary32 (R168, log entry 11). -/
@[irreducible] def referenceMag (a : Active) (f : Word) : Word :=
  rnd32 (responseDb rf64 (angular rf64 (widen f) (widen a.fs))
    (a.activeCoefs.map (fun c => c.map widen)))

/-- Does R165 define the response: `ACT_FS` is finite and positive, and the active coefficients have
real values? -/
def Active.responseStated (a : Active) : Bool :=
  validFs a.fs && a.activeCoefs.all Coefs.finite

/-- MAG where the exact response is finite, which M4 makes a finite value (R168). The reference
profile's evaluation, where that is finite; where a numerator or a denominator that is not zero
cancels to 0 in binary64, so that the evaluation is an infinity or a NaN and cannot meet M4, the
value is free and finite (log entry 24). Another profile is a free finite value (log entry 11). -/
def finiteMag (p : Params) (a : Active) (f : Word) : Word :=
  match p.mag with
  | .reference =>
    if isFinite32 (referenceMag a f) then referenceMag a f else toFinite (Config.otherMag p a f)
  | .other _ => toFinite (Config.otherMag p a f)

/-- MAG (R168): the empty sum gives exactly +0.0 (M2), an infinite or NaN response its own pattern
(M3), and a finite one the configured profile's value. -/
def magOf (p : Params) (a : Active) (f : Word) : Word :=
  if a.activeCoefs.isEmpty then zero32
  else if a.responseStated then
    match responseKind a f with
    | .negInf => negInf32
    | .posInf => posInf32
    | .nan => nan32
    | .finite => finiteMag p a f
  else Config.unstatedMag p a f

/-- `f <= fs/2` over the reals (R166, R169); false when either is a NaN. -/
def leHalf (f fs : Word) : Bool :=
  match val32 f, val32 fs with
  | .fin s m, .fin t n => decide (2 * signedMag s m ≤ signedMag t n)
  | x, y => x.le y

/-- Is the query frequency accepted: finite and `0 <= f <= ACT_FS/2` (R169)? -/
def queryFreqOk (f fs : Word) : Bool := isFinite32 f && le32 zero32 f && leHalf f fs

end Sys2Proof.Machine
end

