-- ==== Sys2Proof/Machine/Ops.lean ====
section
/-!
DEFINITION. The operations the transactions share: the biquad step (R132) and the chain (R146,
R161), CAPTURE (R182), CONFIGURE and APPLY (R147, R184), COMMIT (R183), the common command entry
(R200), and the reset event (R270). Recording an error is `State.setError` (Machine/Flags.lean);
CORE takes no exception and returns from none (R240, R245, R246).
-/

namespace Sys2Proof.Machine

/-! ### The sample path -/

/-- The section's per-sample equations, transposed direct form II, in the order of R132, over any
arithmetic: from `(s1, s2)` and `x` the output `y` and the new `(s1, s2)`. -/
def biquadOver {α : Type} (add sub mul : α → α → α) (c : CoefSet α) (s1 s2 x : α) : α × α × α :=
  let p0 := mul c.b0 x
  let y := add p0 s1
  let p1 := mul c.b1 x
  let p2 := mul c.a1 y
  let t := sub p1 p2
  let n1 := add t s2
  let p3 := mul c.b2 x
  let p4 := mul c.a2 y
  let n2 := sub p3 p4
  (y, n1, n2)

/-- BIQUAD: one sample through a section in binary32, each line rounded before the next (R132). -/
def biquad (c : Coefs) (d : Delay) (x : Word) : Word × Delay :=
  let r := biquadOver add32 sub32 mul32 c d.s1 d.s2 x
  (r.1, ⟨r.2.1, r.2.2⟩)

/-- `BIQUAD(j, x)` on the sample and the delay lines: reads `COEF[j]` and `ST[j]`, writes `ST[j]`
(R132). -/
def Active.runSlot (a : Active) (j : Fin 13) (v : Word × Delays) : Word × Delays :=
  let r := biquad a.coef[j] v.2[j] v.1
  (r.1, v.2.set j r.2)

/-- `CUTSTAGE(B, x)`: the sections not bypassed, in increasing `i` (R146). -/
def Active.cutStage (a : Active) (B : Bank) (v : Word × Delays) : Word × Delays :=
  sectionIxs.foldl (fun v i => if (a.secbyp B)[i] then v else a.runSlot (B.slot i) v) v

/-- A cut stage in the chain: skipped when its SBYP is 1, whatever its section flags say (R152,
R161). -/
def Active.cutStep (a : Active) (B : Bank) (v : Word × Delays) : Word × Delays :=
  if a.sbyp[B.stage] then v else a.cutStage B v

/-- A peak stage in the chain: skipped when its SBYP is 1, else `BIQUAD(4 + b, x)` (R161, R162). -/
def Active.peakStep (a : Active) (v : Word × Delays) (b : Fin 5) : Word × Delays :=
  if a.sbyp[peakStage b] then v else a.runSlot (peakSlot b) v

/-- `CHAIN(x)`: LowCut, the five peaks, HighCut, in this fixed order (R161). -/
def Active.chain (a : Active) (x : Word) (st : Delays) : Word × Delays :=
  a.cutStep .high (bandIxs.foldl a.peakStep (a.cutStep .low (x, st)))

/-! ### Installing a configuration -/

/-- Write the section flags of a bank (R31, R145). -/
def Active.setSecbyp (a : Active) (flags : Vector Bool 4) : Bank → Active
  | .low => { a with secLow := flags }
  | .high => { a with secHigh := flags }

/-- `COEF[slot_B(i)] <- c; SECBYP_B[i] <- 0` (R147). -/
def Active.installSection (a : Active) (B : Bank) (i : Fin 4) (c : Coefs) : Active :=
  ({ a with coef := a.coef.set (B.slot i) c }).setSecbyp ((a.secbyp B).set i false) B

/-- Install the sets of a cut configuration into sections `i`, `i+1`, ... of a bank (R147). A bank
has four sections, and a configuration four sets at the most (R148). -/
def Active.installSections (a : Active) (B : Bank) : Nat → List Coefs → Active
  | _, [] => a
  | i, c :: cs =>
    if h : i < 4 then (a.installSection B ⟨i, h⟩ c).installSections B (i + 1) cs else a

/-- `CONFIGURE(B, cut)`: bypass all sections, install sections `0..n-1` and un-bypass them, then
write the stage's flag (R147). -/
def Active.configure (a : Active) (B : Bank) (c : CutCfg) : Active :=
  let a1 := a.setSecbyp (Vector.replicate 4 true) B
  let a2 := a1.installSections B 0 c.coefs
  { a2 with sbyp := a2.sbyp.set B.stage c.byp }

/-- APPLY for a peak band: install its coefficients and its bypass flag (R184). -/
def Active.applyPeak (a : Active) (b : Fin 5) (c : PeakCfg) : Active :=
  { a with coef := a.coef.set (peakSlot b) c.coef, sbyp := a.sbyp.set (peakStage b) c.byp }

/-- `for k in 0..6: APPLY(k, cfg[k])` (R184, R202). -/
def Active.applyChain (a : Active) (c : ChainCfg) : Active :=
  (bandIxs.foldl (fun a b => a.applyPeak b c.peak[b]) (a.configure .low c.lowCut)).configure
    .high c.highCut

/-- `PEND <- { k -> cfg[k] | k in 0..6 }` (R180). -/
def Pending.ofChain (c : ChainCfg) : Pending where
  lowCut := some c.lowCut
  peak := c.peak.map some
  highCut := some c.highCut

/-- Is a stage in `dom(PEND)`? -/
def Pending.has (p : Pending) : Stage → Bool
  | .lowCut => p.lowCut.isSome
  | .peak b => p.peak[b].isSome
  | .highCut => p.highCut.isSome

/-- `dom(PEND)`, in stage order. -/
def Pending.dom (p : Pending) : List Stage := stages.filter p.has

/-- `PEND without k`. -/
def Pending.without (p : Pending) : Stage → Pending
  | .lowCut => { p with lowCut := none }
  | .peak b => { p with peak := p.peak.set b none }
  | .highCut => { p with highCut := none }

/-- `APPLY(k, PEND[k])` on the active configuration (R184); a stage that is not pending changes
nothing. -/
def Active.applyPending (a : Active) (p : Pending) : Stage → Active
  | .lowCut => match p.lowCut with
    | some c => a.configure .low c
    | none => a
  | .peak b => match p.peak[b] with
    | some c => a.applyPeak b c
    | none => a
  | .highCut => match p.highCut with
    | some c => a.configure .high c
    | none => a

/-- COMMIT of stage `k`: install its pending configuration and remove it from PEND (R183). It writes
no delay line. -/
def State.commitStage (s : State) (k : Stage) : State :=
  { s with act := s.act.applyPending s.pend k, pend := s.pend.without k }

/-- The stage a commit turn installs: the pick, taken modulo the number of pending stages, selects
one of them. Every pending stage is selected by some pick, so the choice is free (R183, R186,
log entry 5). -/
def Pending.picked (p : Pending) (pick : Nat) : Option Stage := p.dom[pick % p.dom.length]?

/-- One step of the commit agent (R183): enabled when PEND is non-empty; otherwise nothing
happens. -/
def State.commit (s : State) (pick : Nat) : State :=
  match s.pend.picked pick with
  | some k => s.commitStage k
  | none => s

/-! ### Snapshots and commands -/

/-- `CAPTURE()`: every staging register of the snapshot, in one step (R182), which is the step in
which the capturing command completes (log entry 23). -/
def Staging.capture (g : Staging) : Snapshot where
  freq := g.bandFreq
  gain := g.bandGain
  q := g.bandQ
  lcFreq := g.lcFreq
  hcFreq := g.hcFreq
  lcSlope := g.lcSlope
  hcSlope := g.hcSlope
  byp := g.bypass

/-- The common command entry (R200): while BUSY = 1 the write of `w` to CMD holds, which changes no
state element and leaves the write to be retried; otherwise the command takes effect. -/
def State.command (s : State) (w : Word) (effect : State → State) : Result :=
  if s.busy then .next { s with port := { s.port with held := some w } } else .next (effect s)

/-- A read request returns one word to the control agent (R71). -/
def State.returnData (s : State) (w : Word) : State :=
  { s with port := { s.port with ctlOut := s.port.ctlOut ++ [w] } }

/-- A sample transaction returns one output word (R72). -/
def State.returnSample (s : State) (y : Word) : State :=
  { s with port := { s.port with smpOut := s.port.smpOut ++ [y] } }

/-- The reset event (R270): every state element takes its value of R37, every pending commit is
abandoned and a holding write is dropped. The configuration is fixed for the instance (R6), and what
the agents have yet to issue and have received is theirs (log entry 16). -/
def State.resetEvent (s : State) : State :=
  { State.reset with params := s.params, port := { s.port with held := none } }

end Sys2Proof.Machine
end

