-- ==== Sys2Proof/Machine/Chain.lean ====
section
/-!
DEFINITION. The channel filter chain: PROCESS and CMD_QUERY (43_channel_chain.md).
-/

namespace Sys2Proof.Machine

/-- QUERY after the command entry (R166): SERR in a lifecycle state that does not admit it, the
canonical NaN for a frequency outside `[0, ACT_FS/2]`, else MAG of the active configuration. -/
def State.query (s : State) : State :=
  if s.lstate.isReady then
    if queryFreqOk s.qfreq s.act.fs then { s with qresult := magOf s.params s.act s.qfreq }
    else { s with qresult := nan32 }
  else s.setError .serr

/-- CMD_QUERY (R166). -/
def execCmdQuery (s : State) : Result := s.command 0x00000005#32 State.query

/-- A sample filtered by the chain, with the delay lines it leaves (R160, R161). -/
def State.filterSample (s : State) (x : Word) : State :=
  let r := s.act.chain x s.st
  { s with lstate := .processing, st := r.2 }.returnSample r.1

/-- PROCESS (R160): the sample is filtered in PREPARED and PROCESSING; otherwise it passes through
unchanged and SERR is set. It never holds and never stalls. -/
def execProcess (x : Word) (s : State) : Result :=
  if s.lstate.isReady then .next (s.filterSample x)
  else .next ((s.setError .serr).returnSample x)

end Sys2Proof.Machine
end

