-- ==== Sys2Proof/Machine/Lifecycle.lean ====
section
/-!
DEFINITION. The lifecycle commands NOP, PREPARE, FLUSH, RELEASE and CMD_ILLEGAL
(45_lifecycle_commands.md). Each enters through `State.command` (R200) with its own command word.
-/

namespace Sys2Proof.Machine

/-- CMD_NOP (R201). -/
def execCmdNop (s : State) : Result := s.command 0x00000000#32 id

/-- What an accepted PREPARE installs (R202). -/
def State.prepareWith (s : State) (fs : Word) (snap : Snapshot) : State :=
  let a := { s.act with fs := fs }
  { s with
    act := a.applyChain (designSnapshot s.params snap fs)
    st := Delays.zero
    lstate := .prepared }

/-- PREPARE after the command entry (R202): an invalid FS, then an invalid snapshot, is a
configuration error and changes nothing else (R243). A PREPARE that held reads FS and captures in
the step in which it completes (log entry 23). -/
def State.prepare (s : State) : State :=
  if validFs s.stg.fs then
    if validSnap s.params s.stg.capture then s.prepareWith s.stg.fs s.stg.capture
    else s.setError .cerr
  else s.setError .cerr

/-- CMD_PREPARE (R202). -/
def execCmdPrepare (s : State) : Result := s.command 0x00000001#32 State.prepare

/-- FLUSH after the command entry: every delay line is put at rest (R203). -/
def State.flush (s : State) : State := { s with st := Delays.zero }

/-- CMD_FLUSH (R203). -/
def execCmdFlush (s : State) : Result := s.command 0x00000003#32 State.flush

/-- RELEASE after the command entry (R204): an error in UNPREPARED. -/
def State.release (s : State) : State :=
  match s.lstate with
  | .unprepared => s.setError .serr
  | .prepared => { s with lstate := .released }
  | .processing => { s with lstate := .released }
  | .released => { s with lstate := .released }

/-- CMD_RELEASE (R204). -/
def execCmdRelease (s : State) : Result := s.command 0x00000004#32 State.release

/-- CMD_ILLEGAL (R205): any other word written to CMD sets IERR. -/
def execCmdIllegal (rsv : BitVec 24) (op : BitVec 8) (s : State) : Result :=
  s.command (cmdWord rsv op) (State.setError .ierr)

end Sys2Proof.Machine
end

