-- ==== Sys2Proof/Machine/RegAccess.lean ====
section
/-!
DEFINITION. Register access: REG_READ and REG_WRITE (46_register_access.md). Neither ever holds.
-/

namespace Sys2Proof.Machine

/-- REG_READ: return the word of the register at the offset (R220). WDATA is ignored (R70). -/
def execRegRead (waddr : WAddr) (_wdata : Word) (s : State) : Result :=
  .next (s.returnData (s.readReg (regAt waddr)))

/-- REG_WRITE: the write's effect on the register at the offset (R221). -/
def execRegWrite (waddr : WAddr) (wdata : Word) (s : State) : Result :=
  .next (s.writeReg wdata (regAt waddr))

end Sys2Proof.Machine
end

