-- ==== Sys2Proof/Machine/Update.lean ====
section
/-!
DEFINITION. The chain update protocol's command UPDATE (44_update_protocol.md). Its commits are
`State.commit` (Machine/Ops.lean).
-/

namespace Sys2Proof.Machine

/-- UPDATE after the command entry (R180): a lifecycle state that does not admit it, then an invalid
snapshot, is an error and changes nothing else (R181, R243); otherwise all seven stages, designed at
ACT_FS (R188), become pending. An UPDATE that held captures in the step in which it completes (log
entry 23). -/
def State.update (s : State) : State :=
  if s.lstate.isReady then
    if validSnap s.params s.stg.capture then
      { s with pend := Pending.ofChain (designSnapshot s.params s.stg.capture s.act.fs) }
    else s.setError .cerr
  else s.setError .serr

/-- CMD_UPDATE (R180). -/
def execCmdUpdate (s : State) : Result := s.command 0x00000002#32 State.update

end Sys2Proof.Machine
end

