-- ==== Sys2Proof/Machine/Dispatch.lean ====
section
/-!
DEFINITION. One arm for each transaction of opcode_table.json.
-/

namespace Sys2Proof.Machine

/-- The meaning of an instruction, by constructor. -/
def exec (i : Instr) (s : State) : Host.Outcome State Fault Refusal :=
  match i with
  | .regRead waddr wdata => Sys2Proof.Machine.execRegRead waddr wdata s
  | .regWrite waddr wdata => Sys2Proof.Machine.execRegWrite waddr wdata s
  | .cmdNop => Sys2Proof.Machine.execCmdNop s
  | .cmdPrepare => Sys2Proof.Machine.execCmdPrepare s
  | .cmdUpdate => Sys2Proof.Machine.execCmdUpdate s
  | .cmdFlush => Sys2Proof.Machine.execCmdFlush s
  | .cmdRelease => Sys2Proof.Machine.execCmdRelease s
  | .cmdQuery => Sys2Proof.Machine.execCmdQuery s
  | .cmdIllegal rsv op => Sys2Proof.Machine.execCmdIllegal rsv op s
  | .process x => Sys2Proof.Machine.execProcess x s

end Sys2Proof.Machine
end

