-- ==== Sys2Proof/Machine/Agents.lean ====
section
/-!
DEFINITION. The three agents (R4): what each takes from the ports when its turn comes, and one turn
of the machine.
-/

namespace Sys2Proof.Machine

/-- The next turn of the schedule, or a free one when none is listed (R59, log entry 2). -/
def State.takeTurn (s : State) : Turn × State :=
  match s.port.turns with
  | t :: ts => (t, { s with port := { s.port with turns := ts } })
  | [] => (Config.freeTurn s.port.tick, { s with port := { s.port with tick := s.port.tick + 1 } })

/-- The control agent's next request, removed from its queue. -/
def State.nextRequest (s : State) : Option (Req × State) :=
  match s.port.ctlIn with
  | r :: rs => some (r, { s with port := { s.port with ctlIn := rs } })
  | [] => none

/-- The held write, taken up again as the decoded command (R200). A PREPARE or UPDATE captures the
staging registers in the step in which it completes, so a staging write performed while it held is
captured: the model's choice between R277's sentence and R180, R200 and R221 (log entry 23). -/
def State.resumeHeld (s : State) (w : Word) : Instr × State :=
  (decodeCommand w, { s with port := { s.port with held := none } })

/-- What the control agent performs when it goes on (R58, R200, R275). With no write holding, its
next request. With a write holding: the held write once BUSY is 0; until then its next request if
that is a read or a write to another register, which never hold, while a further command waits its
turn (log entries 3, 4). A staging write performed so is captured by a PREPARE or UPDATE that is
holding, when that completes (log entry 23). -/
def State.fetchControl (s : State) : Option (Instr × State) :=
  match s.port.held with
  | none => s.nextRequest.map (fun p => (decode (.ctl p.1), p.2))
  | some w =>
    if s.busy then
      match s.nextRequest with
      | some (r, s') => if Req.isCommand r then none else some (decode (.ctl r), s')
      | none => none
    else some (s.resumeHeld w)

/-- What the control agent performs when it waits: the held write, retried (R14, R200). -/
def State.fetchRetry (s : State) : Option (Instr × State) := s.port.held.map s.resumeHeld

/-- The sample agent's next PROCESS (R72, R160). -/
def State.fetchSample (s : State) : Option (Instr × State) :=
  match s.port.smpIn with
  | x :: xs => some (decode (.smp x), { s with port := { s.port with smpIn := xs } })
  | [] => none

/-- Perform what an agent has fetched; an agent with nothing to perform leaves the state as it is. -/
def runFetched (f : Option (Instr × State)) (s : State) : Result :=
  match f with
  | some (i, s') => exec i s'
  | none => .next s

/-- One turn (R4): one atomic step of one agent, or the reset event. -/
def runTurn (t : Turn) (s : State) : Result :=
  match t with
  | .control => runFetched s.fetchControl s
  | .retry => runFetched s.fetchRetry s
  | .sample => runFetched s.fetchSample s
  | .commit pick => .next (s.commit pick)
  | .reset => .next s.resetEvent

/-- The state with a transaction put first in its agent's queue, that agent's turn next, and no
write holding (log entry 15). -/
def State.offer (s : State) : Transaction → State
  | .ctl r =>
    { s with port := { s.port with
        ctlIn := r :: s.port.ctlIn, held := none, turns := .control :: s.port.turns } }
  | .smp x =>
    { s with port := { s.port with
        smpIn := x :: s.port.smpIn, turns := .sample :: s.port.turns } }

end Sys2Proof.Machine
end

