-- ==== Sys2Proof/Machine/Step.lean ====
section
/-!
DEFINITION. One step of the machine, and how a word of opcode_table.json is placed so that the next
step performs it.
-/

namespace Sys2Proof.Machine

/-- One step: the agent whose turn it is performs one atomic step (R4, R59). -/
def step (s : State) : Host.Outcome State Fault Refusal :=
  runTurn s.takeTurn.1 s.takeTurn.2

/-- The state in which the next step performs the transaction a word of opcode_table.json stands
for; a word that stands for none changes nothing (log entry 15). -/
def State.withFetchWord (s : State) (nbits w : Nat) : State :=
  match tableTransaction nbits w with
  | some t => s.offer t
  | none => s

end Sys2Proof.Machine
end

