-- ==== Sys2Proof/Machine/Exact.lean ====
section
/-!
DEFINITION. The exact real values the spec's rules speak of (R13): the value of a binary32 word, the
design formulas and the magnitude response over the real numbers, what rounding once with
roundTiesToEven means (R9), and the accuracy properties P3 (R111) and M4 (R168) with their OPEN
bounds as arguments. Statements use these; no step does.
-/

namespace Sys2Proof.Machine

/-- The exact value of a finite pattern; 0 for an infinity or a NaN. -/
def ratOf (F : FloatFmt) : FVal → ℚ
  | .fin s m => (signedMag s m : ℚ) / 2 ^ F.unitExp
  | .inf _ => 0
  | .nan => 0

/-- The exact value of a finite binary32 word (R7, R13). -/
def rat32 (w : Word) : ℚ := ratOf .b32 (val32 w)

/-- The exact value of a finite binary64 word. -/
def rat64 (w : Double) : ℚ := ratOf .b64 (val64 w)

/-- The extended real value of a binary32 word: a real number or an infinity, none for a NaN (R12).
Infinities are `⊤` and `⊥`. -/
def extVal32 (w : Word) : Option (WithBot (WithTop ℚ)) :=
  match val32 w with
  | .nan => none
  | .inf true => some ⊥
  | .inf false => some ((⊤ : WithTop ℚ) : WithBot (WithTop ℚ))
  | .fin s m => some (((ratOf .b32 (.fin s m) : ℚ) : WithTop ℚ) : WithBot (WithTop ℚ))

/-- The least magnitude that rounds to an infinity: halfway between the largest finite binary32
value and `2^128`. -/
def overflow32 : ℚ := 2 ^ 128 - 2 ^ 103

/-- `w` is the exact value `r` rounded once to binary32 with roundTiesToEven (R9): a finite value no
other is nearer than, whose last bit is 0 if another is as near; or the infinity with `r`'s sign
when `r` overflows. -/
def RoundsTo (r : ℚ) (w : Word) : Prop :=
  if |r| < overflow32 then
    isFinite32 w = true ∧
      ∀ v : Word, isFinite32 v = true →
        |r - rat32 w| ≤ |r - rat32 v| ∧
          (|r - rat32 w| = |r - rat32 v| → rat32 v = rat32 w ∨ w.getLsbD 0 = false)
  else w = if 0 < r then posInf32 else negInf32

/-- Arithmetic over the real numbers (R13). -/
noncomputable def realArith : Arith ℝ where
  nat n := n
  pi := Real.pi
  neg x := -x
  add x y := x + y
  sub x y := x - y
  mul x y := x * y
  div x y := x / y
  min x y := x ⊓ y
  max x y := x ⊔ y
  sin := Real.sin
  cos := Real.cos
  tan := Real.tan
  tenPow g := (10 : ℝ) ^ g
  log10 x := Real.logb 10 x
  sqrt := Real.sqrt

/-- The exact real value of a binary32 word (R13). -/
noncomputable def real32 (w : Word) : ℝ := (rat32 w : ℝ)

/-- The clamp bounds of a configuration over the reals (R101). -/
noncomputable def realClamp (p : Params) : Clamp ℝ := ⟨real32 p.fMinHz, (rat64 p.nyqFrac : ℝ)⟩

/-- The clamped design frequency over the reals (R101). -/
noncomputable def exactFreq (p : Params) (fs f : Word) : ℝ :=
  clampFreq realArith (realClamp p) (real32 f) (real32 fs)

/-- The exact peak set of R105. -/
noncomputable def exactPeak (p : Params) (fs f q g : Word) : CoefSet ℝ :=
  peakDesign realArith (realClamp p) (real32 fs) (real32 f) (real32 q) (real32 g)

/-- The exact cut section of R108 and R109. -/
noncomputable def exactCut (p : Params) (kind : CutKind) (fs f : Word) (n i : Nat) : CoefSet ℝ :=
  cutDesign realArith kind (realClamp p) (real32 fs) (real32 f) n i

/-- The magnitude of a section's transfer function at `w` over the reals (R131, R165). -/
noncomputable def sectionGain (w : ℝ) (c : CoefSet ℝ) : ℝ :=
  polyAbs realArith w c.b0 c.b1 c.b2 / polyAbs realArith w 1 c.a1 c.a2

/-- `E(f)` over the reals, where it is finite (R165). -/
noncomputable def exactResponse (a : Active) (f : Word) : ℝ :=
  responseDb realArith (angular realArith (real32 f) (real32 a.fs))
    (a.activeCoefs.map (fun c => c.map real32))

/-- Every value of a binary32 set is within `tol` of the exact set's. -/
def CloseTo (tol : ℝ) (c : Coefs) (e : CoefSet ℝ) : Prop :=
  |real32 c.b0 - e.b0| ≤ tol ∧ |real32 c.b1 - e.b1| ≤ tol ∧ |real32 c.b2 - e.b2| ≤ tol ∧
    |real32 c.a1 - e.a1| ≤ tol ∧ |real32 c.a2 - e.a2| ≤ tol

/-- P3 (R111): FACTORY is accurate to `tol`. The bound FACT_TOL is OPEN, so it is an argument here
and the model assumes it nowhere (log entry 10). -/
def FactoryAccurate (p : Params) (tol : ℝ) : Prop :=
  ∀ (s : Snapshot) (fs : Word), validSnap p s = true → validFs fs = true →
    (∀ b : Fin 5, CloseTo tol (designPeak p fs s.freq[b] s.q[b] s.gain[b])
      (exactPeak p fs s.freq[b] s.q[b] s.gain[b])) ∧
    (∀ i n : Nat, i < n → n = s.lcSlope.toNat + 1 →
      CloseTo tol (designCut p .hp fs s.lcFreq n i) (exactCut p .hp fs s.lcFreq n i)) ∧
    (∀ i n : Nat, i < n → n = s.hcSlope.toNat + 1 →
      CloseTo tol (designCut p .lp fs s.hcFreq n i) (exactCut p .lp fs s.hcFreq n i))

/-- M4 (R168): where the exact response is finite, MAG gives a finite value within `tol` dB of it.
The bound MAG_TOL_DB is OPEN, so it is an argument here and the model assumes it nowhere (log entry
10); that the value is finite the model ensures (`finiteMag`, log entries 11 and 24). -/
def MagAccurate (p : Params) (tol : ℝ) : Prop :=
  ∀ (a : Active) (f : Word), a.responseStated = true → queryFreqOk f a.fs = true →
    responseKind a f = .finite →
      isFinite32 (magOf p a f) = true ∧ |real32 (magOf p a f) - exactResponse a f| ≤ tol

end Sys2Proof.Machine
end

