-- ==== Sys2Proof/Safety.lean ====
section
/-!
DEFINITION. The invariant every step keeps, the end of a run (R286), and the classes of transactions
that whole-machine statements speak of.
-/

namespace Sys2Proof.Machine

/-- The pattern of a bank's section flags with `n` active sections: bits `0..n-1` are 0, the rest 1
(R150). -/
def activePattern (n : Nat) : Vector Bool 4 :=
  #v[decide (n ≤ 0), decide (n ≤ 1), decide (n ≤ 2), decide (n ≤ 3)]

/-- A cut configuration that CONFIGURE may be given: 1 to 4 sections (R148), all values finite
(R111 P2). -/
def CutCfg.wf (c : CutCfg) : Bool :=
  decide (1 ≤ c.coefs.length) && decide (c.coefs.length ≤ 4) && c.coefs.all Coefs.finite

/-- Every pending configuration is one the factory can give (R23, R110, R111 P2). -/
def Pending.wf (p : Pending) : Bool :=
  p.lowCut.all CutCfg.wf && bandIxs.all (fun b => p.peak[b].all (fun c => c.coef.finite))
    && p.highCut.all CutCfg.wf

/-- What holds in every state of a run. -/
structure State.Inv (s : State) : Prop where
  /-- The configuration meets its constraints (R6). -/
  params : s.params.wf = true
  /-- In PREPARED and PROCESSING, ACT_FS is finite and positive (R33). -/
  actFs : s.lstate.isReady = true → validFs s.act.fs = true
  /-- Commits are pending only in PREPARED and PROCESSING (R180, R200). -/
  busyReady : s.busy = true → s.lstate.isReady = true
  /-- Every installed coefficient is finite (R111 P2). -/
  coefFinite : ∀ j : Fin 13, s.act.coef[j].finite = true
  /-- Before the first accepted PREPARE the active configuration and the delay lines are as reset
  left them (R271). -/
  unprepared : s.lstate = .unprepared → s.act = Active.reset ∧ s.st = Delays.zero
  /-- After it, each bank's active sections are the first `n`, for an `n` in 1..4 (R149, R150). -/
  sections : s.lstate ≠ .unprepared → ∀ B : Bank, ∃ n : Nat, 1 ≤ n ∧ n ≤ 4 ∧
    s.act.secbyp B = activePattern n
  /-- Pending configurations are well formed. -/
  pend : s.pend.wf = true

/-- The end of a run (R286): both agents have issued their last transaction, no write is holding and
no commit is pending. -/
def State.runOver (s : State) : Bool :=
  s.port.ctlIn.isEmpty && s.port.smpIn.isEmpty && s.port.held.isNone && !s.busy

/-- No error is recorded. -/
def State.errorFree (s : State) : Bool := s.err == Errors.clear

/-- The word a command writes to CMD (R74, R76); none for a transaction that is no command. -/
def commandWord : Instr → Option Word
  | .regRead _ _ => none
  | .regWrite _ _ => none
  | .cmdNop => some 0x00000000#32
  | .cmdPrepare => some 0x00000001#32
  | .cmdUpdate => some 0x00000002#32
  | .cmdFlush => some 0x00000003#32
  | .cmdRelease => some 0x00000004#32
  | .cmdQuery => some 0x00000005#32
  | .cmdIllegal rsv op => some (cmdWord rsv op)
  | .process _ => none

end Sys2Proof.Machine
end

