-- ==== Sys2Proof/Certificates/Slice0/Obligations.lean ====
section
/-!
DEFINITION. The statements about CORE, from the numbered rules of spec/.
-/

open Sys2Proof Sys2Proof.Machine

/-! ### Vocabulary of the statements -/

/-- The word offsets named in R51; every other one is reserved. -/
def Sys2Proof.Claims.namedOffset (w : Nat) : Prop :=
  w < 8 ∨ (8 ≤ w ∧ w < 28 ∧ w % 4 ≠ 3) ∨ (28 ≤ w ∧ w < 32) ∨
    (64 ≤ w ∧ w < 168 ∧ w % 8 < 5) ∨ (192 ≤ w ∧ w < 218)

/-- The section flags and coefficients of a bank after CONFIGURE with slope code `code`: sections
`0..code` hold their designs and are active, the others keep their coefficients and are bypassed
(R147, R149). -/
def Sys2Proof.Claims.BankInstalled (p : Params) (B : Bank) (fs f : Word) (code : BitVec 4)
    (old new : Active) : Prop :=
  ∀ i : Fin 4,
    (new.secbyp B)[i] = decide (code.toNat < i.val) ∧
      new.coef[B.slot i] =
        if i.val ≤ code.toNat then designCut p B.kind fs f (code.toNat + 1) i.val
        else old.coef[B.slot i]

/-- A bank after CONFIGURE with `c` (R147). -/
def Sys2Proof.Claims.BankApplied (B : Bank) (c : CutCfg) (old new : Active) : Prop :=
  new.sbyp[B.stage] = c.byp ∧
    ∀ i : Fin 4,
      (new.secbyp B)[i] = decide (c.coefs.length ≤ i.val) ∧
        new.coef[B.slot i] = (c.coefs[i.val]?).getD old.coef[B.slot i]

/-- Every stage of a snapshot, designed at `fs`, is installed (R110, R184). -/
def Sys2Proof.Claims.Installed (p : Params) (s : Snapshot) (fs : Word) (old new : Active) : Prop :=
  Sys2Proof.Claims.BankInstalled p .low fs s.lcFreq s.lcSlope old new ∧
    Sys2Proof.Claims.BankInstalled p .high fs s.hcFreq s.hcSlope old new ∧
    (∀ b : Fin 5, new.coef[peakSlot b] = designPeak p fs s.freq[b] s.q[b] s.gain[b]) ∧
    ∀ k : Fin 7, new.sbyp[k] = s.byp.getLsbD k.val

/-- What PROCESS reads of one stage: its bypass flag, its section flags, its coefficients. -/
def Sys2Proof.Claims.stageView (a : Active) : Stage → Bool × List Bool × List Coefs
  | .lowCut => (a.sbyp[0], a.secLow.toList, sectionIxs.map (fun i => a.coef[Bank.slot .low i]))
  | .peak b => (a.sbyp[peakStage b], [], [a.coef[peakSlot b]])
  | .highCut => (a.sbyp[6], a.secHigh.toList, sectionIxs.map (fun i => a.coef[Bank.slot .high i]))

/-- Is a word a zero of either sign? -/
def Sys2Proof.Claims.isZero (w : Word) : Prop := w = 0x00000000#32 ∨ w = 0x80000000#32

/-- A delay line of two zeros. -/
def Sys2Proof.Claims.restful (d : Delay) : Prop :=
  Sys2Proof.Claims.isZero d.s1 ∧ Sys2Proof.Claims.isZero d.s2

/-- Is a word a NaN? -/
def Sys2Proof.Claims.isNaN (w : Word) : Prop := val32 w = .nan

/-- A section's outputs over the reals for inputs `x 0, x 1, ...`, with its state after each, from
the state at rest: `(y, s1, s2)` after input `n` (R133). -/
noncomputable def Sys2Proof.Claims.exactRun (c : CoefSet ℝ) (x : ℕ → ℝ) : ℕ → ℝ × ℝ × ℝ
  | 0 => biquadOver (· + ·) (· - ·) (· * ·) c 0 0 (x 0)
  | n + 1 =>
    let r := Sys2Proof.Claims.exactRun c x n
    biquadOver (· + ·) (· - ·) (· * ·) c r.2.1 r.2.2 (x (n + 1))

/-- The encoding of LSTATE in STATUS (R22). -/
def Sys2Proof.Claims.lstateCode : LState → Nat
  | .unprepared => 0
  | .prepared => 1
  | .processing => 2
  | .released => 3

/-- One sample through a section, line by line as R132 writes it: the output and the new delay
line. -/
def Sys2Proof.Claims.sectionLines (c : Coefs) (d : Delay) (x : Word) : Word × Delay :=
  let p0 := mul32 c.b0 x
  let y := add32 p0 d.s1
  let p1 := mul32 c.b1 x
  let p2 := mul32 c.a1 y
  let t := sub32 p1 p2
  let n1 := add32 t d.s2
  let p3 := mul32 c.b2 x
  let p4 := mul32 c.a2 y
  let n2 := sub32 p3 p4
  (y, ⟨n1, n2⟩)

/-- The thirteen slots in processing order, each with whether it is skipped: by its stage's SBYP, or
in a cut bank by its section's SECBYP (R15, R145, R146, R161, R162). -/
def Sys2Proof.Claims.slotBypasses (a : Active) : List (Fin 13 × Bool) :=
  [(0, a.sbyp[0] || a.secLow[0]), (1, a.sbyp[0] || a.secLow[1]),
    (2, a.sbyp[0] || a.secLow[2]), (3, a.sbyp[0] || a.secLow[3]),
    (4, a.sbyp[1]), (5, a.sbyp[2]), (6, a.sbyp[3]), (7, a.sbyp[4]), (8, a.sbyp[5]),
    (9, a.sbyp[6] || a.secHigh[0]), (10, a.sbyp[6] || a.secHigh[1]),
    (11, a.sbyp[6] || a.secHigh[2]), (12, a.sbyp[6] || a.secHigh[3])]

/-- A finite word whose exact value lies in an inclusive range (R12, R102). -/
def Sys2Proof.Claims.Within (lo hi : ℚ) (w : Word) : Prop :=
  isFinite32 w = true ∧ lo ≤ rat32 w ∧ rat32 w ≤ hi

/-- The pattern of an infinity, by its sign bit (R9). -/
def Sys2Proof.Claims.infWord (neg : Bool) : Word := if neg then 0xFF800000#32 else 0x7F800000#32

/-- The factor P4 puts between `b1` and `b0` of a cut section (R108, R109, R111). -/
def Sys2Proof.Claims.doubling : CutKind → ℚ
  | .hp => -2
  | .lp => 2

/-- `x0 + x1*e^{-jw} + x2*e^{-2jw}` at the query's `w = 2*pi*f/fs`, as a complex number (R165). -/
noncomputable def Sys2Proof.Claims.polyAt (f fs : Word) (x0 x1 x2 : ℝ) : ℂ :=
  let w := angular realArith (real32 f) (real32 fs)
  (x0 : ℂ) + x1 * Complex.exp (-Complex.I * w) + x2 * Complex.exp (-2 * Complex.I * w)

/-- Is the numerator of some active slot's response zero at `f` (R165)? -/
def Sys2Proof.Claims.HasNull (a : Active) (f : Word) : Prop :=
  ∃ j : Fin 13, a.slotActive j = true ∧
    Sys2Proof.Claims.polyAt f a.fs (real32 a.coef[j].b0) (real32 a.coef[j].b1)
      (real32 a.coef[j].b2) = 0

/-- Is the denominator of some active slot's response zero at `f` (R165)? -/
def Sys2Proof.Claims.HasPole (a : Active) (f : Word) : Prop :=
  ∃ j : Fin 13, a.slotActive j = true ∧
    Sys2Proof.Claims.polyAt f a.fs 1 (real32 a.coef[j].a1) (real32 a.coef[j].a2) = 0

open Sys2Proof.Claims

/-! ### Encoding -/

/-- Decoding the encoding of a well-formed instruction gives it back, with every field (R70-R75). -/
def Obligations.DecodeOfEncodeIsIdentity : Prop :=
  ∀ i : Instr, i.wf = true → decode (encode i) = i

/-- Every request and every sample decodes to a well-formed instruction, and encoding that gives the
same bits: the decoder drops no bit and is unambiguous (R75). -/
def Obligations.EncodeOfDecodeIsIdentity : Prop :=
  ∀ t : Transaction, (decode t).wf = true ∧ encode (decode t) = t

/-- R75, line by line, on the bits of the request. -/
def Obligations.DecoderClassifiesByFirstMatch : Prop :=
  (∀ x : Word, decode (.smp x) = .process x) ∧
  ∀ r : Req,
    (r.getLsbD 42 = false →
      decode (.ctl r) = .regRead (r.extractLsb' 32 10) (r.extractLsb' 0 32)) ∧
    (r.getLsbD 42 = true → r.extractLsb' 32 10 = 2#10 → r.extractLsb' 8 24 = 0#24 →
      (r.extractLsb' 0 8 = 0x00#8 → decode (.ctl r) = .cmdNop) ∧
      (r.extractLsb' 0 8 = 0x01#8 → decode (.ctl r) = .cmdPrepare) ∧
      (r.extractLsb' 0 8 = 0x02#8 → decode (.ctl r) = .cmdUpdate) ∧
      (r.extractLsb' 0 8 = 0x03#8 → decode (.ctl r) = .cmdFlush) ∧
      (r.extractLsb' 0 8 = 0x04#8 → decode (.ctl r) = .cmdRelease) ∧
      (r.extractLsb' 0 8 = 0x05#8 → decode (.ctl r) = .cmdQuery)) ∧
    (r.getLsbD 42 = true → r.extractLsb' 32 10 = 2#10 →
      ¬(r.extractLsb' 8 24 = 0#24 ∧ (r.extractLsb' 0 8).toNat ≤ 5) →
      decode (.ctl r) = .cmdIllegal (r.extractLsb' 8 24) (r.extractLsb' 0 8)) ∧
    (r.getLsbD 42 = true → r.extractLsb' 32 10 ≠ 2#10 →
      decode (.ctl r) = .regWrite (r.extractLsb' 32 10) (r.extractLsb' 0 32))

/-- A few words written out from the formats of R70-R74 decode to the transactions they stand for. -/
def Obligations.WrittenOutWordsDecode : Prop :=
  decodeTableWord 43 0x00000000000 = some (.regRead 0#10 0#32) ∧
  decodeTableWord 43 0x40123456789 = some (.regWrite 1#10 0x23456789#32) ∧
  decodeTableWord 43 0x40200000000 = some .cmdNop ∧
  decodeTableWord 43 0x40200000001 = some .cmdPrepare ∧
  decodeTableWord 43 0x40200000002 = some .cmdUpdate ∧
  decodeTableWord 43 0x40200000003 = some .cmdFlush ∧
  decodeTableWord 43 0x40200000004 = some .cmdRelease ∧
  decodeTableWord 43 0x40200000005 = some .cmdQuery ∧
  decodeTableWord 43 0x40200000102 = some (.cmdIllegal 1#24 2#8) ∧
  decodeTableWord 32 0x3F800000 = some (.process 0x3F800000#32)

/-- The byte frames carry every request and every sample unchanged, and a 43-bit row's frame with a
bit above bit 42 is refused (the frame is the model's own, log entry 14). -/
def Obligations.TableFramesCarryEveryWord : Prop :=
  (∀ r : Req, decodeTableWord 43 r.toNat = some (decode (.ctl r)) ∧
    decodeTableWord 48 r.toNat = some (decode (.ctl r))) ∧
  (∀ x : Word, decodeTableWord 32 x.toNat = some (decode (.smp x))) ∧
  (∀ w : Nat, 2 ^ 43 ≤ w → decodeTableWord 43 w = none ∧ decodeTableWord 48 w = none) ∧
  ∀ w : Nat, 2 ^ 32 ≤ w → decodeTableWord 32 w = none

/-! ### Registers -/

/-- The register map of R51, at its byte offsets. -/
def Obligations.RegisterMapOffsets : Prop :=
  regAt (BitVec.ofNat 10 (0x000 / 4)) = .id ∧ regAt (BitVec.ofNat 10 (0x004 / 4)) = .status ∧
  regAt (BitVec.ofNat 10 (0x008 / 4)) = .cmd ∧ regAt (BitVec.ofNat 10 (0x00C / 4)) = .slope ∧
  regAt (BitVec.ofNat 10 (0x010 / 4)) = .bypass ∧ regAt (BitVec.ofNat 10 (0x014 / 4)) = .fs ∧
  regAt (BitVec.ofNat 10 (0x018 / 4)) = .lcFreq ∧ regAt (BitVec.ofNat 10 (0x01C / 4)) = .hcFreq ∧
  regAt (BitVec.ofNat 10 (0x070 / 4)) = .qfreq ∧ regAt (BitVec.ofNat 10 (0x074 / 4)) = .qresult ∧
  regAt (BitVec.ofNat 10 (0x078 / 4)) = .actBypass ∧
  regAt (BitVec.ofNat 10 (0x07C / 4)) = .actFs ∧
  (∀ b : Fin 5,
    regAt (BitVec.ofNat 10 ((0x020 + 0x10 * b.val) / 4)) = .bandFreq b ∧
    regAt (BitVec.ofNat 10 ((0x024 + 0x10 * b.val) / 4)) = .bandGain b ∧
    regAt (BitVec.ofNat 10 ((0x028 + 0x10 * b.val) / 4)) = .bandQ b ∧
    regAt (BitVec.ofNat 10 ((0x02C + 0x10 * b.val) / 4)) = .reserved) ∧
  (∀ j : Fin 13,
    regAt (BitVec.ofNat 10 ((0x100 + 0x20 * j.val) / 4)) = .coef j .b0 ∧
    regAt (BitVec.ofNat 10 ((0x100 + 0x20 * j.val + 4) / 4)) = .coef j .b1 ∧
    regAt (BitVec.ofNat 10 ((0x100 + 0x20 * j.val + 8) / 4)) = .coef j .b2 ∧
    regAt (BitVec.ofNat 10 ((0x100 + 0x20 * j.val + 12) / 4)) = .coef j .a1 ∧
    regAt (BitVec.ofNat 10 ((0x100 + 0x20 * j.val + 16) / 4)) = .coef j .a2 ∧
    regAt (BitVec.ofNat 10 ((0x300 + 8 * j.val) / 4)) = .st1 j ∧
    regAt (BitVec.ofNat 10 ((0x304 + 8 * j.val) / 4)) = .st2 j) ∧
  ∀ waddr : WAddr, regAt waddr = .reserved ↔ ¬namedOffset waddr.toNat

/-- R52: a reserved offset reads 0, and a write there has no effect and sets no error bit. -/
def Obligations.ReservedOffsetsReadZeroIgnoreWrites : Prop :=
  ∀ (waddr : WAddr) (w : Word) (s : State), ¬namedOffset waddr.toNat →
    exec (.regRead waddr w) s =
        .next { s with port := { s.port with ctlOut := s.port.ctlOut ++ [0x00000000#32] } } ∧
      exec (.regWrite waddr w) s = .next s

/-- REG_READ completes in every state, returns the word of the register at the offset, and changes
nothing else (R220, R71). -/
def Obligations.RegReadReturnsRegister : Prop :=
  ∀ (waddr : WAddr) (w : Word) (s : State),
    exec (.regRead waddr w) s =
      .next { s with port := { s.port with
        ctlOut := s.port.ctlOut ++ [s.readReg (regAt waddr)] } }

/-- R56: reads change no register, a write other than to CMD is idempotent and changes the reading
of no register but its own, and a write to a read-only or reserved offset is ignored. -/
def Obligations.RegisterAccessSideEffects : Prop :=
  (∀ (waddr : WAddr) (w : Word) (s t : State), exec (.regRead waddr w) s = .next t →
    ∀ r : Reg, t.readReg r = s.readReg r) ∧
  (∀ (waddr : WAddr) (w : Word) (s : State), ∃ t : State,
    exec (.regWrite waddr w) s = .next t ∧ exec (.regWrite waddr w) t = .next t ∧
      ∀ r : Reg, r ≠ regAt waddr → t.readReg r = s.readReg r) ∧
  ∀ (waddr : WAddr) (w : Word) (s : State),
    regAt waddr ∈ [Reg.id, .qresult, .actBypass, .actFs, .reserved] ∨
      (∃ j m, regAt waddr = .coef j m) ∨ (∃ j, regAt waddr = .st1 j ∨ regAt waddr = .st2 j) →
    exec (.regWrite waddr w) s = .next s

/-- R223: what a read of STATUS returns, and what a write of 1 clears. LSTATE reads 0 in UNPREPARED,
1 in PREPARED, 2 in PROCESSING and 3 in RELEASED (R22), and BUSY reads 1 iff some stage is pending
(R23). -/
def Obligations.StatusReadAndClear : Prop :=
  ∀ (w : Word) (s : State),
    (s.busy = true ↔ ∃ k : Stage, s.pend.has k = true) ∧
    (s.readReg (regAt 1#10)).toNat =
        lstateCode s.lstate + 2 ^ 2 * s.busy.toNat + 2 ^ 8 * s.err.cerr.toNat
          + 2 ^ 9 * s.err.serr.toNat + 2 ^ 10 * s.err.ierr.toNat ∧
      exec (.regWrite 1#10 w) s =
        .next { s with err :=
          { cerr := s.err.cerr && !w.getLsbD 8
            serr := s.err.serr && !w.getLsbD 9
            ierr := s.err.ierr && !w.getLsbD 10 } }

/-- SLOPE stores bits 3:0 and 11:8 and reads them back in place, BYPASS stores bits 6:0 and reads
them back, the other bits read 0, and nothing else changes (R225, R226). -/
def Obligations.SlopeAndBypassStoreTheirFields : Prop :=
  ∀ (w : Word) (s : State),
    (∃ t : State, exec (.regWrite 3#10 w) s = .next t ∧
      t = { s with stg := { s.stg with
        lcSlope := w.extractLsb' 0 4, hcSlope := w.extractLsb' 8 4 } } ∧
      (t.readReg (regAt 3#10)).toNat = w.toNat % 2 ^ 4 + 2 ^ 8 * (w.toNat / 2 ^ 8 % 2 ^ 4)) ∧
    ∃ t : State, exec (.regWrite 4#10 w) s = .next t ∧
      t = { s with stg := { s.stg with bypass := w.extractLsb' 0 7 } } ∧
      (t.readReg (regAt 4#10)).toNat = w.toNat % 2 ^ 7

/-- R227: FS, LC_FREQ, HC_FREQ, the band registers and QFREQ store every 32-bit pattern unchanged,
and nothing else changes. -/
def Obligations.WordRegistersStoreEveryPattern : Prop :=
  ∀ (waddr : WAddr) (w : Word) (s : State),
    regAt waddr ∈ [Reg.fs, .lcFreq, .hcFreq, .qfreq] ∨
      (∃ b, regAt waddr = .bandFreq b ∨ regAt waddr = .bandGain b ∨ regAt waddr = .bandQ b) →
    ∃ t : State, exec (.regWrite waddr w) s = .next t ∧ t.readReg (regAt waddr) = w ∧
      (∀ r : Reg, r ≠ regAt waddr → t.readReg r = s.readReg r) ∧
      t = { s with stg := t.stg, qfreq := t.qfreq }

/-- R222, R228: in every state ID reads 0x544D4551, the read-only registers return the active
configuration, the delay lines and the query result word for word, and a write to one is ignored; no
register write at all changes the active configuration or a delay line. A read of CMD returns 0
(R224). -/
def Obligations.ReadOnlyRegistersReturnState : Prop :=
  ∀ (waddr : WAddr) (w : Word) (s : State),
    (regAt waddr = .id → s.readReg (regAt waddr) = 0x544D4551#32 ∧
      exec (.regWrite waddr w) s = .next s) ∧
    (regAt waddr = .cmd → s.readReg (regAt waddr) = 0x00000000#32) ∧
    (∃ t : State, exec (.regWrite waddr w) s = .next t ∧ t.act = s.act ∧ t.st = s.st) ∧
    (regAt waddr = .qresult → s.readReg (regAt waddr) = s.qresult ∧
      exec (.regWrite waddr w) s = .next s) ∧
    (regAt waddr = .actBypass → s.readReg (regAt waddr) = s.act.bypassWord ∧
      exec (.regWrite waddr w) s = .next s) ∧
    (regAt waddr = .actFs → s.readReg (regAt waddr) = s.act.fs ∧
      exec (.regWrite waddr w) s = .next s) ∧
    (∀ (j : Fin 13) (m : CoefIx), regAt waddr = .coef j m →
      s.readReg (regAt waddr) =
          (match m with
          | .b0 => s.act.coef[j].b0
          | .b1 => s.act.coef[j].b1
          | .b2 => s.act.coef[j].b2
          | .a1 => s.act.coef[j].a1
          | .a2 => s.act.coef[j].a2) ∧
        exec (.regWrite waddr w) s = .next s) ∧
    (∀ j : Fin 13, regAt waddr = .st1 j →
      s.readReg (regAt waddr) = s.st[j].s1 ∧ exec (.regWrite waddr w) s = .next s) ∧
    ∀ j : Fin 13, regAt waddr = .st2 j →
      s.readReg (regAt waddr) = s.st[j].s2 ∧ exec (.regWrite waddr w) s = .next s

/-- R36: the bits of ACT_BYPASS. -/
def Obligations.ActBypassBits : Prop :=
  ∀ a : Active,
    (∀ k : Fin 7, a.bypassWord.getLsbD k.val = a.sbyp[k]) ∧
    (∀ i : Fin 4, a.bypassWord.getLsbD (8 + i.val) = a.secLow[i] ∧
      a.bypassWord.getLsbD (16 + i.val) = a.secHigh[i]) ∧
    ∀ n : Nat, n = 7 ∨ (12 ≤ n ∧ n ≤ 15) ∨ 20 ≤ n → a.bypassWord.getLsbD n = false

/-! ### Commands -/

/-- R200: while BUSY = 1 every command holds and changes no state element; nothing else ever holds;
a held write completes, as the decoded command, when BUSY = 0, and a retry before that leaves it
holding. That one write holds at a time, that it completes at the control agent's next turn, and that
it then captures the staging registers as they stand, is the model's reading (log entries 3, 4 and
23). -/
def Obligations.CommandsHoldWhileBusy : Prop :=
  (∀ (i : Instr) (w : Word) (s : State), commandWord i = some w → s.busy = true →
    exec i s = .next { s with port := { s.port with held := some w } }) ∧
  (∀ (i : Instr) (s : State), commandWord i = none →
    ∃ t, exec i s = .next t ∧ t.port.held = s.port.held) ∧
  (∀ (s : State) (w : Word) (ts : List Turn), s.port.held = some w → s.busy = false →
    s.port.turns = .control :: ts ∨ s.port.turns = .retry :: ts →
    step s = exec (decodeCommand w) { s with port := { s.port with turns := ts, held := none } }) ∧
  ∀ (s : State) (w : Word) (ts : List Turn), s.port.held = some w → s.busy = true →
    s.port.turns = .retry :: ts →
    step s = .next { s with port := { s.port with turns := ts } }

/-- R201: NOP completes with no effect, and holds like every command while BUSY = 1. -/
def Obligations.NopHasNoEffect : Prop :=
  ∀ s : State,
    (s.busy = false → exec .cmdNop s = .next s) ∧
      (s.busy = true → exec .cmdNop s = .next { s with port := { s.port with held := some 0#32 } })

/-- R202: PREPARE with an invalid FS or snapshot sets CERR and changes nothing else; otherwise it
installs all seven stages designed at FS, puts every delay line at rest, latches ACT_FS and enters
PREPARED, and changes nothing else. The snapshot's fields are the staging registers, each its own. An
FS is valid iff it is finite and positive (R103). A snapshot is valid iff each band's frequency, gain
and Q and both cut frequencies are finite and in their inclusive ranges, over the exact values, and
both slope codes are at most 3, whatever the bypass bits. -/
def Obligations.PrepareInstallsOrRejects : Prop :=
  (∀ s : State, s.busy = false →
    (validFs s.stg.fs = false ∨ validSnap s.params s.stg.capture = false →
      exec .cmdPrepare s = .next { s with err := { s.err with cerr := true } }) ∧
    (validFs s.stg.fs = true → validSnap s.params s.stg.capture = true →
      ∃ a : Active, exec .cmdPrepare s =
          .next { s with
            act := a
            st := Vector.replicate 13 ⟨0x00000000#32, 0x00000000#32⟩
            lstate := .prepared } ∧
        a.fs = s.stg.fs ∧ Installed s.params s.stg.capture s.stg.fs s.act a)) ∧
  (∀ s : State,
    (∀ b : Fin 5, s.stg.capture.freq[b] = s.readReg (.bandFreq b) ∧
      s.stg.capture.gain[b] = s.readReg (.bandGain b) ∧
      s.stg.capture.q[b] = s.readReg (.bandQ b)) ∧
    s.stg.capture.lcFreq = s.readReg .lcFreq ∧ s.stg.capture.hcFreq = s.readReg .hcFreq ∧
    s.stg.capture.lcSlope = (s.readReg .slope).extractLsb' 0 4 ∧
    s.stg.capture.hcSlope = (s.readReg .slope).extractLsb' 8 4 ∧
    (∀ k : Fin 7, s.stg.capture.byp.getLsbD k.val = (s.readReg .bypass).getLsbD k.val) ∧
    s.stg.fs = s.readReg .fs) ∧
  (∀ fs : Word, validFs fs = true ↔ isFinite32 fs = true ∧ 0 < rat32 fs) ∧
  ∀ (p : Params) (g : Snapshot), p.wf = true →
    (validSnap p g = true ↔
      (∀ b : Fin 5, Within (rat32 p.bandMin[b]) (rat32 p.bandMax[b]) g.freq[b] ∧
        Within (-rat32 p.gainMax) (rat32 p.gainMax) g.gain[b] ∧
        Within (rat32 0x3DCCCCCD#32) 10 g.q[b]) ∧
      Within (rat32 p.cutMin) (rat32 p.cutMax) g.lcFreq ∧
      Within (rat32 p.cutMin) (rat32 p.cutMax) g.hcFreq ∧
      g.lcSlope.toNat ≤ 3 ∧ g.hcSlope.toNat ≤ 3)

/-- R180: UPDATE is refused with SERR in UNPREPARED and RELEASED, with CERR on an invalid snapshot,
and otherwise makes all seven stages, designed at ACT_FS, pending, so BUSY becomes 1; nothing else
changes. -/
def Obligations.UpdateSchedulesOrRejects : Prop :=
  ∀ s : State, s.busy = false →
    (s.lstate = .unprepared ∨ s.lstate = .released →
      exec .cmdUpdate s = .next { s with err := { s.err with serr := true } }) ∧
    (s.lstate = .prepared ∨ s.lstate = .processing →
      (validSnap s.params s.stg.capture = false →
        exec .cmdUpdate s = .next { s with err := { s.err with cerr := true } }) ∧
      (validSnap s.params s.stg.capture = true →
        ∃ p : Pending, exec .cmdUpdate s = .next { s with pend := p } ∧ p.any = true ∧
          (∀ k : Stage, p.has k = true) ∧
          p = Pending.ofChain (designSnapshot s.params s.stg.capture s.act.fs)))

/-- R203: FLUSH makes every delay line (+0, +0) in every lifecycle state and changes nothing else. -/
def Obligations.FlushClearsDelayLines : Prop :=
  ∀ s : State, s.busy = false →
    exec .cmdFlush s =
      .next { s with st := Vector.replicate 13 ⟨0x00000000#32, 0x00000000#32⟩ }

/-- R204: RELEASE is refused with SERR in UNPREPARED, and enters RELEASED from every other state. -/
def Obligations.ReleaseEntersReleased : Prop :=
  ∀ s : State, s.busy = false →
    (s.lstate = .unprepared →
      exec .cmdRelease s = .next { s with err := { s.err with serr := true } }) ∧
    (s.lstate ≠ .unprepared → exec .cmdRelease s = .next { s with lstate := .released })

/-- R205: an illegal command word sets IERR and changes nothing else, in every lifecycle state. -/
def Obligations.IllegalCommandSetsIerr : Prop :=
  ∀ (rsv : BitVec 24) (op : BitVec 8) (s : State), rsv ≠ 0#24 ∨ 6 ≤ op.toNat → s.busy = false →
    exec (.cmdIllegal rsv op) s = .next { s with err := { s.err with ierr := true } }

/-- R166: QUERY is refused with SERR when not prepared, gives the canonical NaN for a frequency that
is not accepted, and else stores MAG's value; nothing but QRESULT changes. -/
def Obligations.QueryStoresMagnitude : Prop :=
  ∀ s : State, s.busy = false →
    (s.lstate = .unprepared ∨ s.lstate = .released →
      exec .cmdQuery s = .next { s with err := { s.err with serr := true } }) ∧
    (s.lstate = .prepared ∨ s.lstate = .processing →
      (queryFreqOk s.qfreq s.act.fs = false →
        exec .cmdQuery s = .next { s with qresult := 0x7FC00000#32 }) ∧
      (queryFreqOk s.qfreq s.act.fs = true →
        exec .cmdQuery s = .next { s with qresult := magOf s.params s.act s.qfreq }))

/-- R169, over the exact values: a query frequency is accepted iff it is finite and
`0 <= QFREQ <= ACT_FS/2`, for a finite ACT_FS. -/
def Obligations.QueryFrequencyRange : Prop :=
  ∀ f fs : Word, isFinite32 fs = true →
    (queryFreqOk f fs = true ↔ isFinite32 f = true ∧ 0 ≤ rat32 f ∧ rat32 f ≤ rat32 fs / 2)

/-- R170: with every stage bypassed, QUERY in PREPARED or PROCESSING stores exactly +0.0 for every
accepted frequency, under every MAG. -/
def Obligations.QueryAllBypassedIsZeroDb : Prop :=
  ∀ s : State, s.busy = false → s.lstate = .prepared ∨ s.lstate = .processing →
    (∀ k : Fin 7, s.act.sbyp[k] = true) → queryFreqOk s.qfreq s.act.fs = true →
    exec .cmdQuery s = .next { s with qresult := 0x00000000#32 }

/-- R160: PROCESS completes in every state. Not prepared, it passes the sample through, sets SERR and
changes nothing else; prepared, it returns the chain's output, writes the delay lines and enters
PROCESSING, whether or not an UPDATE is pending. -/
def Obligations.ProcessFiltersOrPassesThrough : Prop :=
  ∀ (x : Word) (s : State),
    (s.lstate = .unprepared ∨ s.lstate = .released →
      exec (.process x) s =
        .next { s with
          err := { s.err with serr := true }
          port := { s.port with smpOut := s.port.smpOut ++ [x] } }) ∧
    (s.lstate = .prepared ∨ s.lstate = .processing →
      exec (.process x) s =
        .next { s with
          lstate := .processing
          st := (s.act.chain x s.st).2
          port := { s.port with smpOut := s.port.smpOut ++ [(s.act.chain x s.st).1] } })

/-- R206: the lifecycle transitions, with the error bit where a transaction is refused. -/
def Obligations.LifecycleTransitions : Prop :=
  (∀ s : State, s.busy = false →
    ∃ t : State, exec .cmdPrepare s = .next t ∧
      if validFs s.stg.fs = true ∧ validSnap s.params s.stg.capture = true then
        t.lstate = .prepared ∧ t.err = s.err
      else t.lstate = s.lstate ∧ t.err = s.err.set .cerr) ∧
  (∀ (s : State) (x : Word),
    ∃ t : State, exec (.process x) s = .next t ∧
      if s.lstate.isReady = true then t.lstate = .processing ∧ t.err = s.err
      else t.lstate = s.lstate ∧ t.err = s.err.set .serr) ∧
  (∀ s : State, s.busy = false →
    ∃ t : State, exec .cmdRelease s = .next t ∧
      if s.lstate = .unprepared then t.lstate = .unprepared ∧ t.err = s.err.set .serr
      else t.lstate = .released ∧ t.err = s.err) ∧
  (∀ (i : Instr) (s : State), i = .cmdUpdate ∨ i = .cmdQuery → s.busy = false →
    ∃ t : State, exec i s = .next t ∧ t.lstate = s.lstate ∧
      (s.lstate.isReady = false → t.err = s.err.set .serr)) ∧
  (∀ (i : Instr) (s : State), i = .cmdNop ∨ i = .cmdFlush ∨ (∃ r o, i = .cmdIllegal r o) →
    ∃ t : State, exec i s = .next t ∧ t.lstate = s.lstate) ∧
  ∀ s : State, ∃ t : State, runTurn .reset s = .next t ∧ t.lstate = .unprepared

/-! ### Errors, and who writes what -/

/-- Which error a transaction records once it is past the command entry, by R241 and in the order of
R243: an illegal word, then a lifecycle state that does not admit it, then an invalid FS or
snapshot. -/
def Sys2Proof.Claims.rejection (i : Instr) (s : State) : Option ErrBit :=
  let ready := s.lstate = .prepared ∨ s.lstate = .processing
  match i with
  | .regRead _ _ => none
  | .regWrite _ _ => none
  | .cmdNop => none
  | .cmdFlush => none
  | .cmdIllegal _ _ => some .ierr
  | .cmdRelease => if s.lstate = .unprepared then some .serr else none
  | .cmdQuery => if ready then none else some .serr
  | .cmdUpdate =>
    if ready then if validSnap s.params s.stg.capture then none else some .cerr else some .serr
  | .cmdPrepare =>
    if validFs s.stg.fs && validSnap s.params s.stg.capture then none else some .cerr
  | .process _ => if ready then none else some .serr

/-- Every error, who raises it, in which order, and that it is precise (R241, R243, R244). A command
holds while BUSY = 1, which is no error. Past that, a rejected transaction changes no state element
but its one error bit, and a rejected PROCESS also returns its input; every other transaction leaves
the error bits alone, but for a write to STATUS. -/
def Obligations.ErrorsAreExactAndPrecise : Prop :=
  (∀ (i : Instr) (w : Word) (s : State), commandWord i = some w → s.busy = true →
    exec i s = .next { s with port := { s.port with held := some w } }) ∧
  ∀ (i : Instr) (s : State), ((commandWord i).isSome = true → s.busy = false) →
    (∀ b : ErrBit, rejection i s = some b →
      exec i s = .next { s with
        err := s.err.set b
        port := match i with
          | .process x => { s.port with smpOut := s.port.smpOut ++ [x] }
          | _ => s.port }) ∧
    (rejection i s = none → (∀ a w, i = .regWrite a w → regAt a ≠ .status) →
      ∃ t : State, exec i s = .next t ∧ t.err = s.err)

/-- R246: an error bit that is set stays set through every step, but the reset event and a write of
1 to it in STATUS. -/
def Obligations.ErrorBitsAreSticky : Prop :=
  (∀ (i : Instr) (s t : State), exec i s = .next t →
    (∀ a w, i = .regWrite a w → regAt a ≠ .status) →
    (s.err.cerr = true → t.err.cerr = true) ∧ (s.err.serr = true → t.err.serr = true) ∧
      (s.err.ierr = true → t.err.ierr = true)) ∧
  (∀ (a : WAddr) (w : Word) (s t : State), exec (.regWrite a w) s = .next t →
    (s.err.cerr = true → w.getLsbD 8 = false → t.err.cerr = true) ∧
      (s.err.serr = true → w.getLsbD 9 = false → t.err.serr = true) ∧
      (s.err.ierr = true → w.getLsbD 10 = false → t.err.ierr = true)) ∧
  ∀ (n : Nat) (s t : State), runTurn (.commit n) s = .next t → t.err = s.err

/-- Which transactions write which state element: the lifecycle state (R22), the staging registers
and QFREQ, PEND (R180), the active configuration (10_state.md section 4), QRESULT (R35), and the
configuration never. -/
def Obligations.StateElementWriters : Prop :=
  ∀ (i : Instr) (s t : State), exec i s = .next t →
    t.params = s.params ∧
    (t.lstate ≠ s.lstate → i = .cmdPrepare ∨ i = .cmdRelease ∨ ∃ x, i = .process x) ∧
    (t.stg ≠ s.stg ∨ t.qfreq ≠ s.qfreq → ∃ a w, i = .regWrite a w) ∧
    (t.pend ≠ s.pend → i = .cmdUpdate) ∧
    (t.act ≠ s.act → i = .cmdPrepare) ∧
    (t.qresult ≠ s.qresult → i = .cmdQuery)

/-- R135: a delay line changes only when its section runs for a sample, or by PREPARE, FLUSH or
reset; a slot that is not active keeps its delay line bit for bit. -/
def Obligations.DelayLineWriters : Prop :=
  (∀ (i : Instr) (s t : State) (j : Fin 13), exec i s = .next t →
    i ≠ .cmdPrepare → i ≠ .cmdFlush → ((∃ x, i = .process x) → s.act.slotActive j = false) →
    t.st[j] = s.st[j]) ∧
  ∀ (n : Nat) (s t : State), runTurn (.commit n) s = .next t → t.st = s.st

/-! ### The sample path -/

/-- The sample runs through the thirteen slots in increasing order, low-cut sections, peaks, high-cut
sections (R146, R161, R162). A slot is skipped when its stage's SBYP is 1 or, in a cut bank, its
section's SECBYP is 1; every other slot computes the lines of R132 in binary32, each rounded before
the next, on its own coefficients and delay line. The names other statements use mean this too:
`biquad` is those lines, a slot is active when it is not skipped, and the banks' and bands' slots,
stages, section flags and kinds are R15's, R145's and R151's. -/
def Obligations.ChainRunsActiveSlotsInOrder : Prop :=
  (∀ (a : Active) (x : Word) (st : Delays),
    a.chain x st =
      (slotBypasses a).foldl
        (fun v p =>
          if p.2 then v
          else
            ((sectionLines a.coef[p.1] v.2[p.1] v.1).1,
              v.2.set p.1 (sectionLines a.coef[p.1] v.2[p.1] v.1).2)) (x, st)) ∧
  (∀ (c : Coefs) (d : Delay) (x : Word), biquad c d x = sectionLines c d x) ∧
  (∀ (a : Active) (j : Fin 13), (j, !a.slotActive j) ∈ slotBypasses a) ∧
  (∀ a : Active, a.secbyp .low = a.secLow ∧ a.secbyp .high = a.secHigh) ∧
  (∀ i : Fin 4, (Bank.low.slot i).val = i.val ∧ (Bank.high.slot i).val = 9 + i.val) ∧
  (∀ b : Fin 5, (peakSlot b).val = 4 + b.val ∧ (peakStage b).val = b.val + 1) ∧
  Bank.low.stage = 0 ∧ Bank.high.stage = 6 ∧ Bank.low.kind = .hp ∧ Bank.high.kind = .lp

/-- R164: with every stage bypassed, PROCESS returns its input bit for bit, NaN patterns included,
and changes no delay line. -/
def Obligations.AllBypassedPassesSamplesThrough : Prop :=
  ∀ (x : Word) (s : State), s.lstate = .prepared ∨ s.lstate = .processing →
    (∀ k : Fin 7, s.act.sbyp[k] = true) →
    exec (.process x) s =
      .next { s with
        lstate := .processing
        port := { s.port with smpOut := s.port.smpOut ++ [x] } }

/-- With finite coefficients and a delay line of zeros, a zero sample gives a zero output and leaves
zeros, in one section (R134) and through the whole chain. -/
def Obligations.SilenceStaysSilent : Prop :=
  (∀ (c : Coefs) (d : Delay) (x : Word), c.finite = true → restful d → isZero x →
    isZero (biquad c d x).1 ∧ restful (biquad c d x).2) ∧
  ∀ (a : Active) (x : Word) (st : Delays), (∀ j : Fin 13, a.coef[j].finite = true) →
    (∀ j : Fin 13, restful st[j]) → isZero x →
    isZero (a.chain x st).1 ∧ ∀ j : Fin 13, restful (a.chain x st).2[j]

/-- A section on a sequence of samples: its outputs and the delay line it leaves. -/
def Sys2Proof.Claims.runSection (c : Coefs) : Delay → List Word → List Word × Delay
  | d, [] => ([], d)
  | d, x :: xs =>
    let r := biquad c d x
    let more := Sys2Proof.Claims.runSection c r.2 xs
    (r.1 :: more.1, more.2)

/-- Once `s1` of a delay line is a NaN, every later output is the canonical NaN and so is the state
after any sample; a NaN output leaves NaNs in both; a NaN `s2` makes the next `s1` the canonical NaN,
so it acts one sample later (R137, R10). -/
def Obligations.NaNPoisonsTheDelayLine : Prop :=
  (∀ (c : Coefs) (d : Delay) (xs : List Word), isNaN d.s1 →
    (∀ y ∈ (runSection c d xs).1, y = 0x7FC00000#32) ∧
      (xs ≠ [] → (runSection c d xs).2 = ⟨0x7FC00000#32, 0x7FC00000#32⟩)) ∧
  (∀ (c : Coefs) (d : Delay) (x : Word), isNaN (biquad c d x).1 →
    (biquad c d x).2 = ⟨0x7FC00000#32, 0x7FC00000#32⟩) ∧
  ∀ (c : Coefs) (d : Delay) (x : Word), isNaN d.s2 → (biquad c d x).2.s1 = 0x7FC00000#32

/-- R133: over exact real numbers, from rest, the section's outputs satisfy the difference equation,
and its state between samples is the two partial sums. -/
def Obligations.DifferenceEquation : Prop :=
  ∀ (c : CoefSet ℝ) (x : ℕ → ℝ),
    let y := fun n => (exactRun c x n).1
    let s1 := fun n => (exactRun c x n).2.1
    let s2 := fun n => (exactRun c x n).2.2
    y 0 = c.b0 * x 0 ∧
    y 1 = c.b0 * x 1 + c.b1 * x 0 - c.a1 * y 0 ∧
    (∀ n : ℕ, y (n + 2) =
      c.b0 * x (n + 2) + c.b1 * x (n + 1) + c.b2 * x n - c.a1 * y (n + 1) - c.a2 * y n) ∧
    s1 0 = c.b1 * x 0 - c.a1 * y 0 ∧
    (∀ n : ℕ, s1 (n + 1) =
      c.b1 * x (n + 1) - c.a1 * y (n + 1) + c.b2 * x n - c.a2 * y n) ∧
    ∀ n : ℕ, s2 n = c.b2 * x n - c.a2 * y n

/-! ### binary32 arithmetic -/

/-- On finite operands, add32, sub32 and mul32 return the exact real result rounded once with
roundTiesToEven, overflow going to infinity; with an infinite operand a result that is no NaN is the
infinity of the sign the operation gives it (R9; when it is a NaN: NaNResultsAreCanonical). -/
def Obligations.ArithmeticRoundsOnce : Prop :=
  (∀ a b : Word, isFinite32 a = true → isFinite32 b = true →
    RoundsTo (rat32 a + rat32 b) (add32 a b) ∧
    RoundsTo (rat32 a - rat32 b) (sub32 a b) ∧
    RoundsTo (rat32 a * rat32 b) (mul32 a b)) ∧
  ∀ (a b : Word) (s : Bool),
    (¬isNaN (add32 a b) → a = infWord s ∨ b = infWord s → add32 a b = infWord s) ∧
    (¬isNaN (sub32 a b) → a = infWord s ∨ b = infWord (!s) → sub32 a b = infWord s) ∧
    (¬isNaN (mul32 a b) →
      (a = infWord s → mul32 a b = infWord (s ^^ b.getLsbD 31)) ∧
      (b = infWord s → mul32 a b = infWord (a.getLsbD 31 ^^ s)))

/-- R10: a result is a NaN exactly when an operand is one or the operation is invalid, and then it
is the canonical quiet NaN. -/
def Obligations.NaNResultsAreCanonical : Prop :=
  ∀ a b : Word,
    (isNaN (add32 a b) ↔ isNaN a ∨ isNaN b ∨ ∃ s, val32 a = .inf s ∧ val32 b = .inf (!s)) ∧
    (isNaN (sub32 a b) ↔ isNaN a ∨ isNaN b ∨ ∃ s, val32 a = .inf s ∧ val32 b = .inf s) ∧
    (isNaN (mul32 a b) ↔ isNaN a ∨ isNaN b ∨
      (∃ s, val32 a = .inf s ∧ isZero b) ∨ (∃ s, val32 b = .inf s ∧ isZero a)) ∧
    (isNaN (add32 a b) → add32 a b = 0x7FC00000#32) ∧
    (isNaN (sub32 a b) → sub32 a b = 0x7FC00000#32) ∧
    (isNaN (mul32 a b) → mul32 a b = 0x7FC00000#32)

/-- The signs of zero results (R11). Of finite operands an exactly zero sum is `-0` iff both are
negative, an exactly zero difference `-0` iff the first is negative and the second is not, and
otherwise `+0`. So `x + (-x) = +0` for every finite `x`, `(-0) + (-0) = -0`, `(+0) - (+0) = +0` and
`(-0) - (+0) = -0`. A zero product carries the XOR of the signs. -/
def Obligations.ZeroResultSigns : Prop :=
  (∀ a b : Word, isFinite32 a = true → isFinite32 b = true →
    (rat32 a + rat32 b = 0 →
      add32 a b = if a.getLsbD 31 && b.getLsbD 31 then 0x80000000#32 else 0x00000000#32) ∧
    (rat32 a - rat32 b = 0 →
      sub32 a b = if a.getLsbD 31 && !b.getLsbD 31 then 0x80000000#32 else 0x00000000#32)) ∧
  (∀ x : Word, isFinite32 x = true → add32 x (x ^^^ 0x80000000#32) = 0x00000000#32) ∧
  add32 0x80000000#32 0x80000000#32 = 0x80000000#32 ∧
  sub32 0x00000000#32 0x00000000#32 = 0x00000000#32 ∧
  sub32 0x80000000#32 0x00000000#32 = 0x80000000#32 ∧
  ∀ a b : Word, isZero (mul32 a b) → (mul32 a b).getLsbD 31 = (a.getLsbD 31 ^^ b.getLsbD 31)

/-- R12: comparisons are those of the real values, infinities included, so `-0 = +0`, and false when
an operand is a NaN; a value is finite iff it is neither an infinity nor a NaN. -/
def Obligations.ComparisonsFollowRealValues : Prop :=
  ∀ a b : Word,
    (le32 a b = true ↔ ∃ x y, extVal32 a = some x ∧ extVal32 b = some y ∧ x ≤ y) ∧
    (lt32 a b = true ↔ ∃ x y, extVal32 a = some x ∧ extVal32 b = some y ∧ x < y) ∧
    (le32 a b = true ∧ le32 b a = true ↔ ∃ x, extVal32 a = some x ∧ extVal32 b = some x) ∧
    (isFinite32 a = true ↔ ∃ q : ℚ, extVal32 a = some ((q : WithTop ℚ) : WithBot (WithTop ℚ))) ∧
    (isNaN a → le32 a b = false ∧ le32 b a = false) ∧
    extVal32 0x80000000#32 = extVal32 0x00000000#32

/-! ### The coefficient factory -/

/-- Every FACTORY the model admits gives finite values (P2) with the structure P4: `b1 = a1` in a
peak set, `b2 = b0` in a cut section, and there `b1 = -2*b0` (HP) or `b1 = 2*b0` (LP) exactly (R111).
Under RF64 the last is claimed where `b0` is above the least normal binary32 value: elsewhere R112's
literal evaluation, which the model installs whenever it is finite, rounds `b0` and `2*b0` apart
(log entry 8). -/
def Obligations.FactorySetsAreFiniteAndStructured : Prop :=
  ∀ (p : Params) (kind : CutKind) (fs f q g : Word) (n i : Nat),
    ((designPeak p fs f q g).finite = true ∧
      (designPeak p fs f q g).b1 = (designPeak p fs f q g).a1) ∧
    ((designCut p kind fs f n i).finite = true ∧
      (designCut p kind fs f n i).b2 = (designCut p kind fs f n i).b0 ∧
      (p.factory ≠ .reference ∨ 1 / 2 ^ 126 < |rat32 (designCut p kind fs f n i).b0| →
        rat32 (designCut p kind fs f n i).b1 =
          doubling kind * rat32 (designCut p kind fs f n i).b0)) ∧
    (p.factory = .reference →
      ((rf64Peak p fs f q g).finite = true → designPeak p fs f q g = rf64Peak p fs f q g) ∧
      ((rf64Cut p kind fs f n i).finite = true →
        designCut p kind fs f n i = rf64Cut p kind fs f n i))

/-- Over the reals the clamped design frequency is R101's, and lies strictly between 0 and half the sample rate, in
every well-formed configuration (R101). -/
def Obligations.ClampedFrequencyInOpenInterval : Prop :=
  ∀ (p : Params) (fs f : Word), p.wf = true → validFs fs = true →
    exactFreq p fs f =
        min (max (real32 f) (real32 p.fMinHz)) ((rat64 p.nyqFrac : ℝ) * real32 fs) ∧
      0 < exactFreq p fs f ∧ exactFreq p fs f < real32 fs / 2

/-- Over the reals no design divides by zero (R113): the sample rate, `2*Q` and `A` are positive and
`a0 >= 1` in a peak design; the cosine under the tangent is positive, the divisor
`2*cos(((2i+1)*pi)/(4n))` of `Q(n, i)` and `Q(n, i)` itself are positive, `K > 0` and `D > 1` in a
cut design. -/
def Obligations.DesignDenominatorsPositive : Prop :=
  ∀ (p : Params) (fs f q g : Word) (n i : Nat), p.wf = true → validFs fs = true →
    inRange qMin qMax q = true → 1 ≤ n → n ≤ 4 → i < n →
    let w0 := angular realArith (exactFreq p fs f) (real32 fs)
    let amp := halfGain realArith (real32 g)
    let k := warp realArith (exactFreq p fs f) (real32 fs)
    0 < real32 fs ∧ 0 < 2 * real32 q ∧ 0 < amp ∧ 0 < peakAlpha realArith w0 (real32 q) ∧
      1 ≤ 1 + peakAlpha realArith w0 (real32 q) / amp ∧
      0 < Real.cos (Real.pi * exactFreq p fs f / real32 fs) ∧
      0 < 2 * Real.cos ((2 * (i : ℝ) + 1) * Real.pi / (4 * (n : ℝ))) ∧
      0 < sectionQ realArith n i ∧ 0 < k ∧
      1 < cutDenominator realArith k (sectionQ realArith n i)

/-- Over the reals a peak set's gain at its clamped design frequency is exactly `10^(g/20)`, that is
`g` dB (R116). -/
def Obligations.PeakGainAtDesignFrequency : Prop :=
  ∀ (p : Params) (fs f q g : Word), p.wf = true → validFs fs = true →
    inRange qMin qMax q = true →
    sectionGain (angular realArith (exactFreq p fs f) (real32 fs)) (exactPeak p fs f q g) =
      (10 : ℝ) ^ (real32 g / 20)

/-- Over the reals a Butterworth bank of `n` sections, of either kind, has gain exactly `1/sqrt 2`
at its clamped design frequency (R115). -/
def Obligations.CutBankGainAtDesignFrequency : Prop :=
  ∀ (p : Params) (kind : CutKind) (fs f : Word) (n : Nat), p.wf = true → validFs fs = true →
    1 ≤ n → n ≤ 4 →
    ((List.range n).map (fun i =>
      sectionGain (angular realArith (exactFreq p fs f) (real32 fs))
        (exactCut p kind fs f n i))).prod = 1 / Real.sqrt 2

/-- R138: over the reals every set the exact formulas give is stable: `|a2| < 1`, `|a1| < 1 + a2`,
and both poles lie strictly inside the unit circle. -/
def Obligations.ExactDesignsAreStable : Prop :=
  ∀ (p : Params) (kind : CutKind) (fs f q g : Word) (n i : Nat), p.wf = true →
    validFs fs = true → inRange qMin qMax q = true → 1 ≤ n → n ≤ 4 → i < n →
    ∀ c : CoefSet ℝ, c = exactPeak p fs f q g ∨ c = exactCut p kind fs f n i →
      |c.a2| < 1 ∧ |c.a1| < 1 + c.a2 ∧
        ∀ z : ℂ, z ^ 2 + (c.a1 : ℂ) * z + (c.a2 : ℂ) = 0 → ‖z‖ < 1

/-! ### The magnitude response -/

/-- The response's factors are the moduli of the transfer function's polynomials at `z = e^{jw}`
(R165). -/
def Obligations.ResponseIsComplexModulus : Prop :=
  ∀ w x0 x1 x2 : ℝ,
    polyAbs realArith w x0 x1 x2 =
      ‖(x0 : ℂ) + x1 * Complex.exp (-Complex.I * w) + x2 * Complex.exp (-2 * Complex.I * w)‖

/-- The infinities M3 speaks of are decided exactly: at an accepted frequency the integer test says
that a section's polynomial vanishes iff it does over the complex numbers (R165, R168, log entry
12). So an accepted QUERY stores the canonical NaN when some active numerator and some active
denominator are zero, -inf when only a numerator is, +inf when only a denominator is, and a finite
value otherwise (which finite value is MAG's, log entries 11 and 24), under every MAG. -/
def Obligations.NullsAreDecidedExactly : Prop :=
  (∀ f fs x0 x1 x2 : Word, validFs fs = true → queryFreqOk f fs = true →
    isFinite32 x0 = true → isFinite32 x1 = true → isFinite32 x2 = true →
    (vanishes (units32 x0) (units32 x1) (units32 x2) (twoCos (units32 f) (units32 fs)) = true ↔
      polyAt f fs (real32 x0) (real32 x1) (real32 x2) = 0)) ∧
  ∀ s : State, s.busy = false → s.lstate = .prepared ∨ s.lstate = .processing →
    validFs s.act.fs = true →
    (∀ j : Fin 13, s.act.slotActive j = true → s.act.coef[j].finite = true) →
    queryFreqOk s.qfreq s.act.fs = true →
    ∃ r : Word, exec .cmdQuery s = .next { s with qresult := r } ∧
      (HasNull s.act s.qfreq → HasPole s.act s.qfreq → r = 0x7FC00000#32) ∧
      (HasNull s.act s.qfreq → ¬HasPole s.act s.qfreq → r = 0xFF800000#32) ∧
      (¬HasNull s.act s.qfreq → HasPole s.act s.qfreq → r = 0x7F800000#32) ∧
      (¬HasNull s.act s.qfreq → ¬HasPole s.act s.qfreq → isFinite32 r = true)

/-! ### The update protocol -/

/-- What APPLY of a pending stage leaves in that stage (R184, R147): a peak band gets its set and its
flag; a bank gets sections `0..n-1` installed and active, the others bypassed with their
coefficients kept, and its flag. -/
def Sys2Proof.Claims.StageApplied (p : Pending) (old new : Active) : Stage → Prop
  | .lowCut => ∀ c : CutCfg, p.lowCut = some c → Sys2Proof.Claims.BankApplied .low c old new
  | .highCut => ∀ c : CutCfg, p.highCut = some c → Sys2Proof.Claims.BankApplied .high c old new
  | .peak b => ∀ c : PeakCfg, p.peak[b] = some c →
      new.coef[peakSlot b] = c.coef ∧ new.sbyp[peakStage b] = c.byp

/-- COMMIT and APPLY (R183, R184): while commits are pending, every commit turn installs one pending
stage, whole, and removes it from PEND, and any pending stage can be the one; no other stage, no
delay line, no register and no error bit changes. That a turn carries a number which picks the stage
(log entry 5), and that with none pending the turn leaves the state as it is (log entry 2), is the
model's choice. -/
def Obligations.CommitInstallsOnePendingStage : Prop :=
  (∀ (s : State) (n : Nat), s.busy = true →
    ∃ k : Stage, s.pend.has k = true ∧ runTurn (.commit n) s = .next (s.commitStage k)) ∧
  (∀ (s : State) (k : Stage), s.pend.has k = true →
    ∃ n : Nat, runTurn (.commit n) s = .next (s.commitStage k)) ∧
  (∀ (s : State) (n : Nat), s.busy = false → runTurn (.commit n) s = .next s) ∧
  ∀ (s : State) (k : Stage), s.pend.has k = true →
    s.commitStage k =
        { s with act := (s.commitStage k).act, pend := (s.commitStage k).pend } ∧
      (s.commitStage k).act.fs = s.act.fs ∧
      StageApplied s.pend s.act (s.commitStage k).act k ∧
      (∀ k' : Stage, (s.commitStage k).pend.has k' = (s.pend.has k' && decide (k' ≠ k))) ∧
      ∀ k' : Stage, k' ≠ k → stageView (s.commitStage k).act k' = stageView s.act k'

/-- R186: after an accepted UPDATE and any commits, each stage PROCESS reads is whole: the old one
while its commit is pending, the new one after. -/
def Obligations.StagesAreOldOrNewNeverMixed : Prop :=
  ∀ (s t : State) (picks : List Nat) (k : Stage), s.busy = false → s.lstate.isReady = true →
    validSnap s.params s.stg.capture = true → exec .cmdUpdate s = .next t →
    stageView (picks.foldl State.commit t).act k =
      if (picks.foldl State.commit t).pend.has k then stageView s.act k
      else stageView (s.act.applyChain (designSnapshot s.params s.stg.capture s.act.fs)) k

/-- An accepted UPDATE followed by seven commits in ANY order ends with BUSY = 0 and the whole
snapshot installed, and changes nothing but the active configuration (R180, R183, R184, R186). -/
def Obligations.UpdateInstallsInAnyOrder : Prop :=
  ∀ (s : State) (picks : List Nat), s.busy = false → s.lstate.isReady = true →
    validSnap s.params s.stg.capture = true → picks.length = 7 →
    ∃ t u : State, exec .cmdUpdate s = .next t ∧ u = picks.foldl State.commit t ∧
      u.busy = false ∧ u = { s with act := u.act } ∧ u.act.fs = s.act.fs ∧
      Installed s.params s.stg.capture s.act.fs s.act u.act

/-- R185: whatever the agents do, a schedule with seven commit turns reaches a state with BUSY = 0:
every accepted UPDATE completes. The schedule is the model's (log entry 2). -/
def Obligations.EveryUpdateCompletes : Prop :=
  ∀ (s : State) (ts : List Turn), s.port.turns = ts →
    7 ≤ (ts.filter (fun t => match t with | .commit _ => true | _ => false)).length →
    ∃ (k : Nat) (t : State), k ≤ ts.length ∧ Host.Core.run Sys2Proof.core k s = .next t ∧
      t.busy = false

/-- Installing the same configuration again changes nothing (R114; the source's idempotence). -/
def Obligations.InstallIsIdempotent : Prop :=
  ∀ (p : Params) (snap : Snapshot) (fs : Word) (a : Active),
    (a.applyChain (designSnapshot p snap fs)).applyChain (designSnapshot p snap fs) =
      a.applyChain (designSnapshot p snap fs)

/-- R187: of two snapshots that differ only in their bypass bits, the second installs the same
coefficients and section flags as the first and changes only the stage flags. -/
def Obligations.BypassOnlyUpdateKeepsCoefficients : Prop :=
  ∀ (p : Params) (snap : Snapshot) (fs : Word) (byp : BitVec 7) (a : Active),
    let a1 := a.applyChain (designSnapshot p snap fs)
    a1.applyChain (designSnapshot p { snap with byp := byp } fs) =
      { a1 with sbyp := Vector.ofFn (fun k : Fin 7 => byp.getLsbD k.val) }

/-! ### The whole machine -/

/-- R37: the reset value of every state element. -/
def Obligations.ResetValues : Prop :=
  State.reset.lstate = .unprepared ∧
  State.reset.busy = false ∧ (∀ k : Stage, State.reset.pend.has k = false) ∧
  State.reset.err = ⟨false, false, false⟩ ∧
  State.reset.readReg .slope = 0x00000000#32 ∧
  State.reset.readReg .bypass = 0x0000007F#32 ∧
  State.reset.readReg .fs = 0x00000000#32 ∧
  State.reset.readReg .lcFreq = 0x00000000#32 ∧
  State.reset.readReg .hcFreq = 0x00000000#32 ∧
  (∀ b : Fin 5, State.reset.readReg (.bandFreq b) = 0x00000000#32 ∧
    State.reset.readReg (.bandGain b) = 0x00000000#32 ∧
    State.reset.readReg (.bandQ b) = 0x00000000#32) ∧
  State.reset.readReg .qfreq = 0x00000000#32 ∧ State.reset.readReg .qresult = 0x00000000#32 ∧
  (∀ k : Fin 7, State.reset.act.sbyp[k] = true) ∧
  (∀ (B : Bank) (i : Fin 4), (State.reset.act.secbyp B)[i] = true) ∧
  (∀ (j : Fin 13) (m : CoefIx), State.reset.readReg (.coef j m) = 0x00000000#32) ∧
  (∀ j : Fin 13, State.reset.readReg (.st1 j) = 0x00000000#32 ∧
    State.reset.readReg (.st2 j) = 0x00000000#32) ∧
  State.reset.act.fs = 0x00000000#32 ∧ State.reset.readReg .id = 0x544D4551#32 ∧
  validSnap State.reset.params State.reset.stg.capture = false

/-- R270: the reset event, in one step from any state, gives every state element its reset value,
abandons every pending commit and drops a holding write. -/
def Obligations.ResetEventFromAnyState : Prop :=
  ∀ (s : State) (ts : List Turn), s.port.turns = .reset :: ts →
    ∃ t : State, step s = .next t ∧ (∀ r : Reg, t.readReg r = State.reset.readReg r) ∧
      t.busy = false ∧ t.pend = State.reset.pend ∧ t.act = State.reset.act ∧
      t.st = State.reset.st ∧ t.lstate = .unprepared ∧ t.stg = State.reset.stg ∧
      t.err = State.reset.err ∧ t.port.held = none

/-- CORE never stops: every step of every state answers a next state (R240). -/
def Obligations.NoStepStops : Prop := ∀ s : State, ∃ t : State, step s = .next t

/-- A step performs the decoded transaction: the control agent's next request, with no write
holding, and the sample agent's next sample; with a write holding and BUSY = 1, the control agent's
next read or register write still proceeds, while a further command waits. The queues, the schedule
and the single holding write are the model's (log entries 1 to 4). -/
def Obligations.StepPerformsTheDecodedTransaction : Prop :=
  (∀ (s : State) (r : Req) (rs : List Req) (ts : List Turn),
    s.port.turns = .control :: ts → s.port.held = none → s.port.ctlIn = r :: rs →
    step s = exec (decode (.ctl r)) { s with port := { s.port with turns := ts, ctlIn := rs } }) ∧
  (∀ (s : State) (x : Word) (xs : List Word) (ts : List Turn),
    s.port.turns = .sample :: ts → s.port.smpIn = x :: xs →
    step s = exec (decode (.smp x)) { s with port := { s.port with turns := ts, smpIn := xs } }) ∧
  (∀ (s : State) (w : Word) (r : Req) (rs : List Req) (ts : List Turn),
    s.port.turns = .control :: ts → s.port.held = some w → s.busy = true → s.port.ctlIn = r :: rs →
    step s =
      if commandWord (decode (.ctl r)) = none then
        exec (decode (.ctl r)) { s with port := { s.port with turns := ts, ctlIn := rs } }
      else .next { s with port := { s.port with turns := ts } }) ∧
  ∀ (s : State) (ts : List Turn), s.port.turns = .control :: ts → s.port.held = none →
    s.port.ctlIn = [] → step s = .next { s with port := { s.port with turns := ts } }

/-- Placing a table word makes the very next step perform the instruction it decodes to (the model's
own placement, log entry 15). -/
def Obligations.PlacedWordIsPerformedNext : Prop :=
  ∀ (s : State) (nbits w : Nat) (i : Instr), decodeTableWord nbits w = some i →
    step (s.withFetchWord nbits w) =
      match i with
      | .process _ => exec i s
      | _ => exec i { s with port := { s.port with held := none } }

/-- The invariant holds at reset. -/
def Obligations.ResetMeetsTheInvariant : Prop := State.reset.Inv

/-- Every step, whichever agent moves and whatever the free values are, keeps the invariant: the
configuration is well formed; a prepared chain has a finite positive ACT_FS (R33); commits are
pending only in PREPARED and PROCESSING; every coefficient is finite (R111 P2); before the first
PREPARE the chain is as reset left it (R271); after it each bank's active sections are a prefix of
1 to 4 sections (R149, R150). -/
def Obligations.EveryStepKeepsTheInvariant : Prop :=
  ∀ s t : State, s.Inv → step s = .next t → t.Inv
end

