-- ==== Sys2Proof/Laws/Encoding.lean ====
section
/-!
SUPPORT. The fields of a request and of a command word, read back from the words they are packed
into, and the bytes of a frame. Proofs about encodings cite these and unfold no packing.
-/

namespace Sys2Proof

@[simp] theorem we_mk (b : Bool) (a : WAddr) (w : Word) : Req.we (Req.mk b a w) = b := by
  have h : (Req.we (Req.mk b a w)) = decide ((Req.mk b a w).toNat / 2 ^ 42 % 2 = 1) := by
    simp [Req.we, BitVec.getLsbD, Nat.testBit_eq_decide_div_mod_eq]
  rw [h, Req.mk, BitVec.toNat_ofNat]
  have := a.isLt
  have := w.isLt
  cases b <;> simp <;> omega

@[simp] theorem waddr_mk (b : Bool) (a : WAddr) (w : Word) : Req.waddr (Req.mk b a w) = a := by
  apply BitVec.eq_of_toNat_eq
  rw [Req.waddr, BitVec.extractLsb'_toNat, Req.mk, BitVec.toNat_ofNat]
  have := a.isLt
  have := w.isLt
  cases b <;> simp <;> omega

@[simp] theorem wdata_mk (b : Bool) (a : WAddr) (w : Word) : Req.wdata (Req.mk b a w) = w := by
  apply BitVec.eq_of_toNat_eq
  rw [Req.wdata, BitVec.extractLsb'_toNat, Req.mk, BitVec.toNat_ofNat]
  have := a.isLt
  have := w.isLt
  cases b <;> simp <;> omega

/-- A request is the packing of its fields. -/
theorem mk_fields (r : Req) : Req.mk (Req.we r) (Req.waddr r) (Req.wdata r) = r := by
  apply BitVec.eq_of_toNat_eq
  have h : (Req.we r).toNat = r.toNat / 2 ^ 42 % 2 := by
    simp [Req.we, BitVec.getLsbD, Nat.testBit_eq_decide_div_mod_eq]
    rcases Nat.mod_two_eq_zero_or_one (r.toNat / 2 ^ 42) with h | h <;> simp at h <;> simp [h]
  rw [Req.mk, BitVec.toNat_ofNat, h, Req.waddr, Req.wdata, BitVec.extractLsb'_toNat,
    BitVec.extractLsb'_toNat]
  have := r.isLt
  simp
  omega

@[simp] theorem cmdOp_cmdWord (r : BitVec 24) (o : BitVec 8) : cmdOp (cmdWord r o) = o := by
  apply BitVec.eq_of_toNat_eq
  rw [cmdOp, BitVec.extractLsb'_toNat, cmdWord, BitVec.toNat_ofNat]
  have := r.isLt
  have := o.isLt
  simp
  omega

@[simp] theorem cmdRsv_cmdWord (r : BitVec 24) (o : BitVec 8) : cmdRsv (cmdWord r o) = r := by
  apply BitVec.eq_of_toNat_eq
  rw [cmdRsv, BitVec.extractLsb'_toNat, cmdWord, BitVec.toNat_ofNat]
  have := r.isLt
  have := o.isLt
  simp
  omega

/-- A command word is the packing of its fields. -/
theorem cmdWord_fields (w : Word) : cmdWord (cmdRsv w) (cmdOp w) = w := by
  apply BitVec.eq_of_toNat_eq
  rw [cmdWord, BitVec.toNat_ofNat, cmdRsv, cmdOp, BitVec.extractLsb'_toNat,
    BitVec.extractLsb'_toNat]
  have := w.isLt
  simp
  omega

theorem length_toBytes (n w : Nat) : (toBytes n w).length = n := by
  induction n generalizing w with
  | zero => rfl
  | succ n ih => simp [toBytes, ih]

/-- The bytes of a number that fits give the number back. -/
theorem ofBytes_toBytes (n w : Nat) (h : w < 256 ^ n) : ofBytes (toBytes n w) = w := by
  induction n generalizing w with
  | zero => simp at h; simp [toBytes, ofBytes, h]
  | succ n ih =>
    have hw : w / 256 < 256 ^ n := by
      rw [Nat.div_lt_iff_lt_mul (by norm_num)]
      rwa [pow_succ] at h
    simp only [toBytes, ofBytes, ih _ hw, BitVec.toNat_ofNat]
    omega

end Sys2Proof
end

