-- ==== Sys2Proof/Laws/State.lean ====
section
/-!
SUPPORT. What each state update leaves and sets, one lemma for each field, all true by definition.
-/

namespace Sys2Proof.Machine

/-! ### Recording an error -/

@[simp] theorem setError_params (s : State) (b : ErrBit) : (s.setError b).params = s.params := rfl
@[simp] theorem setError_lstate (s : State) (b : ErrBit) : (s.setError b).lstate = s.lstate := rfl
@[simp] theorem setError_pend (s : State) (b : ErrBit) : (s.setError b).pend = s.pend := rfl
@[simp] theorem setError_err (s : State) (b : ErrBit) : (s.setError b).err = s.err.set b := rfl
@[simp] theorem setError_stg (s : State) (b : ErrBit) : (s.setError b).stg = s.stg := rfl
@[simp] theorem setError_act (s : State) (b : ErrBit) : (s.setError b).act = s.act := rfl
@[simp] theorem setError_st (s : State) (b : ErrBit) : (s.setError b).st = s.st := rfl
@[simp] theorem setError_qfreq (s : State) (b : ErrBit) : (s.setError b).qfreq = s.qfreq := rfl
@[simp] theorem setError_qresult (s : State) (b : ErrBit) :
    (s.setError b).qresult = s.qresult := rfl
@[simp] theorem setError_port (s : State) (b : ErrBit) : (s.setError b).port = s.port := rfl

@[simp] theorem set_cerr (e : Errors) : e.set .cerr = { e with cerr := true } := rfl
@[simp] theorem set_serr (e : Errors) : e.set .serr = { e with serr := true } := rfl
@[simp] theorem set_ierr (e : Errors) : e.set .ierr = { e with ierr := true } := rfl

/-! ### Returning a word or a sample -/

@[simp] theorem returnData_params (s : State) (w : Word) :
    (s.returnData w).params = s.params := rfl
@[simp] theorem returnData_lstate (s : State) (w : Word) :
    (s.returnData w).lstate = s.lstate := rfl
@[simp] theorem returnData_pend (s : State) (w : Word) : (s.returnData w).pend = s.pend := rfl
@[simp] theorem returnData_err (s : State) (w : Word) : (s.returnData w).err = s.err := rfl
@[simp] theorem returnData_stg (s : State) (w : Word) : (s.returnData w).stg = s.stg := rfl
@[simp] theorem returnData_act (s : State) (w : Word) : (s.returnData w).act = s.act := rfl
@[simp] theorem returnData_st (s : State) (w : Word) : (s.returnData w).st = s.st := rfl
@[simp] theorem returnData_qfreq (s : State) (w : Word) : (s.returnData w).qfreq = s.qfreq := rfl
@[simp] theorem returnData_qresult (s : State) (w : Word) :
    (s.returnData w).qresult = s.qresult := rfl
@[simp] theorem returnData_ctlOut (s : State) (w : Word) :
    (s.returnData w).port.ctlOut = s.port.ctlOut ++ [w] := rfl

@[simp] theorem returnSample_params (s : State) (y : Word) :
    (s.returnSample y).params = s.params := rfl
@[simp] theorem returnSample_lstate (s : State) (y : Word) :
    (s.returnSample y).lstate = s.lstate := rfl
@[simp] theorem returnSample_pend (s : State) (y : Word) : (s.returnSample y).pend = s.pend := rfl
@[simp] theorem returnSample_err (s : State) (y : Word) : (s.returnSample y).err = s.err := rfl
@[simp] theorem returnSample_stg (s : State) (y : Word) : (s.returnSample y).stg = s.stg := rfl
@[simp] theorem returnSample_act (s : State) (y : Word) : (s.returnSample y).act = s.act := rfl
@[simp] theorem returnSample_st (s : State) (y : Word) : (s.returnSample y).st = s.st := rfl
@[simp] theorem returnSample_qfreq (s : State) (y : Word) :
    (s.returnSample y).qfreq = s.qfreq := rfl
@[simp] theorem returnSample_qresult (s : State) (y : Word) :
    (s.returnSample y).qresult = s.qresult := rfl
@[simp] theorem returnSample_smpOut (s : State) (y : Word) :
    (s.returnSample y).port.smpOut = s.port.smpOut ++ [y] := rfl

/-! ### Filtering a sample -/

@[simp] theorem filterSample_params (s : State) (x : Word) :
    (s.filterSample x).params = s.params := rfl
@[simp] theorem filterSample_lstate (s : State) (x : Word) :
    (s.filterSample x).lstate = .processing := rfl
@[simp] theorem filterSample_pend (s : State) (x : Word) : (s.filterSample x).pend = s.pend := rfl
@[simp] theorem filterSample_err (s : State) (x : Word) : (s.filterSample x).err = s.err := rfl
@[simp] theorem filterSample_stg (s : State) (x : Word) : (s.filterSample x).stg = s.stg := rfl
@[simp] theorem filterSample_act (s : State) (x : Word) : (s.filterSample x).act = s.act := rfl
@[simp] theorem filterSample_st (s : State) (x : Word) :
    (s.filterSample x).st = (s.act.chain x s.st).2 := rfl
@[simp] theorem filterSample_qfreq (s : State) (x : Word) :
    (s.filterSample x).qfreq = s.qfreq := rfl
@[simp] theorem filterSample_qresult (s : State) (x : Word) :
    (s.filterSample x).qresult = s.qresult := rfl
@[simp] theorem filterSample_smpOut (s : State) (x : Word) :
    (s.filterSample x).port.smpOut = s.port.smpOut ++ [(s.act.chain x s.st).1] := rfl

/-! ### Committing a stage -/

@[simp] theorem commitStage_params (s : State) (k : Stage) :
    (s.commitStage k).params = s.params := rfl
@[simp] theorem commitStage_lstate (s : State) (k : Stage) :
    (s.commitStage k).lstate = s.lstate := rfl
@[simp] theorem commitStage_pend (s : State) (k : Stage) :
    (s.commitStage k).pend = s.pend.without k := rfl
@[simp] theorem commitStage_err (s : State) (k : Stage) : (s.commitStage k).err = s.err := rfl
@[simp] theorem commitStage_stg (s : State) (k : Stage) : (s.commitStage k).stg = s.stg := rfl
@[simp] theorem commitStage_act (s : State) (k : Stage) :
    (s.commitStage k).act = s.act.applyPending s.pend k := rfl
@[simp] theorem commitStage_st (s : State) (k : Stage) : (s.commitStage k).st = s.st := rfl
@[simp] theorem commitStage_qfreq (s : State) (k : Stage) :
    (s.commitStage k).qfreq = s.qfreq := rfl
@[simp] theorem commitStage_qresult (s : State) (k : Stage) :
    (s.commitStage k).qresult = s.qresult := rfl
@[simp] theorem commitStage_port (s : State) (k : Stage) : (s.commitStage k).port = s.port := rfl

/-! ### An accepted PREPARE -/

@[simp] theorem prepareWith_params (s : State) (fs : Word) (g : Snapshot) :
    (s.prepareWith fs g).params = s.params := rfl
@[simp] theorem prepareWith_lstate (s : State) (fs : Word) (g : Snapshot) :
    (s.prepareWith fs g).lstate = .prepared := rfl
@[simp] theorem prepareWith_pend (s : State) (fs : Word) (g : Snapshot) :
    (s.prepareWith fs g).pend = s.pend := rfl
@[simp] theorem prepareWith_err (s : State) (fs : Word) (g : Snapshot) :
    (s.prepareWith fs g).err = s.err := rfl
@[simp] theorem prepareWith_stg (s : State) (fs : Word) (g : Snapshot) :
    (s.prepareWith fs g).stg = s.stg := rfl
@[simp] theorem prepareWith_act (s : State) (fs : Word) (g : Snapshot) :
    (s.prepareWith fs g).act =
      { s.act with fs := fs }.applyChain (designSnapshot s.params g fs) := rfl
@[simp] theorem prepareWith_st (s : State) (fs : Word) (g : Snapshot) :
    (s.prepareWith fs g).st = Delays.zero := rfl
@[simp] theorem prepareWith_qfreq (s : State) (fs : Word) (g : Snapshot) :
    (s.prepareWith fs g).qfreq = s.qfreq := rfl
@[simp] theorem prepareWith_qresult (s : State) (fs : Word) (g : Snapshot) :
    (s.prepareWith fs g).qresult = s.qresult := rfl
@[simp] theorem prepareWith_port (s : State) (fs : Word) (g : Snapshot) :
    (s.prepareWith fs g).port = s.port := rfl

/-! ### The reset event -/

@[simp] theorem resetEvent_params (s : State) : s.resetEvent.params = s.params := rfl
@[simp] theorem resetEvent_lstate (s : State) : s.resetEvent.lstate = .unprepared := rfl
@[simp] theorem resetEvent_pend (s : State) : s.resetEvent.pend = Pending.empty := rfl
@[simp] theorem resetEvent_err (s : State) : s.resetEvent.err = Errors.clear := rfl
@[simp] theorem resetEvent_stg (s : State) : s.resetEvent.stg = Staging.reset := rfl
@[simp] theorem resetEvent_act (s : State) : s.resetEvent.act = Active.reset := rfl
@[simp] theorem resetEvent_st (s : State) : s.resetEvent.st = Delays.zero := rfl
@[simp] theorem resetEvent_qfreq (s : State) : s.resetEvent.qfreq = zero32 := rfl
@[simp] theorem resetEvent_qresult (s : State) : s.resetEvent.qresult = zero32 := rfl
@[simp] theorem resetEvent_port (s : State) :
    s.resetEvent.port = { s.port with held := none } := rfl

/-! ### The active configuration -/

@[simp] theorem setSecbyp_sbyp (a : Active) (v : Vector Bool 4) (B : Bank) :
    (a.setSecbyp v B).sbyp = a.sbyp := by cases B <;> rfl
@[simp] theorem setSecbyp_coef (a : Active) (v : Vector Bool 4) (B : Bank) :
    (a.setSecbyp v B).coef = a.coef := by cases B <;> rfl
@[simp] theorem setSecbyp_fs (a : Active) (v : Vector Bool 4) (B : Bank) :
    (a.setSecbyp v B).fs = a.fs := by cases B <;> rfl
@[simp] theorem secbyp_setSecbyp (a : Active) (v : Vector Bool 4) (B B' : Bank) :
    (a.setSecbyp v B).secbyp B' = if B' = B then v else a.secbyp B' := by
  cases B <;> cases B' <;> rfl

@[simp] theorem applyPeak_secLow (a : Active) (b : Fin 5) (c : PeakCfg) :
    (a.applyPeak b c).secLow = a.secLow := rfl
@[simp] theorem applyPeak_secHigh (a : Active) (b : Fin 5) (c : PeakCfg) :
    (a.applyPeak b c).secHigh = a.secHigh := rfl
@[simp] theorem applyPeak_fs (a : Active) (b : Fin 5) (c : PeakCfg) :
    (a.applyPeak b c).fs = a.fs := rfl
@[simp] theorem applyPeak_secbyp (a : Active) (b : Fin 5) (c : PeakCfg) (B : Bank) :
    (a.applyPeak b c).secbyp B = a.secbyp B := by cases B <;> rfl

end Sys2Proof.Machine
end

