-- ==== Sys2Proof/Laws/Operations.lean ====
section
/-!
SUPPORT. For each shared operation, one lemma that says everything it can do: the command entry, a
commit, a turn, CONFIGURE and APPLY, the factory, the query, one slot of the chain. Proofs about
transactions cite these and unfold no operation.
-/

namespace Sys2Proof.Machine

/-! ### Commands and turns -/

/-- A command holds, leaving the state elements alone, or takes its effect. -/
theorem command_cases (s : State) (w : Word) (f : State → State) :
    (s.busy = true ∧ s.command w f = .next { s with port := { s.port with held := some w } }) ∨
      (s.busy = false ∧ s.command w f = .next (f s)) := by
  unfold State.command
  cases h : s.busy <;> simp

theorem command_of_idle {s : State} (h : s.busy = false) (w : Word) (f : State → State) :
    s.command w f = .next (f s) := by simp [State.command, h]

theorem command_of_busy {s : State} (h : s.busy = true) (w : Word) (f : State → State) :
    s.command w f = .next { s with port := { s.port with held := some w } } := by
  simp [State.command, h]

/-- Every meaning answers a next state. -/
theorem exec_answers (i : Instr) (s : State) : ∃ t, exec i s = .next t := by
  have hc (w : Word) (f : State → State) : ∃ t, s.command w f = .next t := by
    rcases command_cases s w f with ⟨_, h⟩ | ⟨_, h⟩ <;> exact ⟨_, h⟩
  cases i with
  | regRead a w => exact ⟨_, rfl⟩
  | regWrite a w => exact ⟨_, rfl⟩
  | cmdNop => exact hc _ _
  | cmdPrepare => exact hc _ _
  | cmdUpdate => exact hc _ _
  | cmdFlush => exact hc _ _
  | cmdRelease => exact hc _ _
  | cmdQuery => exact hc _ _
  | cmdIllegal r o => exact hc _ _
  | process x =>
    show ∃ t, execProcess x s = .next t
    unfold execProcess
    split <;> exact ⟨_, rfl⟩

/-- PREPARE rejects with CERR or installs (R202). -/
theorem prepare_cases (s : State) :
    s.prepare = s.setError .cerr ∨
      (validFs s.stg.fs = true ∧ validSnap s.params s.stg.capture = true ∧
        s.prepare = s.prepareWith s.stg.fs s.stg.capture) := by
  unfold State.prepare
  cases h1 : validFs s.stg.fs <;> cases h2 : validSnap s.params s.stg.capture <;> simp

/-- UPDATE rejects with SERR or CERR, or makes the snapshot pending (R180). -/
theorem update_cases (s : State) :
    (s.lstate.isReady = false ∧ s.update = s.setError .serr) ∨
      (s.lstate.isReady = true ∧ validSnap s.params s.stg.capture = false ∧
        s.update = s.setError .cerr) ∨
      (s.lstate.isReady = true ∧ validSnap s.params s.stg.capture = true ∧
        s.update =
          { s with pend := Pending.ofChain (designSnapshot s.params s.stg.capture s.act.fs) }) := by
  unfold State.update
  cases h1 : s.lstate.isReady <;> cases h2 : validSnap s.params s.stg.capture <;> simp

/-- QUERY rejects with SERR or writes QRESULT (R166). -/
theorem query_cases (s : State) :
    (s.lstate.isReady = false ∧ s.query = s.setError .serr) ∨
      (s.lstate.isReady = true ∧ ∃ r, s.query = { s with qresult := r }) := by
  unfold State.query
  cases h1 : s.lstate.isReady
  · simp
  · right
    split
    · split <;> exact ⟨rfl, _, rfl⟩
    · simp at *

/-- RELEASE rejects with SERR or enters RELEASED (R204). -/
theorem release_cases (s : State) :
    (s.lstate = .unprepared ∧ s.release = s.setError .serr) ∨
      (s.lstate ≠ .unprepared ∧ s.release = { s with lstate := .released }) := by
  unfold State.release
  cases h : s.lstate <;> simp

/-- PROCESS passes its sample through with SERR or filters it (R160). -/
theorem process_cases (x : Word) (s : State) :
    (s.lstate.isReady = false ∧
        execProcess x s = .next ((s.setError .serr).returnSample x)) ∨
      (s.lstate.isReady = true ∧ execProcess x s = .next (s.filterSample x)) := by
  unfold execProcess
  cases h : s.lstate.isReady <;> simp

/-- A commit turn installs one pending stage, or finds none (R183). -/
theorem commit_cases (s : State) (n : Nat) :
    (s.pend.dom = [] ∧ s.commit n = s) ∨ ∃ k, s.pend.has k = true ∧ s.commit n = s.commitStage k := by
  unfold State.commit Pending.picked
  rcases h : s.pend.dom with _ | ⟨k, ks⟩
  · left; simp
  · right
    have hlt : n % (k :: ks).length < (k :: ks).length :=
      Nat.mod_lt _ (by simp)
    refine ⟨(k :: ks)[n % (k :: ks).length], ?_, ?_⟩
    · have : (k :: ks)[n % (k :: ks).length] ∈ s.pend.dom := by rw [h]; exact List.getElem_mem _
      exact (List.mem_filter.mp this).2
    · have : (k :: ks)[n % (k :: ks).length]? = some (k :: ks)[n % (k :: ks).length] :=
        List.getElem?_eq_getElem hlt
      rw [this]

/-- A turn performs a fetched transaction, idles, commits or resets (R4). -/
theorem runTurn_cases (u : Turn) (s : State) :
    (∃ i s', runTurn u s = exec i s' ∧
        (s.fetchControl = some (i, s') ∨ s.fetchRetry = some (i, s') ∨
          s.fetchSample = some (i, s'))) ∨
      runTurn u s = .next s ∨ (∃ n, runTurn u s = .next (s.commit n)) ∨
      runTurn u s = .next s.resetEvent := by
  have hf (f : Option (Instr × State)) :
      (∃ i s', runFetched f s = exec i s' ∧ f = some (i, s')) ∨ runFetched f s = .next s := by
    rcases f with _ | ⟨i, s'⟩
    · exact .inr rfl
    · exact .inl ⟨i, s', rfl, rfl⟩
  cases u with
  | control =>
    rcases hf s.fetchControl with ⟨i, s', h, e⟩ | h
    · exact .inl ⟨i, s', h, .inl e⟩
    · exact .inr (.inl h)
  | retry =>
    rcases hf s.fetchRetry with ⟨i, s', h, e⟩ | h
    · exact .inl ⟨i, s', h, .inr (.inl e)⟩
    · exact .inr (.inl h)
  | sample =>
    rcases hf s.fetchSample with ⟨i, s', h, e⟩ | h
    · exact .inl ⟨i, s', h, .inr (.inr e)⟩
    · exact .inr (.inl h)
  | commit n => exact .inr (.inr (.inl ⟨n, rfl⟩))
  | reset => exact .inr (.inr (.inr rfl))

/-- What an agent fetches changes nothing but the ports. -/
theorem fetched_frame {s s' : State} {i : Instr}
    (h : s.fetchControl = some (i, s') ∨ s.fetchRetry = some (i, s') ∨
      s.fetchSample = some (i, s')) : s' = { s with port := s'.port } := by
  have hn {r : Req} {u : State} (e : s.nextRequest = some (r, u)) : u = { s with port := u.port } := by
    unfold State.nextRequest at e
    split at e <;> simp at e
    rw [← e.2]
  rcases h with h | h | h
  · unfold State.fetchControl at h
    split at h
    · simp only [Option.map_eq_some_iff, Prod.exists, Prod.mk.injEq] at h
      obtain ⟨r, u, e, -, rfl⟩ := h
      exact hn e
    · split at h
      · split at h
        · rename_i e
          split at h <;> simp at h
          obtain ⟨-, rfl⟩ := h
          exact hn e
        · simp at h
      · simp [State.resumeHeld] at h
        rw [← h.2]
  · unfold State.fetchRetry at h
    simp only [Option.map_eq_some_iff] at h
    obtain ⟨w, -, e⟩ := h
    simp [State.resumeHeld] at e
    rw [← e.2]
  · unfold State.fetchSample at h
    split at h <;> simp at h
    rw [← h.2]

/-- Taking a turn changes nothing but the ports. -/
theorem takeTurn_frame (s : State) : s.takeTurn.2 = { s with port := s.takeTurn.2.port } := by
  unfold State.takeTurn
  split <;> rfl

/-! ### PEND -/

theorem mem_stages (k : Stage) : k ∈ stages := by
  cases k with
  | lowCut => decide
  | highCut => decide
  | peak b => revert b; decide

theorem mem_dom {p : Pending} {k : Stage} : k ∈ p.dom ↔ p.has k = true := by
  simp [Pending.dom, List.mem_filter, mem_stages]

theorem any_iff_has {p : Pending} : p.any = true ↔ ∃ k, p.has k = true := by
  constructor
  · intro h
    simp only [Pending.any, bandIxs, List.any_cons, List.any_nil, Bool.or_eq_true] at h
    rcases h with (h | h) | h
    · exact ⟨.lowCut, h⟩
    · rcases h with h | h | h | h | h | h
      · exact ⟨.peak 0, h⟩
      · exact ⟨.peak 1, h⟩
      · exact ⟨.peak 2, h⟩
      · exact ⟨.peak 3, h⟩
      · exact ⟨.peak 4, h⟩
      · simp at h
    · exact ⟨.highCut, h⟩
  · rintro ⟨k, h⟩
    simp only [Pending.any, bandIxs, List.any_cons, List.any_nil, Bool.or_eq_true]
    cases k with
    | lowCut => exact .inl (.inl h)
    | highCut => exact .inr h
    | peak b =>
      left; right
      have : ∀ b : Fin 5, p.has (.peak b) = true →
          p.peak[(0 : Fin 5)].isSome = true ∨ p.peak[(1 : Fin 5)].isSome = true ∨
            p.peak[(2 : Fin 5)].isSome = true ∨ p.peak[(3 : Fin 5)].isSome = true ∨
            p.peak[(4 : Fin 5)].isSome = true ∨ False := by
        intro b hb
        match b, hb with
        | 0, hb => exact .inl hb
        | 1, hb => exact .inr (.inl hb)
        | 2, hb => exact .inr (.inr (.inl hb))
        | 3, hb => exact .inr (.inr (.inr (.inl hb)))
        | 4, hb => exact .inr (.inr (.inr (.inr (.inl hb))))
      simpa using this b h

theorem dom_eq_nil_iff {p : Pending} : p.dom = [] ↔ p.any = false := by
  rw [← Bool.not_eq_true, any_iff_has, List.eq_nil_iff_forall_not_mem]
  simp [mem_dom]

/-- Removing a stage removes that stage only. -/
theorem has_without (p : Pending) (k k' : Stage) :
    (p.without k).has k' = (p.has k' && decide (k' ≠ k)) := by
  cases k with
  | lowCut => cases k' <;> simp [Pending.without, Pending.has]
  | highCut => cases k' <;> simp [Pending.without, Pending.has]
  | peak b =>
    cases k' with
    | lowCut => simp [Pending.without, Pending.has]
    | highCut => simp [Pending.without, Pending.has]
    | peak b' =>
      by_cases hb : b' = b
      · subst hb; simp [Pending.without, Pending.has]
      · have : b.val ≠ b'.val := fun e => hb (Fin.ext e.symm)
        simp [Pending.without, Pending.has, this, hb]

/-! ### CONFIGURE and APPLY -/

theorem slot_inj {B B' : Bank} {i i' : Fin 4} (h : B.slot i = B'.slot i') : B = B' ∧ i = i' := by
  revert h; revert i i'; cases B <;> cases B' <;> decide

theorem slot_ne_peakSlot (B : Bank) (i : Fin 4) (b : Fin 5) : B.slot i ≠ peakSlot b := by
  revert i b; cases B <;> decide

theorem peakSlot_inj {b b' : Fin 5} (h : peakSlot b = peakSlot b') : b = b' := by
  revert h; revert b b'; decide

/-- Reading a vector after one entry was set; the indices are `Fin` values, read as numbers. -/
@[simp] theorem getElem_set_fin {α : Type} {n : Nat} (v : Vector α n) (i j : Fin n) (x : α) :
    (v.set i.val x i.isLt)[j.val]'j.isLt = if j = i then x else v[j.val] := by
  rw [Vector.getElem_set]
  by_cases h : j = i
  · simp [h]
  · have : i.val ≠ j.val := fun e => h (Fin.ext e.symm)
    simp [h, this]

@[simp] theorem installSection_sbyp (a : Active) (B : Bank) (i : Fin 4) (c : Coefs) :
    (a.installSection B i c).sbyp = a.sbyp := by cases B <;> rfl
@[simp] theorem installSection_fs (a : Active) (B : Bank) (i : Fin 4) (c : Coefs) :
    (a.installSection B i c).fs = a.fs := by cases B <;> rfl
@[simp] theorem installSection_coef (a : Active) (B : Bank) (i : Fin 4) (c : Coefs) :
    (a.installSection B i c).coef = a.coef.set (B.slot i) c := by cases B <;> rfl
@[simp] theorem installSection_secbyp (a : Active) (B B' : Bank) (i : Fin 4) (c : Coefs) :
    (a.installSection B i c).secbyp B' =
      if B' = B then (a.secbyp B).set i false else a.secbyp B' := by
  cases B <;> cases B' <;> rfl

/-- Installing sections from `i` on: flags, coefficients, and nothing else (R147). -/
theorem installSections_spec (B : Bank) (cs : List Coefs) :
    ∀ (i : Nat) (a : Active),
      (a.installSections B i cs).sbyp = a.sbyp ∧ (a.installSections B i cs).fs = a.fs ∧
      (∀ B', B' ≠ B → (a.installSections B i cs).secbyp B' = a.secbyp B') ∧
      (∀ j : Fin 13, (∀ m, j ≠ B.slot m) → (a.installSections B i cs).coef[j] = a.coef[j]) ∧
      ∀ m : Fin 4,
        ((a.installSections B i cs).secbyp B)[m] =
            (if i ≤ m.val ∧ m.val < i + cs.length then false else (a.secbyp B)[m]) ∧
          (a.installSections B i cs).coef[B.slot m] =
            (if h : i ≤ m.val ∧ m.val < i + cs.length then cs[m.val - i]'(by omega)
              else a.coef[B.slot m]) := by
  induction cs with
  | nil =>
    intro i a
    refine ⟨rfl, rfl, fun _ _ => rfl, fun _ _ => rfl, fun m => ⟨?_, ?_⟩⟩
    · rw [if_neg (by simp)]; rfl
    · rw [dif_neg (by simp)]; rfl
  | cons c cs ih =>
    intro i a
    unfold Active.installSections
    split
    case isTrue hi =>
      obtain ⟨h1, h2, h3, h4, h5⟩ := ih (i + 1) (a.installSection B ⟨i, hi⟩ c)
      refine ⟨?_, ?_, ?_, ?_, ?_⟩
      · rw [h1, installSection_sbyp]
      · rw [h2, installSection_fs]
      · intro B' hB'
        rw [h3 B' hB']
        simp [hB']
      · intro j hj
        rw [h4 j hj]
        simp [hj]
      · intro m
        obtain ⟨h6, h7⟩ := h5 m
        constructor
        · rw [h6]
          have e : ((a.installSection B ⟨i, hi⟩ c).secbyp B)[m] =
              if m = ⟨i, hi⟩ then false else (a.secbyp B)[m] := by
            rw [installSection_secbyp, if_pos rfl]
            exact getElem_set_fin (a.secbyp B) ⟨i, hi⟩ m false
          rw [e]
          by_cases hm : m.val = i
          · have : m = ⟨i, hi⟩ := Fin.ext hm
            subst this
            simp
          · have hne : m ≠ ⟨i, hi⟩ := fun e => hm (by rw [e])
            rw [if_neg hne]
            have : (i + 1 ≤ m.val ∧ m.val < i + 1 + cs.length) ↔
                (i ≤ m.val ∧ m.val < i + (c :: cs).length) := by
              simp only [List.length_cons]; omega
            simp only [this]
        · rw [h7]
          by_cases hm : m.val = i
          · have : m = ⟨i, hi⟩ := Fin.ext hm
            subst this
            simp
          · have hne : m ≠ ⟨i, hi⟩ := fun e => hm (by rw [e])
            have hs : B.slot m ≠ B.slot ⟨i, hi⟩ := fun e => hne (slot_inj e).2
            have e : (a.installSection B ⟨i, hi⟩ c).coef[B.slot m] = a.coef[B.slot m] := by
              simp [hs]
            rw [e]
            by_cases hr : i + 1 ≤ m.val ∧ m.val < i + 1 + cs.length
            · have hr' : i ≤ m.val ∧ m.val < i + (c :: cs).length := by
                simp only [List.length_cons]; omega
              rw [dif_pos hr, dif_pos hr']
              have : m.val - i = (m.val - (i + 1)) + 1 := by omega
              simp [this]
            · have hr' : ¬(i ≤ m.val ∧ m.val < i + (c :: cs).length) := by
                simp only [List.length_cons]; omega
              rw [dif_neg hr, dif_neg hr']
    case isFalse hi =>
      refine ⟨rfl, rfl, fun _ _ => rfl, fun _ _ => rfl, fun m => ?_⟩
      have : ¬(i ≤ m.val ∧ m.val < i + (c :: cs).length) := by
        have := m.isLt; omega
      rw [if_neg this, dif_neg this]
      exact ⟨rfl, rfl⟩

/-- CONFIGURE: sections `0..n-1` installed and active, the rest of the bank bypassed with its
coefficients kept, the stage flag written, and nothing else (R147, R149). -/
theorem configure_spec (a : Active) (B : Bank) (c : CutCfg) :
    (a.configure B c).fs = a.fs ∧ (a.configure B c).sbyp = a.sbyp.set B.stage c.byp ∧
      (∀ B', B' ≠ B → (a.configure B c).secbyp B' = a.secbyp B') ∧
      (∀ j : Fin 13, (∀ m, j ≠ B.slot m) → (a.configure B c).coef[j] = a.coef[j]) ∧
      ∀ m : Fin 4,
        ((a.configure B c).secbyp B)[m] = decide (c.coefs.length ≤ m.val) ∧
          (a.configure B c).coef[B.slot m] =
            if h : m.val < c.coefs.length then c.coefs[m.val] else a.coef[B.slot m] := by
  obtain ⟨h1, h2, h3, h4, h5⟩ :=
    installSections_spec B c.coefs 0 (a.setSecbyp (Vector.replicate 4 true) B)
  refine ⟨?_, ?_, ?_, ?_, ?_⟩
  · simpa [Active.configure] using h2
  · simp [Active.configure, h1]
  · intro B' hB'
    have : (a.configure B c).secbyp B' =
        ((a.setSecbyp (Vector.replicate 4 true) B).installSections B 0 c.coefs).secbyp B' := by
      cases B' <;> rfl
    rw [this, h3 B' hB']
    simp [hB']
  · intro j hj
    have := h4 j hj
    simpa [Active.configure] using this
  · intro m
    obtain ⟨h6, h7⟩ := h5 m
    constructor
    · have : (a.configure B c).secbyp B =
          ((a.setSecbyp (Vector.replicate 4 true) B).installSections B 0 c.coefs).secbyp B := by
        cases B <;> rfl
      rw [this, h6]
      by_cases hm : m.val < c.coefs.length
      · simp [hm, Nat.not_le.mpr hm]
      · simp [hm, Nat.not_lt.mp hm]
    · have : (a.configure B c).coef[B.slot m] =
          ((a.setSecbyp (Vector.replicate 4 true) B).installSections B 0 c.coefs).coef[B.slot m] :=
        rfl
      rw [this, h7]
      simp

/-- Every slot is a section of a bank or a peak band's (R15). -/
theorem slot_cases (j : Fin 13) : (∃ B i, j = Bank.slot B i) ∨ ∃ b, j = peakSlot b := by
  have h : ∀ j : Fin 13, (∃ i, j = Bank.slot .low i) ∨ (∃ i, j = Bank.slot .high i) ∨
      ∃ b, j = peakSlot b := by decide
  rcases h j with ⟨i, h⟩ | ⟨i, h⟩ | h
  · exact .inl ⟨_, i, h⟩
  · exact .inl ⟨_, i, h⟩
  · exact .inr h

/-- An entry of a vector written out from a function. -/
theorem getElem_five {α : Type} (f : Fin 5 → α) (b : Fin 5) :
    (#v[f 0, f 1, f 2, f 3, f 4] : Vector α 5)[b] = f b := by
  match b with
  | 0 => rfl
  | 1 => rfl
  | 2 => rfl
  | 3 => rfl
  | 4 => rfl

/-- The peak configurations of a designed snapshot (R110). -/
theorem designSnapshot_peak (p : Params) (g : Snapshot) (fs : Word) (b : Fin 5) :
    (designSnapshot p g fs).peak[b] = peakCfg p g fs b :=
  getElem_five (fun b => peakCfg p g fs b) b

/-- What is pending after an accepted UPDATE (R180). -/
theorem ofChain_peak (p : Params) (g : Snapshot) (fs : Word) (b : Fin 5) :
    (Pending.ofChain (designSnapshot p g fs)).peak[b] = some (peakCfg p g fs b) := by
  rw [← designSnapshot_peak]
  simp [Pending.ofChain]

theorem ofChain_has (c : ChainCfg) (k : Stage) : (Pending.ofChain c).has k = true := by
  cases k <;> simp [Pending.ofChain, Pending.has]

/-- APPLY of a stage, by what is pending for it (R184). -/
theorem applyPending_lowCut {a : Active} {p : Pending} {c : CutCfg} (h : p.lowCut = some c) :
    a.applyPending p .lowCut = a.configure .low c := by simp only [Active.applyPending, h]
theorem applyPending_highCut {a : Active} {p : Pending} {c : CutCfg} (h : p.highCut = some c) :
    a.applyPending p .highCut = a.configure .high c := by simp only [Active.applyPending, h]
theorem applyPending_peak {a : Active} {p : Pending} {b : Fin 5} {c : PeakCfg}
    (h : p.peak[b] = some c) : a.applyPending p (.peak b) = a.applyPeak b c := by
  simp only [Active.applyPending, h]

/-- A valid snapshot's slope codes are 0 to 3 (R102). -/
theorem validSnap_slopes {p : Params} {g : Snapshot} (h : validSnap p g = true) :
    g.lcSlope.toNat ≤ 3 ∧ g.hcSlope.toNat ≤ 3 := by
  simp only [validSnap, Bool.and_eq_true, decide_eq_true_eq] at h
  exact ⟨h.1.2, h.2⟩

/-! ### The factory and the query -/

@[simp] theorem toFinite_finite (w : Word) : isFinite32 (toFinite w) = true := by
  unfold toFinite
  split
  · assumption
  · decide

/-- The doubled value of a value that is not finite is not finite. -/
theorem finite_of_doubled (kind : CutKind) (w : Word)
    (h : isFinite32 (mul32 (cutFactor kind) w) = true) : isFinite32 w = true := by
  have e : ∃ s, val32 (cutFactor kind) = .fin s (2 ^ 150) := by
    cases kind
    · exact ⟨true, by decide⟩
    · exact ⟨false, by decide⟩
  obtain ⟨s, e⟩ := e
  unfold isFinite32 mul32 at h
  rw [e] at h
  unfold isFinite32
  cases hw : val32 w with
  | fin t n => rfl
  | nan => rw [hw] at h; revert h; cases s <;> decide
  | inf t => rw [hw] at h; revert h; cases s <;> cases t <;> decide

/-- A conformed peak set has P2 and P4 (R111). -/
theorem conformPeak_spec (c : Coefs) :
    (conformPeak c).finite = true ∧ (conformPeak c).b1 = (conformPeak c).a1 := by
  simp [conformPeak, Coefs.finite, CoefSet.map, toFinite_finite]

/-- What `cutStructured` checks (R111 P2, P4). -/
theorem cutStructured_iff {kind : CutKind} {c : Coefs} : cutStructured kind c = true ↔
    c.finite = true ∧ c.b2 = c.b0 ∧ le32 c.b1 (mul32 (cutFactor kind) c.b0) = true ∧
      le32 (mul32 (cutFactor kind) c.b0) c.b1 = true := by
  simp [cutStructured, and_assoc]

/-- A cut set with P2 and P4 is left as it is (log entry 7). -/
theorem conformCut_of_structured {kind : CutKind} {c : Coefs} (h : cutStructured kind c = true) :
    conformCut kind c = c := if_pos h

/-- A peak set with P2 and P4 is left as it is (log entry 7). -/
theorem conformPeak_of_structured {c : Coefs} (h : c.finite = true) (h1 : c.b1 = c.a1) :
    conformPeak c = c := by
  simp only [Coefs.finite, Bool.and_eq_true] at h
  obtain ⟨⟨⟨⟨h2, h3⟩, h4⟩, h5⟩, h6⟩ := h
  cases c
  simp_all [conformPeak, CoefSet.map, toFinite]

/-- A conformed cut set is finite (R111 P2). -/
theorem conformCut_finite (kind : CutKind) (c : Coefs) : (conformCut kind c).finite = true := by
  unfold conformCut
  split
  case isTrue h => exact (cutStructured_iff.mp h).1
  case isFalse =>
    by_cases h : isFinite32 (mul32 (cutFactor kind) c.b0) = true
    · simp [Coefs.finite, h, finite_of_doubled kind _ h, toFinite_finite]
    · have hz : isFinite32 (mul32 (cutFactor kind) zero32) = true := by cases kind <;> decide
      have h0 : isFinite32 zero32 = true := by decide
      simp [Coefs.finite, h, hz, h0, toFinite_finite]

/-- RF64's set as installed is finite (R111 P2, log entry 8). -/
theorem literalOr_finite {conform : Coefs → Coefs} (h : ∀ c, (conform c).finite = true)
    (c : Coefs) : (literalOr conform c).finite = true := by
  unfold literalOr
  split
  · assumption
  · exact h c

/-- Every peak set the factory gives is finite (R111 P2). -/
theorem designPeak_finite (p : Params) (fs f q g : Word) :
    (designPeak p fs f q g).finite = true := by
  unfold designPeak
  split
  · exact literalOr_finite (fun c => (conformPeak_spec c).1) _
  · exact (conformPeak_spec _).1

/-- Every cut section the factory gives is finite (R111 P2). -/
theorem designCut_finite (p : Params) (kind : CutKind) (fs f : Word) (n i : Nat) :
    (designCut p kind fs f n i).finite = true := by
  unfold designCut
  split
  · exact literalOr_finite (conformCut_finite kind) _
  · exact conformCut_finite kind _

/-- Where the exact response is finite, so is MAG's value (R168 M4). -/
theorem finiteMag_finite (p : Params) (a : Active) (f : Word) :
    isFinite32 (finiteMag p a f) = true := by
  unfold finiteMag
  split
  · split
    · assumption
    · exact toFinite_finite _
  · exact toFinite_finite _

/-- The coefficient sets the query sums over are those of the active slots (R165). -/
theorem mem_activeCoefs {a : Active} {c : Coefs} :
    c ∈ a.activeCoefs ↔ ∃ j, a.slotActive j = true ∧ a.coef[j] = c := by
  have h : ∀ j : Fin 13, j ∈ slotIxs := by decide
  simp [Active.activeCoefs, h]

/-- The kind of the response: NaN with a zero numerator and a zero denominator among the sections,
`-inf` with a zero numerator alone, `+inf` with a zero denominator alone (R165). -/
theorem foldl_sectionKind (tc : Option Int) (l : List Coefs) :
    l.foldl (fun k c => k.add (sectionKind tc c)) ExtKind.finite =
      match l.any (fun c => vanishes (units32 c.b0) (units32 c.b1) (units32 c.b2) tc),
        l.any (fun c => vanishes oneUnits (units32 c.a1) (units32 c.a2) tc) with
      | true, true => ExtKind.nan
      | true, false => ExtKind.negInf
      | false, true => ExtKind.posInf
      | false, false => ExtKind.finite := by
  have h : ∀ k : ExtKind, l.foldl (fun k c => k.add (sectionKind tc c)) k =
      match decide (k = .negInf ∨ k = .nan) ||
          l.any (fun c => vanishes (units32 c.b0) (units32 c.b1) (units32 c.b2) tc),
        decide (k = .posInf ∨ k = .nan) ||
          l.any (fun c => vanishes oneUnits (units32 c.a1) (units32 c.a2) tc) with
      | true, true => ExtKind.nan
      | true, false => ExtKind.negInf
      | false, true => ExtKind.posInf
      | false, false => ExtKind.finite := by
    induction l with
    | nil => intro k; cases k <;> rfl
    | cons c l ih =>
      intro k
      rw [List.foldl_cons, ih, List.any_cons, List.any_cons]
      cases h1 : vanishes (units32 c.b0) (units32 c.b1) (units32 c.b2) tc <;>
        cases h2 : vanishes oneUnits (units32 c.a1) (units32 c.a2) tc <;>
        cases k <;> simp [sectionKind, h1, h2, ExtKind.add]
  exact h .finite

/-! ### The chain -/

/-- One slot: the section's output, its new delay line in place, every other one kept (R132). -/
theorem runSlot_spec (a : Active) (j : Fin 13) (v : Word × Delays) :
    (a.runSlot j v).1 = (biquad a.coef[j] v.2[j] v.1).1 ∧
      (a.runSlot j v).2[j] = (biquad a.coef[j] v.2[j] v.1).2 ∧
      ∀ j', j' ≠ j → (a.runSlot j v).2[j'] = v.2[j'] := by
  refine ⟨rfl, ?_, fun j' h => ?_⟩
  · simp [Active.runSlot]
  · have : (a.runSlot j v).2 = v.2.set j (biquad a.coef[j] v.2[j] v.1).2 := rfl
    rw [this]
    simp [h]

end Sys2Proof.Machine
end

