-- ==== Sys2Proof/Laws/PerInstr.lean ====
section
/-!
SUPPORT. A law of every instruction, by constructor: the encoder lays an instruction out as a write
of its command word to CMD if it has one, and as no write to CMD if it has none (R73, R75).
-/

namespace Sys2Proof.Laws.CommandWord

open Sys2Proof.Machine

/-- A command encodes to the write of its command word to CMD; a well-formed transaction that is no
command encodes to no write to CMD. -/
def Statement (i : Instr) : Prop :=
  (∀ w : Word, commandWord i = some w → encode i = .ctl (Req.mk true cmdWAddr w)) ∧
    (i.wf = true → commandWord i = none → ∀ r : Req, encode i = .ctl r → Req.isCommand r = false)

/-- A command's two halves: the word it writes, and that it has one. -/
theorem of_command {i : Instr} {w : Word} (h : commandWord i = some w)
    (e : encode i = .ctl (Req.mk true cmdWAddr w)) : Statement i := by
  refine ⟨fun v hv => ?_, fun _ hn => ?_⟩
  · rw [h] at hv
    cases hv
    exact e
  · rw [h] at hn
    cases hn

theorem regRead (waddr : WAddr) (wdata : Word) : Statement (.regRead waddr wdata) := by
  refine ⟨fun _ h => (nomatch h), fun _ _ r e => ?_⟩
  cases e
  simp [Req.isCommand]

theorem regWrite (waddr : WAddr) (wdata : Word) : Statement (.regWrite waddr wdata) := by
  refine ⟨fun _ h => (nomatch h), fun h _ r e => ?_⟩
  cases e
  simpa [Req.isCommand, Instr.wf] using h

theorem cmdNop : Statement .cmdNop := of_command rfl rfl
theorem cmdPrepare : Statement .cmdPrepare := of_command rfl rfl
theorem cmdUpdate : Statement .cmdUpdate := of_command rfl rfl
theorem cmdFlush : Statement .cmdFlush := of_command rfl rfl
theorem cmdRelease : Statement .cmdRelease := of_command rfl rfl
theorem cmdQuery : Statement .cmdQuery := of_command rfl rfl

theorem cmdIllegal (rsv : BitVec 24) (op : BitVec 8) : Statement (.cmdIllegal rsv op) :=
  of_command rfl rfl

theorem process (x : Word) : Statement (.process x) :=
  ⟨fun _ h => (nomatch h), fun _ _ _ e => (nomatch e)⟩

end Sys2Proof.Laws.CommandWord
end

