-- ==== Sys2Proof/Tests/Slice0.lean ====
section
/-!
SUPPORT. Tests: the WellFormed checks on ill-formed terms, decoding of words written out from the
formats of 30_encoding.md, one-step tests with results from 95_test_vectors.md, and for every
obligation with hypotheses a witness that meets them.
-/

namespace Sys2Proof.Tests

-- One theorem at a time: many kernel evaluations at once, each in its own thread, need more memory
-- than the checker gives.
set_option Elab.async false

open Sys2Proof Sys2Proof.Machine Sys2Proof.Claims

/-! ### States the tests start from -/

/-- Reset with the staging registers of the prologue PRO (95_test_vectors.md section 3). -/
def staged : State :=
  { State.reset with stg :=
      { lcSlope := 0#4, hcSlope := 0#4, bypass := 0x7F#7
        fs := 0x472C4400#32, lcFreq := 0x41A00000#32, hcFreq := 0x469C4000#32
        bandFreq := Vector.replicate 5 0x447A0000#32
        bandGain := Vector.replicate 5 0x00000000#32
        bandQ := Vector.replicate 5 0x3F800000#32 } }

/-- The coefficient set of V-F1. -/
def coefF1 : Coefs := ⟨0x3F8195FB#32, 0xBFFCA71F#32, 0x3F767461#32, 0xBFFCA71F#32, 0x3F79A058#32⟩

/-- PREPARED at 44100 Hz with every stage bypassed. -/
def ready : State :=
  { staged with lstate := .prepared, act := { Active.reset with fs := 0x472C4400#32 } }

/-- PREPARED with V-F1 in slot 4 and stage 1 the only active one, as program P1 prepares it. -/
def peaked : State :=
  { ready with act := { ready.act with
      sbyp := #v[true, false, true, true, true, true, true]
      coef := Active.reset.coef.set 4 coefF1 } }

/-- `ready` with the commit of one stage pending. -/
def busy : State :=
  { ready with pend := { Pending.empty with peak := Pending.empty.peak.set 2 (some ⟨coefF1, false⟩) } }

def unprepared : State := staged
def processing : State := { ready with lstate := .processing }
def released : State := { ready with lstate := .released }

/-- A schedule and queues on a state. -/
def scheduled (s : State) (ts : List Turn) (rs : List Req) (xs : List Word) (h : Option Word) :
    State :=
  { s with port := { s.port with turns := ts, ctlIn := rs, smpIn := xs, held := h } }

/-- The state after an instruction. -/
def after (i : Instr) (s : State) : Option State :=
  match exec i s with
  | .next t => some t
  | .fault _ => none
  | .refused _ => none

/-- What a register reads after an instruction. -/
def reads (r : Reg) (i : Instr) (s : State) : Option Word := (after i s).map (fun t => t.readReg r)

/-! ### WellFormed refuses ill-formed terms -/

theorem test_wf_write_to_cmd : Instr.wf (.regWrite 2#10 0#32) = false := by decide
theorem test_wf_legal_word_as_illegal : Instr.wf (.cmdIllegal 0#24 5#8) = false := by decide
theorem test_wf_illegal_words :
    Instr.wf (.cmdIllegal 0#24 6#8) = true ∧ Instr.wf (.cmdIllegal 1#24 2#8) = true := by decide
theorem test_wf_default : Params.default.wf = true := by decide +kernel
theorem test_wf_gain :
    ({ Params.default with gainMax := 0x41500000#32 }).wf = false := by decide +kernel
theorem test_wf_band_zero :
    ({ Params.default with bandMin := Params.default.bandMin.set 2 0x00000000#32 }).wf = false := by
  decide +kernel
theorem test_wf_band_order :
    ({ Params.default with bandMax := Params.default.bandMax.set 4 0x41200000#32 }).wf = false := by
  decide +kernel
theorem test_wf_band_infinite :
    ({ Params.default with bandMax := Params.default.bandMax.set 0 0x7F800000#32 }).wf = false := by
  decide +kernel
theorem test_wf_cut_nan : ({ Params.default with cutMin := 0x7FC00000#32 }).wf = false := by
  decide +kernel
theorem test_wf_clamp_zero : ({ Params.default with fMinHz := 0x80000000#32 }).wf = false := by
  decide +kernel
theorem test_wf_clamp_infinite : ({ Params.default with fMinHz := 0x7F800000#32 }).wf = false := by
  decide +kernel
theorem test_wf_nyquist :
    nyqWf 0x0000000000000000#64 = false ∧ nyqWf 0x3FE0000000000000#64 = false ∧
      nyqWf 0xBFD0000000000000#64 = false ∧ nyqWf 0x7FF8000000000000#64 = false := by
  decide +kernel

/-! ### Decoding, from words written out field by field (R70-R75) -/

-- WE 0, WADDR 0000000101 (FS), WDATA 0.
theorem test_decode_reg_read :
    decodeTableWord 43 0b00000000101_00000000000000000000000000000000 =
      some (.regRead 5#10 0#32) := by decide +kernel
-- WE 1, WADDR 0000000011 (SLOPE), WDATA 0xFFFFFF13: V-R3's request 0x403FFFFFF13.
theorem test_decode_reg_write :
    decodeTableWord 43 0b10000000011_11111111111111111111111100010011 =
      some (.regWrite 3#10 0xFFFFFF13#32) := by decide +kernel
-- WE 1, WADDR 0000000010 (CMD), RSV 0, OP 0 to 5.
theorem test_decode_nop :
    decodeTableWord 43 0b10000000010_000000000000000000000000_00000000 = some .cmdNop := by
  decide +kernel
theorem test_decode_prepare :
    decodeTableWord 43 0b10000000010_000000000000000000000000_00000001 = some .cmdPrepare := by
  decide +kernel
theorem test_decode_update :
    decodeTableWord 43 0b10000000010_000000000000000000000000_00000010 = some .cmdUpdate := by
  decide +kernel
theorem test_decode_flush :
    decodeTableWord 43 0b10000000010_000000000000000000000000_00000011 = some .cmdFlush := by
  decide +kernel
theorem test_decode_release :
    decodeTableWord 43 0b10000000010_000000000000000000000000_00000100 = some .cmdRelease := by
  decide +kernel
theorem test_decode_query :
    decodeTableWord 43 0b10000000010_000000000000000000000000_00000101 = some .cmdQuery := by
  decide +kernel
-- OP 6 is the first reserved opcode; RSV not 0 (V-R16, V-R17).
theorem test_decode_illegal_op :
    decodeTableWord 43 0b10000000010_000000000000000000000000_00000110 =
      some (.cmdIllegal 0#24 6#8) := by decide +kernel
theorem test_decode_illegal_rsv :
    decodeTableWord 43 0x40280000001 = some (.cmdIllegal 0x800000#24 1#8) := by decide +kernel
-- A sample: sign 1, exponent 01111110, fraction 0, which is -0.5.
theorem test_decode_process :
    decodeTableWord 32 0b1_01111110_00000000000000000000000 = some (.process 0xBF000000#32) := by
  decide +kernel
theorem test_decode_errors :
    (match decodeBytes [0, 0, 0, 0, 0, 8] with | .error e => e == .strayBits | .ok _ => false) = true ∧
      (match decodeBytes [0, 0, 0] with | .error e => e == .badLength | .ok _ => false) = true := by
  decide +kernel

/-! ### One step of each transaction (95_test_vectors.md section 2) -/

-- V-R1, V-R20.
theorem test_reg_read :
    (after (.regRead 0#10 0#32) State.reset).map (fun t => t.port.ctlOut) = some [0x544D4551#32] ∧
      (after (.regRead 0xA7#10 0#32) peaked).map (fun t => t.port.ctlOut) = some [0#32] := by
  decide +kernel
-- V-R3, V-R10: ACT_BYPASS at reset is 0x000F0F7F and is not written.
theorem test_reg_write :
    reads .slope (.regWrite 3#10 0xFFFFFF13#32) State.reset = some 0x00000F03#32 ∧
      reads .actBypass (.regWrite 0x1E#10 0#32) State.reset = some 0x000F0F7F#32 := by
  decide +kernel
-- V-R12's second sentence: STATUS 0x702, of bits 8..10 only bit 8 is 1 in the data. The data word
-- V-R12 writes out, 0xFFFFF8FF, has bit 8 at 0, so by R223 it clears nothing (log entry 22).
theorem test_status_write :
    reads .status (.regWrite 1#10 0xFFFFF9FF#32) { processing with err := ⟨true, true, true⟩ } =
      some 0x00000602#32 ∧
    reads .status (.regWrite 1#10 0xFFFFF8FF#32) { processing with err := ⟨true, true, true⟩ } =
      some 0x00000702#32 := by decide +kernel
-- V-L9 and V-U8: NOP changes nothing, and holds while BUSY = 1.
theorem test_nop :
    after .cmdNop ready = some ready ∧
      (after .cmdNop busy).map (fun t => t.port.held) = some (some 0#32) := by decide +kernel
-- V-V1 and V-V20: a bypassed stage's parameters are still validated.
theorem test_prepare :
    reads .status .cmdPrepare staged = some 0x00000001#32 ∧
      reads .status .cmdPrepare
        { staged with stg := { staged.stg with bandQ := staged.stg.bandQ.set 0 0#32 } } =
        some 0x00000100#32 := by decide +kernel
-- V-L8: the sample rate and the delay lines after PREPARE.
theorem test_prepare_latches :
    reads .actFs .cmdPrepare
        { staged with stg := { staged.stg with fs := 0x473B8000#32 } } = some 0x473B8000#32 ∧
      reads (.st1 4) .cmdPrepare { staged with st := Vector.replicate 13 ⟨1#32, 1#32⟩ } =
        some 0#32 := by decide +kernel
-- V-U1 and V-U6: SERR comes before CERR.
theorem test_update :
    reads .status .cmdUpdate ready = some 0x00000005#32 ∧
      reads .status .cmdUpdate { State.reset with stg :=
        { State.reset.stg with fs := 0x472C4400#32 } } = some 0x00000200#32 := by decide +kernel
-- V-L10.
theorem test_flush :
    reads (.st2 12) .cmdFlush { processing with st := Vector.replicate 13 ⟨1#32, 1#32⟩ } =
        some 0#32 ∧
      reads .status .cmdFlush processing = some 0x00000002#32 := by decide +kernel
-- V-L3, V-L5.
theorem test_release :
    reads .status .cmdRelease State.reset = some 0x00000200#32 ∧
      reads .status .cmdRelease released = some 0x00000003#32 := by decide +kernel
-- V-Q1b and V-Q3b: 22050.5 Hz is above ACT_FS/2.
theorem test_query :
    reads .qresult .cmdQuery { ready with qfreq := 0x80000000#32 } = some 0x00000000#32 ∧
      reads .qresult .cmdQuery { peaked with qfreq := 0x46AC4500#32 } = some 0x7FC00000#32 := by
  decide +kernel
-- V-Q2 (program P1): 5.999999 dB at 250 Hz.
theorem test_query_peak :
    reads .qresult .cmdQuery { peaked with qfreq := 0x437A0000#32 } = some 0x40BFFFFF#32 := by
  decide +kernel
-- V-R16.
theorem test_illegal :
    reads .status (.cmdIllegal 1#24 2#8) State.reset = some 0x00000400#32 := by decide +kernel
-- V-C2b, and the first output of program P1.
theorem test_process :
    (after (.process 0x7FC00001#32) State.reset).map (fun t => t.port.smpOut) =
        some [0x7FC00001#32] ∧
      (after (.process 0x3F800000#32) peaked).map (fun t => t.port.smpOut) =
        some [0x3F8195FB#32] := by decide +kernel
theorem test_process_status :
    reads .status (.process 0x3F800000#32) State.reset = some 0x00000200#32 ∧
      reads .status (.process 0x3F800000#32) peaked = some 0x00000002#32 := by decide +kernel

/-! ### The datapath and the factory (95_test_vectors.md sections 2.1, 2.2) -/

-- V-B3, V-B5, V-B8, V-B9c.
theorem test_biquad_signed_zeros :
    biquad ⟨0x3F000000#32, 0x3E800000#32, 0x3E000000#32, 0xBF000000#32, 0x3E800000#32⟩
        ⟨0x80000000#32, 0x80000000#32⟩ 0x80000000#32 =
      (0x80000000#32, ⟨0x80000000#32, 0x00000000#32⟩) := by decide +kernel
theorem test_biquad_overflow :
    biquad ⟨0x40000000#32, 0#32, 0#32, 0#32, 0#32⟩ ⟨0#32, 0#32⟩ 0x7F7FFFFF#32 =
      (0x7F800000#32, ⟨0x7FC00000#32, 0x7FC00000#32⟩) := by decide +kernel
theorem test_biquad_subnormal :
    biquad ⟨0x3F800000#32, 0#32, 0#32, 0#32, 0#32⟩ ⟨0x00800000#32, 0#32⟩ 0x80000001#32 =
      (0x007FFFFF#32, ⟨0x00000000#32, 0x80000000#32⟩) := by decide +kernel
theorem test_biquad_tie :
    (biquad ⟨0x3F800000#32, 0#32, 0#32, 0#32, 0#32⟩ ⟨0x40400000#32, 0#32⟩ 0x4B800000#32).1 =
      0x4B800002#32 := by decide +kernel
-- V-F1, V-F7 (with the clamped frequency).
theorem test_design_peak :
    designPeak Params.default 0x472C4400#32 0x437A0000#32 0x3F800000#32 0x40C00000#32 = coefF1 := by
  decide +kernel
theorem test_design_cut :
    designCut Params.default .lp 0x46FA0000#32 0x469C4000#32 1 0 =
      ⟨0x3F74E004#32, 0x3FF4E004#32, 0x3F74E004#32, 0x3FF4A21B#32, 0x3F6A3BDB#32⟩ := by
  decide +kernel

-- R112 read literally (log entry 8): a low-pass whose `b0` is subnormal, where `b1` is the rounding
-- of twice the binary64 `b0`, not twice the rounded one.
theorem test_design_cut_subnormal :
    let c := designCut Params.default .lp 0x62586078#32 0x41A00000#32 1 0
    c.b2 = c.b0 ∧ c = rf64Cut Params.default .lp 0x62586078#32 0x41A00000#32 1 0 := by
  decide +kernel
-- R111 (log entry 7): a set with P2 and P4 is left as it is, the sign of a zero `b1` included.
theorem test_conform_cut_zero :
    let c : Coefs := ⟨0#32, 0x00000000#32, 0#32, 0x3F800000#32, 0#32⟩
    conformCut .hp c = c ∧ conformCut .hp { c with b1 := 0x80000000#32 } =
      { c with b1 := 0x80000000#32 } := by
  decide +kernel
-- R180, R200 (log entry 23): an UPDATE that held captures the staging registers as they stand when it
-- completes, here with a NaN gain.
theorem test_held_update_captures_late :
    let s := scheduled
      { ready with stg := { ready.stg with bandGain := ready.stg.bandGain.set 0 0x7FC00000#32 } }
      [.control] [] [] (some 2#32)
    (match step s with
      | .next u => u.statusWord
      | .fault _ => 0#32
      | .refused _ => 0#32) = 0x00000101#32 := by
  decide +kernel

/-! ### Witnesses: for every obligation with hypotheses, states and operands that meet them -/

/-- An answer of `exec`. -/
theorem answers (i : Instr) (s : State) (h : (after i s).isSome = true) :
    ∃ t, exec i s = .next t := by
  unfold after at h
  split at h
  · exact ⟨_, by assumption⟩
  · simp at h
  · simp at h

theorem command_idle {s : State} (h : s.busy = false) (w : Word) (f : State → State) :
    s.command w f = .next (f s) := by simp [State.command, h]

theorem witness_DecodeOfEncodeIsIdentity :
    Instr.wf (.regWrite 1#10 0#32) = true ∧ Instr.wf (.regWrite 0x3FF#10 0#32) = true ∧
      Instr.wf (.cmdIllegal 0#24 6#8) = true ∧ Instr.wf (.cmdIllegal 0xFFFFFF#24 0#8) = true := by
  decide

theorem witness_DecoderClassifiesByFirstMatch :
    (0x00200000001#43).getLsbD 42 = false ∧
    (∀ o : Fin 6, let r := BitVec.ofNat 43 (0x40200000000 + o.val)
      r.getLsbD 42 = true ∧ r.extractLsb' 32 10 = 2#10 ∧ r.extractLsb' 8 24 = 0#24 ∧
        r.extractLsb' 0 8 = BitVec.ofNat 8 o.val) ∧
    ((0x40200000006#43).getLsbD 42 = true ∧ (0x40200000006#43).extractLsb' 32 10 = 2#10 ∧
      ¬((0x40200000006#43).extractLsb' 8 24 = 0#24 ∧
        ((0x40200000006#43).extractLsb' 0 8).toNat ≤ 5)) ∧
    (0x40100000001#43).getLsbD 42 = true ∧ (0x40100000001#43).extractLsb' 32 10 ≠ 2#10 := by
  decide +kernel

theorem witness_TableFramesCarryEveryWord :
    2 ^ 43 ≤ 0x80000000000 ∧ 2 ^ 32 ≤ 0x100000000 := by decide +kernel

theorem witness_ReservedOffsetsReadZeroIgnoreWrites :
    ∀ w ∈ [0x0B#10, 0x1B#10, 0x20#10, 0x3F#10, 0x45#10, 0xA7#10, 0xA8#10, 0xBF#10, 0xDA#10, 0x3FF#10],
      ¬namedOffset (BitVec.toNat w) := by
  unfold namedOffset; decide +kernel

theorem witness_RegisterAccessSideEffects :
    (∃ t, exec (.regRead 1#10 0#32) busy = .next t) ∧ Reg.fs ≠ regAt 1#10 ∧
    (∀ a ∈ [0#10, 0x1D#10, 0x1E#10, 0x1F#10, 0x0B#10],
      regAt a ∈ [Reg.id, .qresult, .actBypass, .actFs, .reserved]) ∧
    regAt 0x40#10 = .coef 0 .b0 ∧ regAt 0xA4#10 = .coef 12 .a2 ∧
    regAt 0xC0#10 = .st1 0 ∧ regAt 0xD9#10 = .st2 12 :=
  ⟨answers _ _ (by decide +kernel), by decide +kernel, by decide +kernel, by decide +kernel,
    by decide +kernel, by decide +kernel, by decide +kernel⟩

theorem witness_WordRegistersStoreEveryPattern :
    (∀ a ∈ [5#10, 6#10, 7#10, 0x1C#10], regAt a ∈ [Reg.fs, .lcFreq, .hcFreq, .qfreq]) ∧
    regAt 8#10 = .bandFreq 0 ∧ regAt 0x19#10 = .bandGain 4 ∧ regAt 0x1A#10 = .bandQ 4 ∧
      Reg.slope ≠ regAt 5#10 := by
  decide +kernel

theorem witness_ReadOnlyRegistersReturnState :
    regAt 0#10 = .id ∧ regAt 2#10 = .cmd ∧ regAt 0x1D#10 = .qresult ∧ regAt 0x1E#10 = .actBypass ∧ regAt 0x1F#10 = .actFs ∧
      regAt 0x44#10 = .coef 0 .a2 ∧ regAt 0xD8#10 = .st1 12 ∧ regAt 0xC1#10 = .st2 0 := by
  decide +kernel

theorem witness_ActBypassBits :
    (7 = 7 ∨ (12 ≤ 7 ∧ 7 ≤ 15) ∨ 20 ≤ 7) ∧ (12 = 7 ∨ (12 ≤ 12 ∧ 12 ≤ 15) ∨ 20 ≤ 12) ∧
      (15 = 7 ∨ (12 ≤ 15 ∧ 15 ≤ 15) ∨ 20 ≤ 15) ∧ (20 = 7 ∨ (12 ≤ 20 ∧ 20 ≤ 15) ∨ 20 ≤ 20) := by
  decide

theorem witness_CommandsHoldWhileBusy :
    (commandWord .cmdNop = some 0#32 ∧ busy.busy = true) ∧
    commandWord (.process 0#32) = none ∧
    (let s := scheduled ready [.control] [] [] (some 2#32)
     s.port.held = some 2#32 ∧ s.busy = false ∧ s.port.turns = .control :: []) ∧
    (let s := scheduled busy [.retry] [] [] (some 2#32)
     s.port.held = some 2#32 ∧ s.busy = true ∧ s.port.turns = .retry :: []) := by
  decide +kernel

theorem witness_NopHasNoEffect : ready.busy = false ∧ busy.busy = true := by decide +kernel

theorem witness_PrepareInstallsOrRejects :
    (State.reset.busy = false ∧ validFs State.reset.stg.fs = false) ∧
    (staged.busy = false ∧ validFs staged.stg.fs = true ∧
      validSnap staged.params staged.stg.capture = true) ∧
    staged.params.wf = true := by
  decide +kernel

/-- The ranges of R102 are inclusive: both ends of each are valid, the next pattern is not (V-V7 to
V-V14). -/
theorem test_valid_snapshot_bounds :
    let g := staged.stg.capture
    [0x41A00000#32, 0x469C4000#32].all
        (fun x => validSnap staged.params { g with hcFreq := x }) = true ∧
    [0x419FFFFF#32, 0x469C4001#32].any
        (fun x => validSnap staged.params { g with lcFreq := x }) = false ∧
    [0x41C00000#32, 0xC1C00000#32].all
        (fun x => validSnap staged.params { g with gain := g.gain.set 1 x }) = true ∧
    [0x3DCCCCCD#32, 0x41200000#32].all
        (fun x => validSnap staged.params { g with q := g.q.set 4 x }) = true ∧
    [0x3DCCCCCC#32, 0x41200001#32, 0x7FC00000#32].any
        (fun x => validSnap staged.params { g with q := g.q.set 4 x }) = false := by
  decide +kernel

theorem witness_UpdateSchedulesOrRejects :
    (unprepared.busy = false ∧ unprepared.lstate = .unprepared) ∧
    (released.busy = false ∧ released.lstate = .released) ∧
    (processing.busy = false ∧ processing.lstate = .processing ∧
      validSnap processing.params processing.stg.capture = true) ∧
    (let s := { ready with stg := Staging.reset }
     s.busy = false ∧ s.lstate = .prepared ∧ validSnap s.params s.stg.capture = false) := by
  decide +kernel

theorem witness_FlushClearsDelayLines : processing.busy = false := by decide +kernel

theorem witness_ReleaseEntersReleased :
    (unprepared.busy = false ∧ unprepared.lstate = .unprepared) ∧
      (released.busy = false ∧ released.lstate ≠ .unprepared) := by decide +kernel

theorem witness_IllegalCommandSetsIerr :
    (0#24 ≠ 0#24 ∨ 6 ≤ (6#8).toNat) ∧ (1#24 ≠ 0#24 ∨ 6 ≤ (2#8).toNat) ∧ ready.busy = false := by
  decide +kernel

theorem witness_QueryStoresMagnitude :
    (released.busy = false ∧ released.lstate = .released) ∧
    (ready.busy = false ∧ ready.lstate = .prepared ∧ queryFreqOk ready.qfreq ready.act.fs = true) ∧
    (let s := { processing with qfreq := 0x46AC4500#32 }
     s.busy = false ∧ s.lstate = .processing ∧ queryFreqOk s.qfreq s.act.fs = false) := by
  decide +kernel

theorem witness_QueryFrequencyRange :
    isFinite32 0x472C4400#32 = true ∧ queryFreqOk 0x46AC4400#32 0x472C4400#32 = true ∧
      queryFreqOk 0x46AC4401#32 0x472C4400#32 = false := by decide +kernel

theorem witness_QueryAllBypassedIsZeroDb :
    ready.busy = false ∧ ready.lstate = .prepared ∧ (∀ k : Fin 7, ready.act.sbyp[k] = true) ∧
      queryFreqOk ready.qfreq ready.act.fs = true := by decide +kernel

theorem witness_ProcessFiltersOrPassesThrough :
    unprepared.lstate = .unprepared ∧ released.lstate = .released ∧ ready.lstate = .prepared ∧
      processing.lstate = .processing := by decide

theorem witness_LifecycleTransitions :
    staged.busy = false ∧ (Instr.cmdQuery = .cmdUpdate ∨ Instr.cmdQuery = .cmdQuery) ∧
      unprepared.lstate.isReady = false ∧
      ∃ r o, Instr.cmdIllegal 1#24 0#8 = .cmdIllegal r o :=
  ⟨by decide +kernel, by decide, by decide, _, _, rfl⟩

theorem witness_ErrorsAreExactAndPrecise :
    (commandWord .cmdFlush = some 3#32 ∧ busy.busy = true) ∧
    (unprepared.busy = false ∧ rejection .cmdUpdate unprepared = some .serr) ∧
    (ready.busy = false ∧ rejection .cmdRelease unprepared = some .serr ∧
      rejection .cmdQuery released = some .serr ∧ rejection .cmdPrepare State.reset = some .cerr ∧
      rejection (.cmdIllegal 1#24 2#8) ready = some .ierr) ∧
    rejection .cmdUpdate { ready with stg := Staging.reset } = some .cerr ∧
    rejection (.process 1#32) released = some .serr ∧ rejection .cmdUpdate ready = none ∧
    rejection (.regWrite 3#10 0#32) ready = none ∧ regAt 3#10 ≠ .status := by
  decide +kernel

theorem witness_ErrorBitsAreSticky :
    (∃ t, exec (.regWrite 3#10 0#32) { ready with err := ⟨true, true, true⟩ } = .next t) ∧
    regAt 3#10 ≠ .status ∧ (0x00000600#32).getLsbD 8 = false ∧
    (0x00000500#32).getLsbD 9 = false ∧ (0x00000300#32).getLsbD 10 = false ∧
    ∃ t, runTurn (.commit 0) busy = .next t :=
  ⟨answers _ _ (by decide +kernel), by decide, by decide, by decide, by decide, _, rfl⟩

theorem witness_StateElementWriters :
    (∃ t, exec .cmdRelease ready = .next t ∧ t.lstate ≠ ready.lstate) ∧
    (∃ t, exec (.regWrite 5#10 1#32) ready = .next t ∧ t.stg ≠ ready.stg) ∧
    (∃ t, exec (.regWrite 0x1C#10 1#32) ready = .next t ∧ t.qfreq ≠ ready.qfreq) ∧
    (∃ t, exec .cmdUpdate ready = .next t ∧ t.pend.any ≠ ready.pend.any) ∧
    (∃ t, exec .cmdPrepare unprepared = .next t ∧ t.act.fs ≠ unprepared.act.fs) ∧
    ∃ t, exec .cmdQuery { ready with qfreq := 0x7FC00000#32 } = .next t ∧
      t.qresult ≠ ready.qresult := by
  have idle : ready.busy = false := by decide +kernel
  exact ⟨⟨_, command_idle idle 4#32 State.release, by decide⟩, ⟨_, rfl, by decide +kernel⟩,
    ⟨_, rfl, by decide +kernel⟩, ⟨_, command_idle idle 2#32 State.update, by decide +kernel⟩,
    ⟨_, command_idle (s := unprepared) idle 1#32 State.prepare, by decide +kernel⟩,
    ⟨_, command_idle (s := { ready with qfreq := 0x7FC00000#32 }) idle 5#32 State.query,
      by decide +kernel⟩⟩

theorem witness_DelayLineWriters :
    (∃ t, exec (.process 1#32) peaked = .next t) ∧ Instr.process 1#32 ≠ .cmdPrepare ∧
      Instr.process 1#32 ≠ .cmdFlush ∧ peaked.act.slotActive 3 = false ∧
      peaked.act.slotActive 4 = true ∧ peaked.act.slotActive 12 = false ∧
      ∃ t, runTurn (.commit 0) busy = .next t :=
  ⟨answers _ _ (by decide +kernel), by decide, by decide, by decide +kernel, by decide +kernel,
    by decide +kernel, _, rfl⟩

theorem witness_AllBypassedPassesSamplesThrough :
    processing.lstate = .processing ∧ ∀ k : Fin 7, processing.act.sbyp[k] = true := by decide

theorem witness_SilenceStaysSilent :
    coefF1.finite = true ∧ (∀ j : Fin 13, peaked.act.coef[j].finite = true) ∧
      (∀ j : Fin 13, restful peaked.st[j]) ∧ isZero 0x80000000#32 := by
  refine ⟨by decide +kernel, by decide +kernel, ?_, ?_⟩
  · unfold restful isZero; decide +kernel
  · unfold isZero; decide

theorem witness_NaNPoisonsTheDelayLine :
    isNaN (Delay.mk 0x7FC00000#32 0#32).s1 ∧ [1#32] ≠ [] ∧
      isNaN (biquad coefF1 Delay.zero 0x7FC00001#32).1 ∧ isNaN (Delay.mk 0#32 0xFFC00001#32).s2 := by
  unfold isNaN; decide +kernel

theorem witness_ArithmeticRoundsOnce :
    isFinite32 0x7F7FFFFF#32 = true ∧ isFinite32 0x80000001#32 = true ∧
    (¬isNaN (add32 0x7F800000#32 0x80000001#32) ∧ 0x7F800000#32 = infWord false) ∧
    (¬isNaN (sub32 0x3F800000#32 0x7F800000#32) ∧ 0x7F800000#32 = infWord (!true)) ∧
    (¬isNaN (mul32 0xFF800000#32 0x80000001#32) ∧ 0xFF800000#32 = infWord true) ∧
    ¬isNaN (mul32 0x80000001#32 0xFF800000#32) := by
  unfold isNaN; decide +kernel

theorem witness_NaNResultsAreCanonical :
    isNaN (add32 0x7F800000#32 0xFF800000#32) ∧ isNaN (sub32 0x7F800000#32 0x7F800000#32) ∧
      isNaN (mul32 0x80000000#32 0x7F800000#32) := by
  unfold isNaN; decide +kernel

theorem witness_ZeroResultSigns :
    isFinite32 0x7F7FFFFF#32 = true ∧ isZero (mul32 0x80000000#32 0x3F800000#32) ∧
    (isFinite32 0x3F800000#32 = true ∧ isFinite32 0xBF800000#32 = true ∧
      rat32 0x3F800000#32 + rat32 0xBF800000#32 = 0) ∧
    (isFinite32 0x80000000#32 = true ∧ rat32 0x80000000#32 + rat32 0x80000000#32 = 0) ∧
    rat32 0x80000000#32 - rat32 0x00000000#32 = 0 ∧
    rat32 0xBF800000#32 - rat32 0xBF800000#32 = 0 := by
  unfold isZero; decide +kernel

theorem witness_ComparisonsFollowRealValues : isNaN 0xFFC00001#32 := by
  unfold isNaN; decide +kernel

/-- Both kinds of profile; under RF64 a finite peak set, and a finite cut set whose `b0` is above the
least normal value. -/
theorem witness_FactorySetsAreFiniteAndStructured :
    ({ Params.default with factory := .other 0 }).factory ≠ .reference ∧
    Params.default.factory = .reference ∧
    (rf64Peak Params.default 0x472C4400#32 0x437A0000#32 0x3F800000#32 0x40C00000#32).finite = true ∧
    (rf64Cut Params.default .lp 0x46FA0000#32 0x469C4000#32 1 0).finite = true ∧
    1 / 2 ^ 126 < |rat32 (designCut Params.default .lp 0x46FA0000#32 0x469C4000#32 1 0).b0| := by
  decide +kernel

/-- The hypotheses of the statements about exact designs: a well-formed configuration, a valid
sample rate, a Q at either end of its range, the first and the last section. -/
theorem witness_exact_designs :
    Params.default.wf = true ∧ validFs 0x472C4400#32 = true ∧ validFs 0x00000001#32 = true ∧
      inRange qMin qMax qMin = true ∧ inRange qMin qMax qMax = true ∧
      (1 ≤ 1 ∧ 1 ≤ 4 ∧ 0 < 1) ∧ (1 ≤ 4 ∧ 4 ≤ 4 ∧ 3 < 4) := by
  decide +kernel

/-- `peaked` with another set in its one active slot; its QFREQ is 0. -/
def queried (c : Coefs) : State :=
  { peaked with act := { peaked.act with coef := Active.reset.coef.set 4 c } }

/-- At frequency 0 the response's polynomials are sums. -/
theorem polyAt_zero (fs : Word) (x0 x1 x2 : ℝ) : polyAt 0#32 fs x0 x1 x2 = x0 + x1 + x2 := by
  have h0 : real32 0#32 = 0 := by
    have : rat32 0#32 = 0 := by decide +kernel
    simp [real32, this]
  simp [polyAt, angular, realArith, h0]

theorem queried_null (c : Coefs) :
    HasNull (queried c).act 0#32 ↔ (real32 c.b0 : ℂ) + real32 c.b1 + real32 c.b2 = 0 := by
  have h : ∀ j, (queried c).act.slotActive j = true ↔ j = 4 := by
    have h : ∀ j, peaked.act.slotActive j = true ↔ j = 4 := by decide +kernel
    exact h
  have hc : (queried c).act.coef[(4 : Fin 13)] = c := rfl
  simp only [HasNull, h, polyAt_zero]
  constructor
  · rintro ⟨j, rfl, e⟩
    rwa [hc] at e
  · exact fun e => ⟨4, rfl, by rwa [hc]⟩

theorem queried_pole (c : Coefs) :
    HasPole (queried c).act 0#32 ↔ (1 : ℂ) + real32 c.a1 + real32 c.a2 = 0 := by
  have h : ∀ j, (queried c).act.slotActive j = true ↔ j = 4 := by
    have h : ∀ j, peaked.act.slotActive j = true ↔ j = 4 := by decide +kernel
    exact h
  have hc : (queried c).act.coef[(4 : Fin 13)] = c := rfl
  simp only [HasPole, h, polyAt_zero]
  constructor
  · rintro ⟨j, rfl, e⟩
    rw [hc] at e; exact_mod_cast e
  · exact fun e => ⟨4, rfl, by rw [hc]; exact_mod_cast e⟩

/-- Sets whose numerator `1 - 2z + z^2`, or whose denominator, vanishes at frequency 0: both, one,
the other, neither. -/
theorem witness_NullsAreDecidedExactly_kinds :
    let bp : Coefs := ⟨0x3F800000#32, 0xC0000000#32, 0x3F800000#32, 0xC0000000#32, 0x3F800000#32⟩
    let b : Coefs := { bp with a1 := 0#32, a2 := 0#32 }
    let p : Coefs := { bp with b1 := 0#32, b2 := 0#32 }
    let n : Coefs := { p with a1 := 0#32, a2 := 0#32 }
    (HasNull (queried bp).act 0#32 ∧ HasPole (queried bp).act 0#32) ∧
    (HasNull (queried b).act 0#32 ∧ ¬HasPole (queried b).act 0#32) ∧
    (¬HasNull (queried p).act 0#32 ∧ HasPole (queried p).act 0#32) ∧
    (¬HasNull (queried n).act 0#32 ∧ ¬HasPole (queried n).act 0#32) ∧
    ∀ c ∈ [bp, b, p, n], (queried c).busy = false ∧ (queried c).lstate = .prepared ∧
      validFs (queried c).act.fs = true ∧
      (∀ j : Fin 13, (queried c).act.slotActive j = true →
        (queried c).act.coef[j].finite = true) ∧
      queryFreqOk (queried c).qfreq (queried c).act.fs = true := by
  have h1 : real32 0x3F800000#32 = 1 := by
    have : rat32 0x3F800000#32 = 1 := by decide +kernel
    simp [real32, this]
  have h2 : real32 0xC0000000#32 = -2 := by
    have : rat32 0xC0000000#32 = -2 := by decide +kernel
    simp [real32, this]
  have h0 : real32 0#32 = 0 := by
    have : rat32 0#32 = 0 := by decide +kernel
    simp [real32, this]
  simp only [queried_null, queried_pole, h0, h1, h2]
  refine ⟨?_, ?_, ?_, ?_, by decide +kernel⟩ <;> norm_num

/-- What QUERY gives for them (R165): NaN, -inf and +inf. -/
theorem test_query_kinds :
    let bp : Coefs := ⟨0x3F800000#32, 0xC0000000#32, 0x3F800000#32, 0xC0000000#32, 0x3F800000#32⟩
    reads .qresult .cmdQuery (queried bp) = some 0x7FC00000#32 ∧
    reads .qresult .cmdQuery (queried { bp with a1 := 0#32, a2 := 0#32 }) = some 0xFF800000#32 ∧
    reads .qresult .cmdQuery (queried { bp with b1 := 0#32, b2 := 0#32 }) = some 0x7F800000#32 := by
  decide +kernel

theorem witness_NullsAreDecidedExactly :
    validFs 0x472C4400#32 = true ∧ queryFreqOk 0x46AC4400#32 0x472C4400#32 = true ∧
      queryFreqOk 0x00000000#32 0x472C4400#32 = true ∧ isFinite32 coefF1.b0 = true ∧
      isFinite32 coefF1.b1 = true ∧ isFinite32 coefF1.b2 = true := by
  decide +kernel

theorem witness_CommitInstallsOnePendingStage :
    busy.busy = true ∧ busy.pend.has (.peak 2) = true ∧ ready.busy = false ∧
      Stage.highCut ≠ .peak 2 := by decide +kernel

theorem witness_StagesAreOldOrNewNeverMixed :
    ready.busy = false ∧ ready.lstate.isReady = true ∧
      validSnap ready.params ready.stg.capture = true ∧ ∃ t, exec .cmdUpdate ready = .next t :=
  ⟨by decide +kernel, by decide, by decide +kernel, answers _ _ (by decide +kernel)⟩

theorem witness_UpdateInstallsInAnyOrder :
    ready.busy = false ∧ ready.lstate.isReady = true ∧
      validSnap ready.params ready.stg.capture = true ∧ [6, 0, 3, 1, 2, 0, 0].length = 7 := by
  decide +kernel

theorem witness_EveryUpdateCompletes :
    let ts : List Turn := [.commit 6, .sample, .commit 0, .commit 3, .control, .commit 1, .commit 2,
      .commit 0, .commit 0]
    (scheduled busy ts [] [] none).port.turns = ts ∧
      7 ≤ (ts.filter (fun t => match t with | .commit _ => true | _ => false)).length := by
  decide

theorem witness_ResetEventFromAnyState :
    (scheduled busy [.reset] [] [] (some 0#32)).port.turns = .reset :: [] := by decide

theorem witness_StepPerformsTheDecodedTransaction :
    (let s := scheduled ready [.control] [0x40200000002#43] [] none
     s.port.turns = .control :: [] ∧ s.port.held = none ∧ s.port.ctlIn = 0x40200000002#43 :: []) ∧
    (let s := scheduled ready [.sample] [] [1#32] none
     s.port.turns = .sample :: [] ∧ s.port.smpIn = 1#32 :: []) ∧
    (let s := scheduled busy [.control] [0x00100000000#43] [] (some 0#32)
     s.port.turns = .control :: [] ∧ s.port.held = some 0#32 ∧ s.busy = true ∧
       s.port.ctlIn = 0x00100000000#43 :: []) ∧
    (let s := scheduled ready [.control] [] [] none
     s.port.turns = .control :: [] ∧ s.port.held = none ∧ s.port.ctlIn = []) := by
  decide +kernel

theorem witness_PlacedWordIsPerformedNext :
    decodeTableWord 43 0x40200000003 = some .cmdFlush ∧
      decodeTableWord 32 0x3F800000 = some (.process 0x3F800000#32) := by decide +kernel

/-- A state of the invariant, and a step from it. -/
theorem witness_EveryStepKeepsTheInvariant :
    let s := scheduled State.reset [.sample] [] [0x3F800000#32] none
    s.Inv ∧ ∃ t, step s = .next t :=
  ⟨⟨by decide +kernel, by decide, by decide, by decide, fun _ => ⟨rfl, rfl⟩,
    fun h => absurd rfl h, by decide⟩, _, rfl⟩

end Sys2Proof.Tests
end

section
/-!
SUPPORT. The values that patterns stand for, in any format, and rounding to the nearest of them: the
exponent is taken as unbounded first (`roundPat`), and the overflow to an infinity follows from that.
-/

namespace Sys2Proof.Machine

/-! ### Patterns without a sign -/

/-- The magnitude, in units, that the pattern `p` without a sign stands for, where `p` is finite; the
patterns from `infPat` on continue the scale as if the exponent had no bound. -/
def patMag (F : FloatFmt) (p : Nat) : Nat :=
  if p / 2 ^ F.fracBits = 0 then p % 2 ^ F.fracBits
  else (2 ^ F.fracBits + p % 2 ^ F.fracBits) * 2 ^ (p / 2 ^ F.fracBits - 1)

/-- A significand `k` at the shift `sh`: normalised unless `sh` is 0, and at most the significand
that carries into the exponent. -/
structure Significand (F : FloatFmt) (sh k : Nat) : Prop where
  normal : sh = 0 ∨ 2 ^ F.fracBits ≤ k
  le : k ≤ 2 * 2 ^ F.fracBits

theorem patMag_of_significand {F : FloatFmt} {sh k : Nat} (h : Significand F sh k) :
    patMag F (sh * 2 ^ F.fracBits + k) = k * 2 ^ sh := by
  obtain ⟨hn, hle⟩ := h
  have hpos : 0 < 2 ^ F.fracBits := by positivity
  unfold patMag
  generalize 2 ^ F.fracBits = B at *
  rcases lt_or_ge k B with hk | hk
  · obtain rfl : sh = 0 := by omega
    simp [Nat.div_eq_of_lt hk, Nat.mod_eq_of_lt hk]
  · rcases lt_or_eq_of_le hle with hk2 | rfl
    · have e : sh * B + k = (k - B) + B * (sh + 1) := by
        rw [Nat.mul_add, Nat.mul_comm]; omega
      have hlt : k - B < B := by omega
      rw [e, Nat.add_mul_div_left _ _ hpos, Nat.add_mul_mod_self_left, Nat.div_eq_of_lt hlt,
        Nat.mod_eq_of_lt hlt]
      simp [Nat.add_sub_of_le hk]
    · have e : sh * B + 2 * B = 0 + B * (sh + 2) := by ring
      rw [e, Nat.add_mul_div_left _ _ hpos, Nat.add_mul_mod_self_left]
      simp [pow_succ]; ring

/-- Every pattern is a shift and a significand below the carry. -/
theorem exists_significand (F : FloatFmt) (p : Nat) :
    ∃ sh k, p = sh * 2 ^ F.fracBits + k ∧ k < 2 * 2 ^ F.fracBits ∧ Significand F sh k := by
  have hpos : 0 < 2 ^ F.fracBits := by positivity
  have hm := Nat.mod_lt p hpos
  have hd := Nat.div_add_mod p (2 ^ F.fracBits)
  rcases Nat.eq_zero_or_pos (p / 2 ^ F.fracBits) with h0 | h0
  · refine ⟨0, p % 2 ^ F.fracBits, ?_, by omega, .inl rfl, by omega⟩
    simpa [h0] using hd.symm
  · obtain ⟨e, he⟩ := Nat.exists_eq_add_of_le' h0
    refine ⟨e, 2 ^ F.fracBits + p % 2 ^ F.fracBits, ?_, by omega, .inr (by omega), by omega⟩
    rw [he] at hd
    linarith

theorem patMag_strictMono (F : FloatFmt) : StrictMono (patMag F) := by
  refine strictMono_nat_of_lt_succ fun p => ?_
  obtain ⟨sh, k, rfl, hlt, hs⟩ := exists_significand F p
  have hnext : Significand F sh (k + 1) := ⟨hs.normal.imp_right fun h => by omega, by omega⟩
  rw [patMag_of_significand hs, Nat.add_assoc, patMag_of_significand hnext]
  exact Nat.mul_lt_mul_of_pos_right (Nat.lt_succ_self k) (by positivity)

@[simp] theorem patMag_zero (F : FloatFmt) : patMag F 0 = 0 := by simp [patMag]

@[simp] theorem patMag_eq_zero {F : FloatFmt} {p : Nat} : patMag F p = 0 ↔ p = 0 := by
  rw [← (patMag_strictMono F).injective.eq_iff (a := p), patMag_zero]

/-- A representable magnitude is a multiple of the spacing `2 ^ sh`, or below the binade in which
that is the spacing. -/
theorem patMag_lt_or_dvd (F : FloatFmt) (p sh : Nat) :
    patMag F p < 2 ^ F.fracBits * 2 ^ sh ∨ 2 ^ sh ∣ patMag F p := by
  obtain ⟨sh', k, rfl, hlt, hs⟩ := exists_significand F p
  rw [patMag_of_significand hs]
  rcases lt_or_ge sh' sh with h | h
  · left
    calc k * 2 ^ sh' < 2 * 2 ^ F.fracBits * 2 ^ sh' :=
          Nat.mul_lt_mul_of_pos_right hlt (by positivity)
      _ = 2 ^ F.fracBits * 2 ^ (sh' + 1) := by ring
      _ ≤ 2 ^ F.fracBits * 2 ^ sh := Nat.mul_le_mul_left _ (Nat.pow_le_pow_right (by omega) h)
  · exact .inr (Dvd.dvd.mul_left (pow_dvd_pow 2 h) k)

/-! ### Division with ties to even -/

/-- The rounded quotient `k` is within 1/2 of the exact one, and even at a tie. -/
theorem abs_sub_divRNE_le (num den : Nat) (hden : 0 < den) :
    |(num / den : ℚ) - divRNE num den| ≤ 1 / 2 ∧
      (|(num / den : ℚ) - divRNE num den| = 1 / 2 → 2 ∣ divRNE num den) := by
  have hd : (0 : ℚ) < den := by exact_mod_cast hden
  have hx : (num / den : ℚ) = (num / den : ℕ) + (num % den : ℕ) / den := by
    rw [eq_comm, add_div' _ _ _ hd.ne']
    congr 1
    exact_mod_cast Nat.div_add_mod' num den
  have hr0 : (0 : ℚ) ≤ (num % den : ℕ) / den := by positivity
  have hr1 : ((num % den : ℕ) / den : ℚ) < 1 := by
    rw [div_lt_one hd]; exact_mod_cast Nat.mod_lt num hden
  have low : 2 * (num % den) < den ↔ ((num % den : ℕ) / den : ℚ) < 1 / 2 := by
    rw [div_lt_div_iff₀ hd two_pos, one_mul, mul_comm]; norm_cast
  have high : den < 2 * (num % den) ↔ 1 / 2 < ((num % den : ℕ) / den : ℚ) := by
    rw [div_lt_div_iff₀ two_pos hd, one_mul, mul_comm _ (2 : ℚ)]; norm_cast
  unfold divRNE
  dsimp only
  simp only [hx, low, high]
  generalize ((num % den : ℕ) / den : ℚ) = ρ at *
  generalize num / den = q
  split_ifs with h1 h2
  · rw [add_sub_cancel_left, abs_of_nonneg hr0]
    exact ⟨h1.le, fun h => absurd h h1.ne⟩
  · push_cast
    rw [abs_of_nonpos (by linarith)]
    exact ⟨by linarith, fun h => absurd h (by linarith)⟩
  · have hρ : ρ = 1 / 2 := by linarith
    subst hρ
    rcases Nat.mod_two_eq_zero_or_one q with hq | hq <;> rw [hq] <;> push_cast
    · norm_num; omega
    · norm_num [abs_le]; omega

/-- `z` is no nearer to `x` than `k` is, and if it is another value as near then `even` holds: what
roundTiesToEven asks of its result `k` against each other candidate `z` (R9). -/
def NearestEven (x k : ℚ) (even : Prop) (z : ℚ) : Prop :=
  |x - k| ≤ |x - z| ∧ (|x - k| = |x - z| → z = k ∨ even)

/-- No whole number is nearer to the exact quotient than the rounded one, which is even if another
is as near. -/
theorem divRNE_nearest (num den : Nat) (hden : 0 < den) (j : ℤ) :
    NearestEven (num / den) (divRNE num den) (2 ∣ divRNE num den) j := by
  obtain ⟨hle, htie⟩ := abs_sub_divRNE_le num den hden
  by_cases hj : j = divRNE num den
  · subst hj; simp [NearestEven]
  have h1 : (1 : ℚ) ≤ |(divRNE num den : ℚ) - j| := by
    exact_mod_cast Int.one_le_abs (sub_ne_zero.mpr (Ne.symm hj))
  have h2 := abs_sub_le (divRNE num den : ℚ) (num / den) j
  rw [abs_sub_comm (divRNE num den : ℚ) (num / den)] at h2
  exact ⟨by linarith, fun h => .inr (htie (by linarith))⟩

theorem div_le_divRNE (num den : Nat) :
    num / den ≤ divRNE num den ∧ divRNE num den ≤ num / den + 1 := by
  unfold divRNE
  dsimp only
  split_ifs <;> omega

/-! ### Rounding to a pattern -/

/-- The binade's shift that `roundMag` rounds at. -/
def roundShift (F : FloatFmt) (num den : Nat) : Nat := Nat.log2 (num / den) - F.fracBits

/-- The pattern `roundMag` finds before it bounds it by `+inf`. -/
def roundPat (F : FloatFmt) (num den : Nat) : Nat :=
  roundShift F num den * 2 ^ F.fracBits + divRNE num (den * 2 ^ roundShift F num den)

theorem roundMag_eq_min (F : FloatFmt) (num den : Nat) :
    roundMag F num den = min (roundPat F num den) F.infPat := rfl

theorem roundMag_le (F : FloatFmt) (num den : Nat) : roundMag F num den ≤ F.infPat :=
  Nat.min_le_right _ _

/-- Where the shift is not 0, the exact value is at or above the binade's least. -/
theorem le_div_of_roundShift_ne_zero {F : FloatFmt} {num den : Nat}
    (h : roundShift F num den ≠ 0) :
    2 ^ F.fracBits * 2 ^ roundShift F num den ≤ num / den := by
  have hq : num / den ≠ 0 := by
    intro h0; simp [roundShift, h0, Nat.log2_zero] at h
  rw [← pow_add, show F.fracBits + roundShift F num den = Nat.log2 (num / den) by
    unfold roundShift at *; omega]
  exact Nat.log2_self_le hq

theorem roundPat_significand (F : FloatFmt) (num den : Nat) :
    Significand F (roundShift F num den) (divRNE num (den * 2 ^ roundShift F num den)) := by
  obtain ⟨hlo, hhi⟩ := div_le_divRNE num (den * 2 ^ roundShift F num den)
  rw [← Nat.div_div_eq_div_mul] at hlo hhi
  constructor
  · refine or_iff_not_imp_left.mpr fun h => le_trans ?_ hlo
    exact (Nat.le_div_iff_mul_le (by positivity)).mpr (le_div_of_roundShift_ne_zero h)
  · have hlt : num / den / 2 ^ roundShift F num den < 2 * 2 ^ F.fracBits := by
      rw [Nat.div_lt_iff_lt_mul (by positivity), ← pow_succ', ← pow_add]
      exact lt_of_lt_of_le Nat.lt_log2_self
        (Nat.pow_le_pow_right two_pos (by unfold roundShift; omega))
    omega

theorem patMag_roundPat (F : FloatFmt) (num den : Nat) :
    patMag F (roundPat F num den) =
      divRNE num (den * 2 ^ roundShift F num den) * 2 ^ roundShift F num den :=
  patMag_of_significand (roundPat_significand F num den)

/-- No whole multiple of the spacing is nearer to `num / den` than the value of its rounded pattern,
which is even if another is as near. -/
theorem roundPat_nearest_multiple (F : FloatFmt) (hF : 0 < F.fracBits) (num den : Nat)
    (hden : 0 < den) (j : ℤ) :
    NearestEven (num / den) (patMag F (roundPat F num den)) (2 ∣ roundPat F num den)
      (j * 2 ^ roundShift F num den) := by
  rw [patMag_roundPat]
  unfold roundPat
  generalize roundShift F num den = sh
  have hpos : (0 : ℚ) < 2 ^ sh := by positivity
  obtain ⟨hle, htie⟩ := divRNE_nearest num (den * 2 ^ sh) (by positivity) j
  have scale : ∀ z : ℚ, |(num / den : ℚ) - z * 2 ^ sh| =
      |(num / (den * 2 ^ sh : ℕ) : ℚ) - z| * 2 ^ sh := by
    intro z
    rw [← abs_of_pos hpos, ← abs_mul, abs_of_pos hpos]
    congr 1
    have : (den : ℚ) ≠ 0 := by positivity
    push_cast
    field_simp
  unfold NearestEven
  push_cast
  rw [scale, scale]
  refine ⟨mul_le_mul_of_nonneg_right hle hpos.le, fun h => ?_⟩
  refine (htie (mul_right_cancel₀ hpos.ne' h)).imp (fun h => by rw [h]) fun h => ?_
  exact (Dvd.dvd.mul_left (dvd_pow_self 2 hF.ne') sh).add h

/-- A value below the binade of `num / den` is strictly further away than the rounded pattern's: the
binade's least value lies between it and `num / den`. -/
theorem roundPat_nearer_than_below {F : FloatFmt} (hF : 0 < F.fracBits) {num den : Nat}
    (hden : 0 < den) (h0 : roundShift F num den ≠ 0) {z : ℚ}
    (hz : z < 2 ^ F.fracBits * 2 ^ roundShift F num den) :
    |(num / den : ℚ) - patMag F (roundPat F num den)| < |(num / den : ℚ) - z| := by
  have hleast := (roundPat_nearest_multiple F hF num den hden (2 ^ F.fracBits)).1
  have hx : (2 ^ F.fracBits * 2 ^ roundShift F num den : ℚ) ≤ num / den :=
    calc (2 ^ F.fracBits * 2 ^ roundShift F num den : ℚ)
        = (2 ^ F.fracBits * 2 ^ roundShift F num den : ℕ) := by push_cast; rfl
      _ ≤ (num / den : ℕ) := Nat.cast_le.mpr (le_div_of_roundShift_ne_zero h0)
      _ ≤ num / den := Nat.cast_div_le
  push_cast at hleast
  rw [abs_of_nonneg (sub_nonneg.mpr hx)] at hleast
  rw [abs_of_pos (a := _ - z) (by linarith)]
  linarith

theorem signedMag_le (s : Bool) (m : Nat) : signedMag s m ≤ m := by
  cases s <;> simp [signedMag]

theorem dvd_signedMag {d : ℤ} {m : Nat} (s : Bool) (h : d ∣ m) : d ∣ signedMag s m := by
  cases s
  · exact h
  · exact h.neg_right

/-- No representable value of either sign is nearer to `num / den` than the value of its rounded
pattern, which is even if another is as near (R9, the exponent unbounded). -/
theorem roundPat_nearest (F : FloatFmt) (hF : 0 < F.fracBits) (num den : Nat) (hden : 0 < den)
    (s : Bool) (p : Nat) :
    NearestEven (num / den) (patMag F (roundPat F num den)) (2 ∣ roundPat F num den)
      (signedMag s (patMag F p)) := by
  by_cases hdvd : 2 ^ roundShift F num den ∣ patMag F p
  · obtain ⟨j, hj⟩ : (2 ^ roundShift F num den : ℤ) ∣ signedMag s (patMag F p) :=
      dvd_signedMag s (by exact_mod_cast hdvd)
    rw [hj, mul_comm]
    exact_mod_cast roundPat_nearest_multiple F hF num den hden j
  · have h0 : roundShift F num den ≠ 0 := fun h0 => hdvd (by simp [h0])
    have hlt := (patMag_lt_or_dvd F p (roundShift F num den)).resolve_right hdvd
    have hz : (signedMag s (patMag F p) : ℚ) < 2 ^ F.fracBits * 2 ^ roundShift F num den := by
      exact_mod_cast (signedMag_le s _).trans_lt (by exact_mod_cast hlt)
    have hgap := roundPat_nearer_than_below hF hden h0 hz
    exact ⟨hgap.le, fun h => absurd h hgap.ne⟩

/-- The least magnitude that rounds to an infinity: halfway from the greatest finite one to the next
on the scale. -/
def halfway (F : FloatFmt) : ℚ := (patMag F (F.infPat - 1) + patMag F F.infPat) / 2

/-- The rounded pattern is finite exactly below the overflow threshold; the threshold itself is a
tie, which goes to the even pattern, the infinity's (R9). -/
theorem roundPat_lt_infPat_iff (F : FloatFmt) (hF : 0 < F.fracBits) (hE : 0 < F.infPat)
    (num den : Nat) (hden : 0 < den) :
    roundPat F num den < F.infPat ↔ (num / den : ℚ) < halfway F := by
  have mono := patMag_strictMono F
  have hlast : (patMag F (F.infPat - 1) : ℚ) < patMag F F.infPat := by
    exact_mod_cast mono (by omega)
  unfold halfway
  constructor
  · intro hlt
    by_contra! hx
    obtain ⟨hle, htie⟩ := roundPat_nearest F hF num den hden false F.infPat
    have hK : (patMag F (roundPat F num den) : ℚ) ≤ patMag F (F.infPat - 1) := by
      exact_mod_cast mono.monotone (by omega)
    simp only [signedMag, Bool.false_eq_true, if_false, Int.cast_natCast] at hle htie
    rw [abs_of_nonneg (by linarith)] at hle htie
    have htie' : (num / den : ℚ) - patMag F (roundPat F num den) =
        patMag F F.infPat - num / den := by
      rcases abs_cases ((num / den : ℚ) - patMag F F.infPat) with h | h <;> linarith
    have hlargest : patMag F (roundPat F num den) = patMag F (F.infPat - 1) := by
      exact_mod_cast (by linarith : (patMag F (roundPat F num den) : ℚ) = patMag F (F.infPat - 1))
    have hinf : 2 ∣ F.infPat := Dvd.dvd.mul_left (dvd_pow_self 2 hF.ne') _
    rcases htie (by rw [abs_of_nonpos (by linarith)]; linarith) with h | h
    · exact absurd (mono.injective (by exact_mod_cast h)) hlt.ne'
    · have := mono.injective hlargest
      omega
  · intro hx
    by_contra! hge
    have hK : (patMag F F.infPat : ℚ) ≤ patMag F (roundPat F num den) := by
      exact_mod_cast mono.monotone hge
    have hle := (roundPat_nearest F hF num den hden false (F.infPat - 1)).1
    simp only [signedMag, Bool.false_eq_true, if_false, Int.cast_natCast] at hle
    rw [abs_of_nonpos (by linarith), le_abs] at hle
    rcases hle with h | h <;> linarith

end Sys2Proof.Machine
end

section
/-!
SUPPORT. Binary32 words as a sign and a pattern, and `roundMag` as rounding once (R9).
-/

namespace Sys2Proof.Machine

/-! ### Words as a sign and a pattern -/

theorem signedMag_cast (s : Bool) (m : Nat) :
    (signedMag s m : ℚ) = (if s then -1 else 1) * (m : ℚ) := by
  cases s <;> simp [signedMag]

/-- Reading back a pattern with a sign. -/
theorem unpack_withSign (F : FloatFmt) (s : Bool) {p : Nat} (hp : p < F.signBit) :
    unpack F (withSign F s p) =
      if p < F.infPat then .fin s (patMag F p) else if p = F.infPat then .inf s else .nan := by
  have hB : 0 < 2 ^ F.fracBits := by positivity
  have hsplit : F.signBit = 2 ^ F.fracBits * 2 ^ F.expBits := pow_add ..
  have hle : p / 2 ^ F.fracBits < 2 ^ F.expBits := Nat.div_lt_of_lt_mul (hsplit ▸ hp)
  have hsign : (withSign F s p).testBit (F.fracBits + F.expBits) = s := by
    cases s
    · exact Nat.testBit_lt_two_pow hp
    · simp [withSign, FloatFmt.signBit, Nat.testBit_two_pow_add_eq, Nat.testBit_lt_two_pow hp]
  have hexp : withSign F s p / 2 ^ F.fracBits % 2 ^ F.expBits = p / 2 ^ F.fracBits := by
    cases s
    · exact Nat.mod_eq_of_lt hle
    · simp [withSign, hsplit, Nat.mul_add_div hB, Nat.mod_eq_of_lt hle]
  have hfrac : withSign F s p % 2 ^ F.fracBits = p % 2 ^ F.fracBits := by
    cases s <;> simp [withSign, hsplit]
  have hlt : p < F.infPat ↔ p / 2 ^ F.fracBits < 2 ^ F.expBits - 1 :=
    (Nat.div_lt_iff_lt_mul hB).symm
  simp only [unpack, hsign, hexp, hfrac]
  by_cases hfin : p < F.infPat
  · rw [if_pos hfin, if_neg (hlt.mp hfin).ne, patMag]
    split_ifs <;> rfl
  · have hones : p / 2 ^ F.fracBits = 2 ^ F.expBits - 1 := by omega
    have hinf : p % 2 ^ F.fracBits = 0 ↔ p = F.infPat := by
      have hd := Nat.div_add_mod' p (2 ^ F.fracBits)
      rw [hones] at hd
      unfold FloatFmt.infPat
      omega
    simp only [hones, hinf, hfin, if_true, if_false]

/-- The binary32 word with a sign and a pattern (R7). -/
def word32 (s : Bool) (p : Nat) : Word := BitVec.ofNat 32 (withSign .b32 s p)

theorem exists_word32 (w : Word) : ∃ s p, p < 2 ^ 31 ∧ w = word32 s p := by
  rcases lt_or_ge w.toNat (2 ^ 31) with h | h
  · exact ⟨false, w.toNat, h, by simp [word32, withSign]⟩
  · have hw := w.isLt
    refine ⟨true, w.toNat - 2 ^ 31, by omega, ?_⟩
    apply BitVec.eq_of_toNat_eq
    simp [word32, withSign, FloatFmt.signBit, FloatFmt.b32]
    omega

theorem toNat_word32 (s : Bool) {p : Nat} (hp : p < 2 ^ 31) :
    (word32 s p).toNat = (if s then 2 ^ 31 else 0) + p := by
  cases s <;> simp [word32, withSign, FloatFmt.signBit, FloatFmt.b32] <;> omega

theorem getLsbD_word32 (s : Bool) {p : Nat} (hp : p < 2 ^ 31) {i : Nat} (hi : i < 31) :
    (word32 s p).getLsbD i = p.testBit i := by
  rw [← BitVec.testBit_toNat, toNat_word32 s hp]
  cases s
  · simp
  · exact Nat.testBit_two_pow_add_gt hi p

theorem getLsbD_word32_sign (s : Bool) {p : Nat} (hp : p < 2 ^ 31) :
    (word32 s p).getLsbD 31 = s := by
  have htop : p.testBit 31 = false := Nat.testBit_lt_two_pow hp
  rw [← BitVec.testBit_toNat, toNat_word32 s hp]
  cases s
  · simpa using htop
  · exact (Nat.testBit_two_pow_add_eq p 31).trans (by rw [htop]; rfl)

theorem val32_word32 (s : Bool) {p : Nat} (hp : p < 2 ^ 31) :
    val32 (word32 s p) = if p < FloatFmt.b32.infPat then .fin s (patMag .b32 p)
      else if p = FloatFmt.b32.infPat then .inf s else .nan := by
  rw [← unpack_withSign .b32 s hp]
  unfold val32
  rw [toNat_word32 s hp]
  cases s <;> simp [withSign, FloatFmt.signBit, FloatFmt.b32]

/-- `-a` changes the sign and keeps the pattern. -/
theorem word32_xor_signBit (s : Bool) {p : Nat} (hp : p < 2 ^ 31) :
    word32 s p ^^^ 0x80000000#32 = word32 (!s) p := by
  apply BitVec.eq_of_getLsbD_eq
  intro i hi
  rw [show (0x80000000#32 : Word) = BitVec.twoPow 32 31 by decide, BitVec.getLsbD_xor,
    BitVec.getLsbD_twoPow]
  rcases Nat.lt_or_ge i 31 with h | h
  · simp [getLsbD_word32 _ hp h, h.ne']
  · obtain rfl : i = 31 := by omega
    rw [getLsbD_word32_sign _ hp, getLsbD_word32_sign _ hp]
    simp

theorem isFinite32_word32 (s : Bool) {p : Nat} (hp : p < 2 ^ 31) :
    isFinite32 (word32 s p) = decide (p < FloatFmt.b32.infPat) := by
  unfold isFinite32
  rw [val32_word32 s hp]
  split_ifs with h h' <;> simp [FVal.isFinite, h]

theorem exists_finite_word32 {w : Word} (h : isFinite32 w = true) :
    ∃ s p, p < FloatFmt.b32.infPat ∧ w = word32 s p := by
  obtain ⟨s, p, hp, rfl⟩ := exists_word32 w
  exact ⟨s, p, by simpa [isFinite32_word32 s hp] using h, rfl⟩

theorem rat32_word32 (s : Bool) {p : Nat} (hp : p < FloatFmt.b32.infPat) :
    rat32 (word32 s p) = signedMag s (patMag .b32 p) / 2 ^ 149 := by
  unfold rat32
  rw [val32_word32 s (hp.trans (by decide)), if_pos hp]
  rfl

/-! ### Rounding to binary32 -/

/-- The overflow threshold of R9, in units. -/
theorem halfway_b32 : halfway .b32 = overflow32 * 2 ^ 149 := by
  have hlast : patMag .b32 (FloatFmt.b32.infPat - 1) = (2 ^ 24 - 1) * 2 ^ 253 :=
    patMag_of_significand (F := .b32) (sh := 253) (k := 2 ^ 24 - 1) ⟨.inr (by decide), by decide⟩
  have hnext : patMag .b32 FloatFmt.b32.infPat = 2 ^ 24 * 2 ^ 253 :=
    patMag_of_significand (F := .b32) (sh := 253) (k := 2 ^ 24) ⟨.inr (by decide), by decide⟩
  unfold halfway overflow32
  rw [hlast, hnext]
  norm_num

theorem abs_sign_mul (s : Bool) (x : ℚ) : |(if s then -1 else 1) * x| = |x| := by
  cases s <;> simp

theorem abs_units (z : ℚ) : |z| * 2 ^ 149 = |z * 2 ^ 149| := by
  rw [abs_mul, abs_of_pos (by positivity : (0 : ℚ) < 2 ^ 149)]

/-- A distance from a value with sign `s`, measured in units. -/
theorem abs_sub_rat32_word32 {r x : ℚ} {s : Bool} (hr : r * 2 ^ 149 = (if s then -1 else 1) * x)
    (t : Bool) {p : Nat} (hp : p < FloatFmt.b32.infPat) :
    |r - rat32 (word32 t p)| * 2 ^ 149 = |x - signedMag (s ^^ t) (patMag .b32 p)| := by
  have hd : (r - rat32 (word32 t p)) * 2 ^ 149 =
      (if s then -1 else 1) * (x - signedMag (s ^^ t) (patMag .b32 p)) := by
    rw [rat32_word32 t hp, sub_mul, div_mul_cancel₀ _ (by positivity), hr]
    cases s <;> cases t <;> simp [signedMag] <;> ring
  rw [abs_units, hd, abs_sign_mul]

/-- Below the overflow threshold the rounded pattern is the nearest word, even at a tie (R9). -/
theorem roundPat_word32_nearest {r : ℚ} {s : Bool} {num den : Nat} (hden : 0 < den)
    (hr : r * 2 ^ 149 = (if s then -1 else 1) * (num / den : ℚ))
    (hp : roundPat .b32 num den < FloatFmt.b32.infPat) {v : Word} (hv : isFinite32 v = true) :
    let w := word32 s (roundPat .b32 num den)
    |r - rat32 w| ≤ |r - rat32 v| ∧
      (|r - rat32 w| = |r - rat32 v| → rat32 v = rat32 w ∨ w.getLsbD 0 = false) := by
  intro w
  have hpos : (0 : ℚ) < 2 ^ 149 := by positivity
  obtain ⟨t, q, hq, rfl⟩ := exists_finite_word32 hv
  have hw : |r - rat32 w| * 2 ^ 149 =
      |(num / den : ℚ) - patMag .b32 (roundPat .b32 num den)| := by
    simpa [signedMag] using abs_sub_rat32_word32 hr s hp
  obtain ⟨hle, htie⟩ := roundPat_nearest .b32 (by decide) num den hden (s ^^ t) q
  rw [← abs_sub_rat32_word32 hr t hq, ← hw] at hle htie
  refine ⟨le_of_mul_le_mul_right hle hpos,
    fun h => (htie (by rw [h])).imp (fun h => ?_) fun h => ?_⟩
  · have hsigned : signedMag t (patMag .b32 q) =
        signedMag s (patMag .b32 (roundPat .b32 num den)) := by
      revert h
      cases s <;> cases t <;> simp [signedMag]
    rw [rat32_word32 t hq, rat32_word32 s hp, hsigned]
  · rw [getLsbD_word32 s (hp.trans (by decide)) (by decide), Nat.testBit_zero]
    simpa using Nat.dvd_iff_mod_eq_zero.mp h

/-- `roundMag` with a sign is rounding once (R9): `r` has the sign `s` and is `num / den` units. -/
theorem roundsTo_roundMag {r : ℚ} {s : Bool} {num den : Nat} (hden : 0 < den)
    (hr : r * 2 ^ 149 = (if s then -1 else 1) * (num / den : ℚ)) :
    RoundsTo r (word32 s (roundMag .b32 num den)) := by
  have hx : (0 : ℚ) ≤ num / den := by positivity
  have hover : |r| < overflow32 ↔ roundPat .b32 num den < FloatFmt.b32.infPat := by
    rw [roundPat_lt_infPat_iff .b32 (by decide) (by decide) num den hden, halfway_b32,
      ← abs_of_nonneg hx, ← abs_sign_mul s (num / den : ℚ), ← hr, ← abs_units,
      mul_lt_mul_iff_left₀ (by positivity)]
  unfold RoundsTo
  rw [roundMag_eq_min]
  by_cases hlt : |r| < overflow32
  · have hp := hover.mp hlt
    rw [if_pos hlt, min_eq_left hp.le, isFinite32_word32 s (hp.trans (by decide))]
    exact ⟨decide_eq_true hp, fun v hv => roundPat_word32_nearest hden hr hp hv⟩
  · rw [if_neg hlt, min_eq_right (not_lt.mp (mt hover.mpr hlt))]
    have hne : r ≠ 0 := by rintro rfl; norm_num [overflow32] at hlt
    cases s
    · have : 0 < r := lt_of_le_of_ne (by simp at hr; nlinarith) hne.symm
      rw [if_pos this]; rfl
    · have : ¬0 < r := by simp at hr; nlinarith
      rw [if_neg this]; rfl

end Sys2Proof.Machine
end

section
/-!
SUPPORT. What sums and products are for each kind of operand: invalid, infinite, finite (R9 to R11).
-/

namespace Sys2Proof.Machine
open Sys2Proof.Claims

/-! ### Infinities, NaNs and signs -/

/-- The sign a value carries; a NaN's does not count. -/
def FVal.neg : FVal → Bool
  | .nan => false
  | .inf s => s
  | .fin s _ => s

/-- A NaN operand, or the sum of opposite infinities (R10). -/
def AddInvalid (x y : FVal) : Prop :=
  x = .nan ∨ y = .nan ∨ ∃ s, x = .inf s ∧ y = .inf (!s)

/-- A NaN operand, or the product of an infinity and a zero (R10). -/
def MulInvalid (x y : FVal) : Prop :=
  x = .nan ∨ y = .nan ∨ (∃ s, x = .inf s ∧ y.isZero = true) ∨ ∃ s, y = .inf s ∧ x.isZero = true

/-- What a sum can be: the canonical NaN of an invalid operation, or a signed value. -/
theorem addVal_cases (F : FloatFmt) (x y : FVal) :
    (AddInvalid x y ∧ addVal F x y = F.nanPat) ∨
      (¬AddInvalid x y ∧ ∃ s p, p ≤ F.infPat ∧ addVal F x y = withSign F s p) := by
  cases x with
  | nan => exact .inl ⟨.inl rfl, by cases y <;> rfl⟩
  | inf s =>
    cases y with
    | nan => exact .inl ⟨.inr (.inl rfl), rfl⟩
    | inf t =>
      by_cases h : s = t
      · exact .inr ⟨by simp [AddInvalid, h], s, _, le_rfl, if_pos h⟩
      · exact .inl ⟨by simpa [AddInvalid, Bool.eq_not] using Ne.symm h, if_neg h⟩
    | fin t n => exact .inr ⟨by simp [AddInvalid], s, _, le_rfl, rfl⟩
  | fin s m =>
    cases y with
    | nan => exact .inl ⟨.inr (.inl rfl), rfl⟩
    | inf t => exact .inr ⟨by simp [AddInvalid], t, _, le_rfl, rfl⟩
    | fin t n =>
      refine .inr ⟨by simp [AddInvalid], ?_⟩
      unfold addVal
      dsimp only
      split
      · exact ⟨_, 0, Nat.zero_le _, rfl⟩
      · exact ⟨_, _, roundMag_le .., rfl⟩

/-- What a product can be: the canonical NaN of an invalid operation, or a value whose sign is the
XOR of the operands' signs. -/
theorem mulVal_cases (F : FloatFmt) (x y : FVal) :
    (MulInvalid x y ∧ mulVal F x y = F.nanPat) ∨
      (¬MulInvalid x y ∧ ∃ p, p ≤ F.infPat ∧ mulVal F x y = withSign F (x.neg ^^ y.neg) p) := by
  cases x with
  | nan => exact .inl ⟨.inl rfl, by cases y <;> rfl⟩
  | inf s =>
    cases y with
    | nan => exact .inl ⟨.inr (.inl rfl), rfl⟩
    | inf t => exact .inr ⟨by simp [MulInvalid, FVal.isZero], _, le_rfl, rfl⟩
    | fin t n =>
      by_cases h : n = 0
      · exact .inl ⟨by simp [MulInvalid, FVal.isZero, h], if_pos h⟩
      · exact .inr ⟨by simp [MulInvalid, FVal.isZero, h], _, le_rfl, if_neg h⟩
  | fin s m =>
    cases y with
    | nan => exact .inl ⟨.inr (.inl rfl), rfl⟩
    | inf t =>
      by_cases h : m = 0
      · exact .inl ⟨by simp [MulInvalid, FVal.isZero, h], if_pos h⟩
      · exact .inr ⟨by simp [MulInvalid, FVal.isZero, h], _, le_rfl, if_neg h⟩
    | fin t n => exact .inr ⟨by simp [MulInvalid], _, roundMag_le .., rfl⟩

theorem isNaN_word32_iff (s : Bool) {p : Nat} (hp : p < 2 ^ 31) :
    isNaN (word32 s p) ↔ FloatFmt.b32.infPat < p := by
  unfold isNaN
  rw [val32_word32 s hp]
  split_ifs with h1 h2 <;> simp <;> omega

theorem not_isNaN_word32 (s : Bool) {p : Nat} (hp : p ≤ FloatFmt.b32.infPat) :
    ¬isNaN (word32 s p) := by
  rw [isNaN_word32_iff s (hp.trans_lt (by decide))]
  omega

theorem infWord_eq_word32 (s : Bool) : infWord s = word32 s FloatFmt.b32.infPat := by
  cases s <;> rfl

theorem val32_of_infWord {w : Word} {s : Bool} (h : w = infWord s) : val32 w = .inf s := by
  subst h
  cases s <;> decide

/-- A number's sign is its word's top bit (R7). -/
theorem neg_val32 {w : Word} (h : ¬isNaN w) : (val32 w).neg = w.getLsbD 31 := by
  obtain ⟨s, p, hp, rfl⟩ := exists_word32 w
  rw [isNaN_word32_iff s hp] at h
  rw [getLsbD_word32_sign s hp, val32_word32 s hp]
  split_ifs with h1 h2
  · rfl
  · rfl
  · omega

theorem isZero_iff_val32 (w : Word) : isZero w ↔ (val32 w).isZero = true := by
  constructor
  · rintro (rfl | rfl) <;> decide
  · obtain ⟨s, p, hp, rfl⟩ := exists_word32 w
    rw [val32_word32 s hp]
    split_ifs with h1 h2
    · intro h
      obtain rfl : p = 0 := by simpa [FVal.isZero] using h
      cases s
      · exact .inl rfl
      · exact .inr rfl
    · exact fun h => absurd h Bool.false_ne_true
    · exact fun h => absurd h Bool.false_ne_true

/-- The NaN of an invalid operation is the only NaN, and canonical (R10). -/
theorem isNaN_result {invalid : Prop} {bits : Nat}
    (h : (invalid ∧ bits = FloatFmt.b32.nanPat) ∨
      (¬invalid ∧ ∃ s p, p ≤ FloatFmt.b32.infPat ∧ bits = withSign .b32 s p)) :
    (isNaN (BitVec.ofNat 32 bits) ↔ invalid) ∧
      (isNaN (BitVec.ofNat 32 bits) → BitVec.ofNat 32 bits = 0x7FC00000#32) := by
  obtain ⟨hi, rfl⟩ | ⟨hi, s, p, hp, rfl⟩ := h
  · exact ⟨iff_of_true (by unfold isNaN; decide) hi, fun _ => rfl⟩
  · have hn : ¬isNaN (BitVec.ofNat 32 (withSign .b32 s p)) := not_isNaN_word32 s hp
    exact ⟨iff_of_false hn hi, fun h => absurd h hn⟩

theorem isNaN_addVal (x y : FVal) :
    (isNaN (BitVec.ofNat 32 (addVal .b32 x y)) ↔ AddInvalid x y) ∧
      (isNaN (BitVec.ofNat 32 (addVal .b32 x y)) →
        BitVec.ofNat 32 (addVal .b32 x y) = 0x7FC00000#32) :=
  isNaN_result (addVal_cases .b32 x y)

theorem isNaN_mulVal (x y : FVal) :
    (isNaN (BitVec.ofNat 32 (mulVal .b32 x y)) ↔ MulInvalid x y) ∧
      (isNaN (BitVec.ofNat 32 (mulVal .b32 x y)) →
        BitVec.ofNat 32 (mulVal .b32 x y) = 0x7FC00000#32) :=
  isNaN_result ((mulVal_cases .b32 x y).imp_right (And.imp_right fun ⟨p, h⟩ => ⟨_, p, h⟩))

theorem addInvalid_flip (x y : FVal) :
    AddInvalid x y.flip ↔ x = .nan ∨ y = .nan ∨ ∃ s, x = .inf s ∧ y = .inf s := by
  cases y <;> simp [AddInvalid, FVal.flip]

/-- An infinite operand of a valid sum is the sum. -/
theorem addVal_inf (F : FloatFmt) {x y : FVal} {s : Bool} (h : ¬AddInvalid x y)
    (hs : x = .inf s ∨ y = .inf s) : addVal F x y = withSign F s F.infPat := by
  unfold AddInvalid at h
  obtain rfl | rfl := hs
  · cases y with
    | nan => simp at h
    | inf t =>
      have : s = t := by simpa [eq_comm] using h
      exact if_pos this
    | fin t n => rfl
  · cases x with
    | nan => simp at h
    | inf t =>
      have : t = s := by simpa [eq_comm] using h
      exact (if_pos this).trans (by rw [this])
    | fin t n => rfl

/-- A valid product with an infinite operand is an infinity. -/
theorem mulVal_inf (F : FloatFmt) {x y : FVal} {s : Bool} (h : ¬MulInvalid x y)
    (hs : x = .inf s ∨ y = .inf s) :
    mulVal F x y = withSign F (x.neg ^^ y.neg) F.infPat := by
  unfold MulInvalid at h
  obtain rfl | rfl := hs
  · cases y with
    | nan => simp at h
    | inf t => rfl
    | fin t n =>
      have : n ≠ 0 := by simpa [FVal.isZero] using h
      exact if_neg this
  · cases x with
    | nan => simp at h
    | inf t => rfl
    | fin t n =>
      have : n ≠ 0 := by simpa [FVal.isZero] using h
      exact if_neg this

/-! ### Finite operands -/

theorem exists_fin_of_finite {w : Word} (h : isFinite32 w = true) :
    ∃ s m, val32 w = .fin s m := by
  unfold isFinite32 at h
  cases hw : val32 w <;> simp_all [FVal.isFinite]

@[simp] theorem roundMag_zero (F : FloatFmt) : roundMag F 0 1 = 0 := by
  simp [roundMag, divRNE, Nat.log2_zero]

/-- A finite sum is the exact sum in units, signed and rounded; an exact zero has the sign that R11
gives it. -/
theorem addVal_fin (F : FloatFmt) (s t : Bool) (m n : Nat) :
    addVal F (.fin s m) (.fin t n) =
      withSign F
        (if signedMag s m + signedMag t n = 0 then s && t
          else decide (signedMag s m + signedMag t n < 0))
        (roundMag F (signedMag s m + signedMag t n).natAbs 1) := by
  unfold addVal
  dsimp only
  split_ifs with h
  · rw [h, Int.natAbs_zero, roundMag_zero]
  · rfl

theorem ratOf_fin_units (s : Bool) (m : Nat) :
    ratOf .b32 (.fin s m) = signedMag s m / 2 ^ 149 := rfl

theorem ratOf_flip (F : FloatFmt) (x : FVal) : ratOf F x.flip = -ratOf F x := by
  cases x with
  | nan => simp [ratOf, FVal.flip]
  | inf s => simp [ratOf, FVal.flip]
  | fin s m => cases s <;> simp [ratOf, FVal.flip, signedMag, neg_div]

theorem roundsTo_addVal (s t : Bool) (m n : Nat) :
    RoundsTo (ratOf .b32 (.fin s m) + ratOf .b32 (.fin t n))
      (BitVec.ofNat 32 (addVal .b32 (.fin s m) (.fin t n))) := by
  rw [addVal_fin]
  refine roundsTo_roundMag one_pos ?_
  rw [ratOf_fin_units, ratOf_fin_units, ← add_div, div_mul_cancel₀ _ (by positivity),
    ← Int.cast_add]
  generalize signedMag s m + signedMag t n = z
  rw [Nat.cast_natAbs, Nat.cast_one, div_one]
  rcases lt_trichotomy z 0 with h | rfl | h
  · simp [h.ne, h, abs_of_neg h]
  · simp
  · simp [h.ne', h.not_gt, abs_of_pos h]

theorem roundsTo_mulVal (s t : Bool) (m n : Nat) :
    RoundsTo (ratOf .b32 (.fin s m) * ratOf .b32 (.fin t n))
      (BitVec.ofNat 32 (mulVal .b32 (.fin s m) (.fin t n))) := by
  refine roundsTo_roundMag (by positivity) ?_
  rw [ratOf_fin_units, ratOf_fin_units, signedMag_cast, signedMag_cast]
  have : FloatFmt.b32.unitExp = 149 := rfl
  rw [this]
  push_cast
  cases s <;> cases t <;> simp <;> ring

/-- An exactly zero sum (R11). -/
theorem addVal_of_sum_eq_zero {F : FloatFmt} {s t : Bool} {m n : Nat}
    (h : ratOf F (.fin s m) + ratOf F (.fin t n) = 0) :
    addVal F (.fin s m) (.fin t n) = withSign F (s && t) 0 := by
  have hz : signedMag s m + signedMag t n = 0 := by
    unfold ratOf at h
    dsimp only at h
    rw [← add_div, div_eq_zero_iff, or_iff_left (by positivity)] at h
    exact_mod_cast h
  rw [addVal_fin, hz, if_pos rfl, Int.natAbs_zero, roundMag_zero]

end Sys2Proof.Machine
end

section
/-!
The arithmetic and the comparisons of 00_scope.md section 5: O36 to O39.
-/

namespace Sys2Proof.Machine
open Sys2Proof.Claims

theorem ofNat_withSign_infPat (s : Bool) :
    BitVec.ofNat 32 (withSign .b32 s FloatFmt.b32.infPat) = infWord s :=
  (infWord_eq_word32 s).symm

theorem ofNat_withSign_zero (s : Bool) :
    BitVec.ofNat 32 (withSign .b32 s 0) = if s then 0x80000000#32 else 0x00000000#32 := by
  cases s <;> rfl

/-- A product that is no NaN has operands that are none, so their words' top bits are the signs. -/
theorem neg_xor_neg_of_mul32 {a b : Word} (h : ¬isNaN (mul32 a b)) :
    ((val32 a).neg ^^ (val32 b).neg) = (a.getLsbD 31 ^^ b.getLsbD 31) := by
  unfold mul32 at h
  rw [(isNaN_mulVal ..).1] at h
  rw [neg_val32 fun ha => h (.inl ha), neg_val32 fun hb => h (.inr (.inl hb))]

theorem getLsbD_infWord (s : Bool) : (infWord s).getLsbD 31 = s := by
  cases s <;> rfl

theorem mul32_of_infWord {a b : Word} {s : Bool} (hn : ¬isNaN (mul32 a b))
    (h : a = infWord s ∨ b = infWord s) :
    mul32 a b = infWord (a.getLsbD 31 ^^ b.getLsbD 31) := by
  have hv : ¬MulInvalid (val32 a) (val32 b) := by rwa [← (isNaN_mulVal ..).1]
  have hs : val32 a = .inf s ∨ val32 b = .inf s :=
    h.imp val32_of_infWord val32_of_infWord
  rw [← neg_xor_neg_of_mul32 hn, ← ofNat_withSign_infPat, ← mulVal_inf .b32 hv hs]
  rfl

/-- Settles O36: `roundMag` finds the nearest pattern (`roundPat_nearest`), and its bound by `+inf`
is the overflow threshold (`roundPat_lt_infPat_iff`). -/
theorem arithmeticRoundsOnce : Obligations.ArithmeticRoundsOnce := by
  refine ⟨fun a b ha hb => ?_, fun a b s => ⟨fun hn h => ?_, fun hn h => ?_, fun hn => ⟨?_, ?_⟩⟩⟩
  · obtain ⟨s, m, ha⟩ := exists_fin_of_finite ha
    obtain ⟨t, n, hb⟩ := exists_fin_of_finite hb
    unfold add32 sub32 mul32 rat32
    rw [ha, hb, sub_eq_add_neg, ← ratOf_flip]
    exact ⟨roundsTo_addVal .., roundsTo_addVal .., roundsTo_mulVal ..⟩
  · unfold add32 at *
    rw [(isNaN_addVal ..).1] at hn
    have hs : val32 a = .inf s ∨ val32 b = .inf s :=
      h.imp val32_of_infWord val32_of_infWord
    rw [addVal_inf .b32 hn hs, ofNat_withSign_infPat]
  · unfold sub32 at *
    rw [(isNaN_addVal ..).1] at hn
    have hs : val32 a = .inf s ∨ (val32 b).flip = .inf s :=
      h.imp val32_of_infWord fun hb => by simp [val32_of_infWord hb, FVal.flip]
    rw [addVal_inf .b32 hn hs, ofNat_withSign_infPat]
  · intro h
    rw [mul32_of_infWord hn (.inl h), h, getLsbD_infWord]
  · intro h
    rw [mul32_of_infWord hn (.inr h), h, getLsbD_infWord]

/-- Settles O37: an invalid operation is the only source of a NaN (`addVal_cases`,
`mulVal_cases`). -/
theorem naNResultsAreCanonical : Obligations.NaNResultsAreCanonical := by
  intro a b
  refine ⟨(isNaN_addVal ..).1, (isNaN_addVal ..).1.trans (addInvalid_flip ..), ?_,
    (isNaN_addVal ..).2, (isNaN_addVal ..).2, (isNaN_mulVal ..).2⟩
  simp only [isZero_iff_val32]
  exact (isNaN_mulVal ..).1

/-! ### The signs of zero results -/

/-- A finite word is the value its sign bit says. -/
theorem exists_fin_sign {w : Word} (h : isFinite32 w = true) :
    ∃ m, val32 w = .fin (w.getLsbD 31) m := by
  obtain ⟨s, m, hw⟩ := exists_fin_of_finite h
  have hs : s = w.getLsbD 31 := by
    rw [← neg_val32 (by simp [isNaN, hw]), hw]; rfl
  exact ⟨m, hs ▸ hw⟩

theorem add32_of_sum_eq_zero {a b : Word} (ha : isFinite32 a = true) (hb : isFinite32 b = true)
    (h : rat32 a + rat32 b = 0) :
    add32 a b = if a.getLsbD 31 && b.getLsbD 31 then 0x80000000#32 else 0x00000000#32 := by
  obtain ⟨m, ha⟩ := exists_fin_sign ha
  obtain ⟨n, hb⟩ := exists_fin_sign hb
  unfold rat32 at h
  unfold add32
  rw [ha, hb] at h ⊢
  rw [addVal_of_sum_eq_zero h, ofNat_withSign_zero]

theorem sub32_of_diff_eq_zero {a b : Word} (ha : isFinite32 a = true) (hb : isFinite32 b = true)
    (h : rat32 a - rat32 b = 0) :
    sub32 a b = if a.getLsbD 31 && !b.getLsbD 31 then 0x80000000#32 else 0x00000000#32 := by
  obtain ⟨m, ha⟩ := exists_fin_sign ha
  obtain ⟨n, hb⟩ := exists_fin_sign hb
  unfold rat32 at h
  unfold sub32
  rw [sub_eq_add_neg, ← ratOf_flip] at h
  rw [ha, hb, FVal.flip] at h ⊢
  rw [addVal_of_sum_eq_zero h, ofNat_withSign_zero]

theorem val32_xor_signBit (w : Word) : val32 (w ^^^ 0x80000000#32) = (val32 w).flip := by
  obtain ⟨s, p, hp, rfl⟩ := exists_word32 w
  rw [word32_xor_signBit s hp, val32_word32 s hp, val32_word32 _ hp]
  split_ifs <;> rfl

/-- The sign of a product that is no NaN, a zero's too (R11). -/
theorem getLsbD_mul32_sign {a b : Word} (h : ¬isNaN (mul32 a b)) :
    (mul32 a b).getLsbD 31 = (a.getLsbD 31 ^^ b.getLsbD 31) := by
  rw [← neg_xor_neg_of_mul32 h]
  unfold mul32 at *
  rw [(isNaN_mulVal ..).1] at h
  obtain ⟨hi, -⟩ | ⟨-, p, hp, he⟩ := mulVal_cases .b32 (val32 a) (val32 b)
  · exact absurd hi h
  · rw [he]
    exact getLsbD_word32_sign _ (hp.trans_lt (by decide))

theorem isFinite32_xor_signBit (w : Word) : isFinite32 (w ^^^ 0x80000000#32) = isFinite32 w := by
  unfold isFinite32
  rw [val32_xor_signBit]
  cases val32 w <;> rfl

/-- Settles O38: an exactly zero sum keeps a sign only when both operands have it
(`addVal_of_sum_eq_zero`), and a product has the XOR of the signs (`mulVal_cases`). -/
theorem zeroResultSigns : Obligations.ZeroResultSigns := by
  refine ⟨fun a b ha hb => ⟨add32_of_sum_eq_zero ha hb, sub32_of_diff_eq_zero ha hb⟩,
    fun x hx => ?_, by decide, by decide, by decide, fun a b h => getLsbD_mul32_sign ?_⟩
  · have hflip := (isFinite32_xor_signBit x).trans hx
    have hsum : rat32 x + rat32 (x ^^^ 0x80000000#32) = 0 := by
      unfold rat32
      rw [val32_xor_signBit, ratOf_flip, add_neg_cancel]
    rw [add32_of_sum_eq_zero hx hflip hsum]
    simp
  · rcases h with h | h <;> rw [h] <;> unfold isNaN <;> decide

/-! ### Comparisons -/

/-- The extended real value of a value, `extVal32` before a word is read. -/
def FVal.ext : FVal → Option (WithBot (WithTop ℚ))
  | .nan => none
  | .inf true => some ⊥
  | .inf false => some ((⊤ : WithTop ℚ) : WithBot (WithTop ℚ))
  | .fin s m => some ((ratOf .b32 (.fin s m) : WithTop ℚ) : WithBot (WithTop ℚ))

theorem extVal32_eq_ext (w : Word) : extVal32 w = (val32 w).ext := rfl

theorem ratOf_fin_le_iff (s t : Bool) (m n : Nat) :
    ratOf .b32 (.fin s m) ≤ ratOf .b32 (.fin t n) ↔ signedMag s m ≤ signedMag t n := by
  rw [ratOf_fin_units, ratOf_fin_units, div_le_div_iff_of_pos_right (by positivity), Int.cast_le]

/-- `FVal.le` compares extended real values, and is false for a NaN (R12). -/
theorem FVal.le_iff (x y : FVal) :
    x.le y = true ↔ ∃ u v, x.ext = some u ∧ y.ext = some v ∧ u ≤ v := by
  cases x with
  | nan => cases y <;> simp [FVal.le, FVal.ext]
  | inf s =>
    cases y with
    | nan => cases s <;> simp [FVal.le, FVal.ext]
    | inf t => cases s <;> cases t <;> simp [FVal.le, FVal.ext]
    | fin t n => cases s <;> simp [FVal.le, FVal.ext]
  | fin s m =>
    cases y with
    | nan => simp [FVal.le, FVal.ext]
    | inf t => cases t <;> simp [FVal.le, FVal.ext]
    | fin t n => simp [FVal.le, FVal.ext, ratOf_fin_le_iff]

theorem le32_iff (a b : Word) :
    le32 a b = true ↔ ∃ x y, extVal32 a = some x ∧ extVal32 b = some y ∧ x ≤ y := by
  rw [extVal32_eq_ext, extVal32_eq_ext]
  exact FVal.le_iff (val32 a) (val32 b)

/-- Where both values exist, `le32` is their order. -/
theorem le32_of_extVal32 {a b : Word} {x y : WithBot (WithTop ℚ)} (ha : extVal32 a = some x)
    (hb : extVal32 b = some y) : le32 a b = true ↔ x ≤ y := by
  simp [le32_iff, ha, hb]

theorem lt32_iff (a b : Word) :
    lt32 a b = true ↔ ∃ x y, extVal32 a = some x ∧ extVal32 b = some y ∧ x < y := by
  unfold lt32
  rw [Bool.and_eq_true, Bool.not_eq_true', ← Bool.not_eq_true]
  constructor
  · rintro ⟨hab, hba⟩
    obtain ⟨x, y, ha, hb, hle⟩ := (le32_iff a b).mp hab
    rw [le32_of_extVal32 hb ha] at hba
    exact ⟨x, y, ha, hb, lt_of_le_not_ge hle hba⟩
  · rintro ⟨x, y, ha, hb, hlt⟩
    rw [le32_of_extVal32 ha hb, le32_of_extVal32 hb ha]
    exact ⟨hlt.le, hlt.not_ge⟩

theorem le32_antisymm_iff (a b : Word) :
    le32 a b = true ∧ le32 b a = true ↔ ∃ x, extVal32 a = some x ∧ extVal32 b = some x := by
  constructor
  · rintro ⟨hab, hba⟩
    obtain ⟨x, y, ha, hb, hle⟩ := (le32_iff a b).mp hab
    rw [le32_of_extVal32 hb ha] at hba
    exact ⟨x, ha, hle.antisymm hba ▸ hb⟩
  · rintro ⟨x, ha, hb⟩
    simp [le32_of_extVal32 ha hb, le32_of_extVal32 hb ha]

theorem isFinite32_iff (w : Word) : isFinite32 w = true ↔
    ∃ q : ℚ, extVal32 w = some ((q : WithTop ℚ) : WithBot (WithTop ℚ)) := by
  rw [isFinite32, extVal32_eq_ext]
  cases val32 w with
  | nan => simp [FVal.isFinite, FVal.ext]
  | inf s => cases s <;> simp [FVal.isFinite, FVal.ext]
  | fin s m => simp [FVal.isFinite, FVal.ext]

theorem le32_of_isNaN {a : Word} (h : isNaN a) (b : Word) :
    le32 a b = false ∧ le32 b a = false := by
  unfold le32
  rw [h]
  exact ⟨by cases val32 b <;> rfl, by cases val32 b with
    | inf s => cases s <;> rfl
    | _ => rfl⟩

theorem extVal32_zeros : extVal32 0x80000000#32 = extVal32 0x00000000#32 := by
  obtain ⟨x, hn, hp⟩ := (le32_antisymm_iff 0x80000000#32 0x00000000#32).mp ⟨by decide, by decide⟩
  exact hn.trans hp.symm

/-- Settles O39: `FVal.le` is the order of the extended real values (`FVal.le_iff`). -/
theorem comparisonsFollowRealValues : Obligations.ComparisonsFollowRealValues := fun a b =>
  ⟨le32_iff a b, lt32_iff a b, le32_antisymm_iff a b, isFinite32_iff a,
    fun h => le32_of_isNaN h b, extVal32_zeros⟩

end Sys2Proof.Machine
end

section
/-!
SUPPORT. The state after reset, element by element (R37).
-/

namespace Sys2Proof.Machine

/-! ### Entries of the vectors of the reset state -/

@[simp] theorem reset_coef (j : Fin 13) : Active.reset.coef[j] = Coefs.zero := by
  simp [Active.reset]

@[simp] theorem reset_sbyp (k : Fin 7) : Active.reset.sbyp[k] = true := by
  simp [Active.reset]

@[simp] theorem reset_secbyp (B : Bank) (i : Fin 4) : (Active.reset.secbyp B)[i] = true := by
  cases B <;> simp [Active.secbyp, Active.reset]

@[simp] theorem delaysZero_entry (j : Fin 13) : Delays.zero[j] = Delay.zero := by
  simp [Delays.zero]

@[simp] theorem pendingEmpty_has (k : Stage) : Pending.empty.has k = false := by
  cases k <;> simp [Pending.has, Pending.empty]

theorem coefsZero_get (m : CoefIx) : Coefs.zero.get m = zero32 := by cases m <;> rfl

/-- A valid snapshot's LowCut frequency is in the cut range (R102). -/
theorem validSnap_lcFreq {p : Params} {g : Snapshot} (h : validSnap p g = true) :
    inRange p.cutMin p.cutMax g.lcFreq = true := by
  simp only [validSnap, Bool.and_eq_true] at h
  exact h.1.1.1.2

/-- The cut frequency `+0.0` that reset stages is below the cut range (R37, R102). -/
theorem reset_capture_invalid : validSnap State.reset.params State.reset.stg.capture = false := by
  have hfreq : ¬ inRange Params.default.cutMin Params.default.cutMax zero32 = true := by decide
  exact Bool.eq_false_iff.mpr fun h => hfreq (validSnap_lcFreq h)

/-- Settles O54: the entries of the reset state's vectors are constant, its other elements are the
literals of R37, and the snapshot it stages has a frequency out of range. -/
theorem resetValues : Obligations.ResetValues := by
  refine ⟨rfl, by decide, pendingEmpty_has, rfl, by decide, by decide, rfl, rfl, rfl,
    fun b => ?bands, rfl, rfl, reset_sbyp, reset_secbyp, fun j m => ?coef, fun j => ?delays,
    rfl, rfl, reset_capture_invalid⟩
  case bands => simp [State.readReg, State.reset, Staging.reset, zero32]
  case coef => exact (congrArg (·.get m) (reset_coef j)).trans (coefsZero_get m)
  case delays =>
    exact ⟨congrArg Delay.s1 (delaysZero_entry j), congrArg Delay.s2 (delaysZero_entry j)⟩

end Sys2Proof.Machine
end

section
/-!
SUPPORT. The invariant of the installed chain: what CONFIGURE, APPLY and a designed snapshot keep of
it (R111 P2, R149, R150).
-/

namespace Sys2Proof.Machine

/-! ### Well-formed configurations -/

theorem cutCfg_wf_iff {c : CutCfg} : c.wf = true ↔
    1 ≤ c.coefs.length ∧ c.coefs.length ≤ 4 ∧ ∀ k ∈ c.coefs, k.finite = true := by
  simp [CutCfg.wf, and_assoc]

/-- The well-formedness of what is pending for one stage (`Pending.wf`, stage by stage). -/
def Pending.stageWf (p : Pending) : Stage → Prop
  | .lowCut => ∀ c, p.lowCut = some c → c.wf = true
  | .peak b => ∀ c, p.peak[b] = some c → c.coef.finite = true
  | .highCut => ∀ c, p.highCut = some c → c.wf = true

theorem pending_wf_iff {p : Pending} : p.wf = true ↔ ∀ k, p.stageWf k := by
  have hb (b : Fin 5) : b ∈ bandIxs := by revert b; decide
  simp only [Pending.wf, Bool.and_eq_true, List.all_eq_true, Option.all_eq_true]
  constructor
  · rintro ⟨⟨hlow, hpeak⟩, hhigh⟩ (_ | b | _)
    · exact hlow
    · exact hpeak b (hb b)
    · exact hhigh
  · exact fun h => ⟨⟨h .lowCut, fun b _ => h (.peak b)⟩, h .highCut⟩

theorem pendingEmpty_wf : Pending.empty.wf = true := by decide

/-- What is pending for a stage after another or the same one was removed was pending before. -/
theorem without_stageWf {p : Pending} {k' : Stage} (h : p.stageWf k') (k : Stage) :
    (p.without k).stageWf k' := by
  cases k with
  | lowCut =>
    cases k' with
    | lowCut => rintro _ ⟨⟩
    | peak b' => exact h
    | highCut => exact h
  | peak b =>
    cases k' with
    | lowCut => exact h
    | peak b' =>
      intro c hc
      have hset : (p.without (.peak b)).peak[b'] = if b' = b then none else p.peak[b'] :=
        getElem_set_fin p.peak b b' none
      rw [hset] at hc
      split at hc
      · cases hc
      · exact h c hc
    | highCut => exact h
  | highCut =>
    cases k' with
    | lowCut => exact h
    | peak b' => exact h
    | highCut => rintro _ ⟨⟩

theorem without_wf {p : Pending} (h : p.wf = true) (k : Stage) : (p.without k).wf = true :=
  pending_wf_iff.mpr fun k' => without_stageWf (pending_wf_iff.mp h k') k

/-- A chain configuration the commands may install: both cut stages well formed, every peak set
finite. -/
structure ChainCfg.Wf (c : ChainCfg) : Prop where
  lowCut : c.lowCut.wf = true
  peak : ∀ b : Fin 5, c.peak[b].coef.finite = true
  highCut : c.highCut.wf = true

theorem ofChain_wf {c : ChainCfg} (h : c.Wf) : (Pending.ofChain c).wf = true := by
  rw [pending_wf_iff]
  rintro (_ | b | _)
  · rintro _ ⟨⟩
    exact h.lowCut
  · simpa [Pending.stageWf, Pending.ofChain] using h.peak b
  · rintro _ ⟨⟩
    exact h.highCut

theorem designed_cutCfg_wf (p : Params) (B : Bank) (fs f : Word) {code : BitVec 4} (byp : Bool)
    (h : code.toNat ≤ 3) : (cutCfg p B fs f code byp).wf = true := by
  rw [cutCfg_wf_iff]
  have hlen : (cutCfg p B fs f code byp).coefs.length = code.toNat + 1 := by simp [cutCfg]
  refine ⟨by omega, by omega, fun k hk => ?_⟩
  obtain ⟨i, -, rfl⟩ := List.mem_map.mp hk
  exact designCut_finite ..

/-- The factory gives well-formed configurations for every valid snapshot (R110, R111 P2). -/
theorem designSnapshot_wf {p : Params} {g : Snapshot} (h : validSnap p g = true) (fs : Word) :
    (designSnapshot p g fs).Wf := by
  obtain ⟨hlow, hhigh⟩ := validSnap_slopes h
  refine ⟨designed_cutCfg_wf _ _ _ _ _ hlow, fun b => ?_, designed_cutCfg_wf _ _ _ _ _ hhigh⟩
  rw [designSnapshot_peak]
  exact designPeak_finite ..

/-! ### The installed chain -/

/-- Every installed coefficient is finite (R111 P2). -/
def Active.CoefsFinite (a : Active) : Prop := ∀ j : Fin 13, a.coef[j].finite = true

/-- The active sections of a bank are the first `n`, for an `n` in 1..4 (R149, R150). -/
def Active.LeadingActive (a : Active) (B : Bank) : Prop :=
  ∃ n : Nat, 1 ≤ n ∧ n ≤ 4 ∧ a.secbyp B = activePattern n

theorem Active.LeadingActive.congr {a a' : Active} {B : Bank} (h : a.LeadingActive B)
    (e : a'.secbyp B = a.secbyp B) : a'.LeadingActive B := by
  rwa [Active.LeadingActive, e]

theorem reset_coefsFinite : Active.reset.CoefsFinite := fun j => by
  rw [reset_coef]
  decide

theorem activePattern_entry (n : Nat) (m : Fin 4) : (activePattern n)[m] = decide (n ≤ m.val) := by
  match m with
  | 0 => rfl
  | 1 => rfl
  | 2 => rfl
  | 3 => rfl

theorem configure_coefsFinite {a : Active} (ha : a.CoefsFinite) (B : Bank) {c : CutCfg}
    (hc : c.wf = true) : (a.configure B c).CoefsFinite := by
  obtain ⟨-, -, -, hframe, hbank⟩ := configure_spec a B c
  obtain ⟨-, -, hfin⟩ := cutCfg_wf_iff.mp hc
  intro j
  by_cases hj : ∃ m, j = B.slot m
  · obtain ⟨m, rfl⟩ := hj
    rw [(hbank m).2]
    split
    · exact hfin _ (List.getElem_mem _)
    · exact ha _
  · rw [hframe j (not_exists.mp hj)]
    exact ha j

/-- CONFIGURE leaves its bank with exactly the sections it installed active (R149). -/
theorem configure_secbyp_self (a : Active) (B : Bank) (c : CutCfg) :
    (a.configure B c).secbyp B = activePattern c.coefs.length := by
  obtain ⟨-, -, -, -, hbank⟩ := configure_spec a B c
  refine Vector.ext fun i hi => ?_
  exact (hbank ⟨i, hi⟩).1.trans (activePattern_entry _ ⟨i, hi⟩).symm

theorem configure_leadingActive_self (a : Active) (B : Bank) {c : CutCfg} (hc : c.wf = true) :
    (a.configure B c).LeadingActive B := by
  obtain ⟨hpos, hle, -⟩ := cutCfg_wf_iff.mp hc
  exact ⟨_, hpos, hle, configure_secbyp_self a B c⟩

theorem configure_leadingActive_of_ne {a : Active} {B B' : Bank} (h : a.LeadingActive B')
    (hne : B' ≠ B) (c : CutCfg) : (a.configure B c).LeadingActive B' := by
  obtain ⟨-, -, hother, -⟩ := configure_spec a B c
  exact h.congr (hother B' hne)

theorem configure_leadingActive {a : Active} {B' : Bank} (h : a.LeadingActive B') (B : Bank)
    {c : CutCfg} (hc : c.wf = true) : (a.configure B c).LeadingActive B' := by
  rcases eq_or_ne B' B with rfl | hne
  · exact configure_leadingActive_self a B' hc
  · exact configure_leadingActive_of_ne h hne c

@[simp] theorem configure_fs (a : Active) (B : Bank) (c : CutCfg) : (a.configure B c).fs = a.fs :=
  (configure_spec a B c).1

theorem applyPeak_coefsFinite {a : Active} (ha : a.CoefsFinite) (b : Fin 5) {c : PeakCfg}
    (hc : c.coef.finite = true) : (a.applyPeak b c).CoefsFinite := by
  intro j
  have e : (a.applyPeak b c).coef[j] = if j = peakSlot b then c.coef else a.coef[j] :=
    getElem_set_fin a.coef (peakSlot b) j c.coef
  rw [e]
  split
  · exact hc
  · exact ha j

/-! ### APPLY over the whole chain -/

/-- APPLY for some of the peak bands, in order: the middle part of APPLY over the whole chain
(`applyChain_eq`). -/
def Active.applyPeaks (a : Active) (c : ChainCfg) (bs : List (Fin 5)) : Active :=
  bs.foldl (fun a b => a.applyPeak b c.peak[b]) a

theorem applyChain_eq (a : Active) (c : ChainCfg) : a.applyChain c =
    ((a.configure .low c.lowCut).applyPeaks c bandIxs).configure .high c.highCut := rfl

@[simp] theorem applyPeaks_fs (a : Active) (c : ChainCfg) (bs : List (Fin 5)) :
    (a.applyPeaks c bs).fs = a.fs := by
  induction bs generalizing a with
  | nil => rfl
  | cons b bs ih => exact ih (a.applyPeak b c.peak[b])

@[simp] theorem applyPeaks_secbyp (a : Active) (c : ChainCfg) (bs : List (Fin 5)) (B : Bank) :
    (a.applyPeaks c bs).secbyp B = a.secbyp B := by
  induction bs generalizing a with
  | nil => rfl
  | cons b bs ih => exact (ih (a.applyPeak b c.peak[b])).trans (applyPeak_secbyp a b _ B)

theorem applyPeaks_coefsFinite {a : Active} (ha : a.CoefsFinite) {c : ChainCfg} (hc : c.Wf)
    (bs : List (Fin 5)) : (a.applyPeaks c bs).CoefsFinite := by
  induction bs generalizing a with
  | nil => exact ha
  | cons b bs ih => exact ih (applyPeak_coefsFinite ha b (hc.peak b))

@[simp] theorem applyChain_fs (a : Active) (c : ChainCfg) : (a.applyChain c).fs = a.fs := by
  simp [applyChain_eq]

theorem applyChain_coefsFinite {a : Active} (ha : a.CoefsFinite) {c : ChainCfg} (hc : c.Wf) :
    (a.applyChain c).CoefsFinite :=
  configure_coefsFinite
    (applyPeaks_coefsFinite (configure_coefsFinite ha .low hc.lowCut) hc bandIxs) .high hc.highCut

/-- Whatever the section flags were, APPLY over the whole chain leaves the first sections of each
bank active. -/
theorem applyChain_leadingActive (a : Active) {c : ChainCfg} (hc : c.Wf) (B : Bank) :
    (a.applyChain c).LeadingActive B := by
  cases B with
  | low =>
    have hlow : (a.configure .low c.lowCut).LeadingActive .low :=
      configure_leadingActive_self a .low hc.lowCut
    exact configure_leadingActive (hlow.congr (applyPeaks_secbyp _ c bandIxs .low)) .high hc.highCut
  | high => exact configure_leadingActive_self _ .high hc.highCut

/-! ### APPLY of one pending stage -/

/-- APPLY of what is pending for a stage: nothing, a CONFIGURE or a peak band's set, well formed if
PEND is (R184). -/
theorem applyPending_cases (a : Active) {p : Pending} (hp : p.wf = true) (k : Stage) :
    a.applyPending p k = a ∨
      (∃ B c, c.wf = true ∧ a.applyPending p k = a.configure B c) ∨
      ∃ b c, c.coef.finite = true ∧ a.applyPending p k = a.applyPeak b c := by
  have hk := pending_wf_iff.mp hp k
  cases k with
  | lowCut =>
    rcases h : p.lowCut with _ | c
    · exact .inl (by simp only [Active.applyPending, h])
    · exact .inr (.inl ⟨.low, c, hk c h, applyPending_lowCut h⟩)
  | peak b =>
    rcases h : p.peak[b] with _ | c
    · exact .inl (by simp only [Active.applyPending, h])
    · exact .inr (.inr ⟨b, c, hk c h, applyPending_peak h⟩)
  | highCut =>
    rcases h : p.highCut with _ | c
    · exact .inl (by simp only [Active.applyPending, h])
    · exact .inr (.inl ⟨.high, c, hk c h, applyPending_highCut h⟩)

theorem applyPending_fs (a : Active) {p : Pending} (hp : p.wf = true) (k : Stage) :
    (a.applyPending p k).fs = a.fs := by
  rcases applyPending_cases a hp k with e | ⟨B, c, -, e⟩ | ⟨b, c, -, e⟩ <;> rw [e]
  · exact configure_fs a B c
  · exact applyPeak_fs a b c

theorem applyPending_coefsFinite {a : Active} (ha : a.CoefsFinite) {p : Pending}
    (hp : p.wf = true) (k : Stage) : (a.applyPending p k).CoefsFinite := by
  rcases applyPending_cases a hp k with e | ⟨B, c, hc, e⟩ | ⟨b, c, hc, e⟩ <;> rw [e]
  · exact ha
  · exact configure_coefsFinite ha B hc
  · exact applyPeak_coefsFinite ha b hc

theorem applyPending_leadingActive {a : Active} {B : Bank} (ha : a.LeadingActive B) {p : Pending}
    (hp : p.wf = true) (k : Stage) : (a.applyPending p k).LeadingActive B := by
  rcases applyPending_cases a hp k with e | ⟨B', c, hc, e⟩ | ⟨b, c, -, e⟩ <;> rw [e]
  · exact ha
  · exact configure_leadingActive ha B' hc
  · exact ha.congr (applyPeak_secbyp a b c B)

end Sys2Proof.Machine
end

section
/-!
SUPPORT. The invariant `State.Inv` step by step: the updates that touch nothing it speaks of, the
commands, the commit and the reset event, and from them every instruction and every turn.
-/

namespace Sys2Proof.Machine

theorem ne_unprepared_of_isReady {l : LState} (h : l.isReady = true) : l ≠ .unprepared := by
  rintro rfl
  cases h

@[simp] theorem writeReg_params (s : State) (w : Word) (r : Reg) :
    (s.writeReg w r).params = s.params := by cases r <;> rfl
@[simp] theorem writeReg_lstate (s : State) (w : Word) (r : Reg) :
    (s.writeReg w r).lstate = s.lstate := by cases r <;> rfl
@[simp] theorem writeReg_pend (s : State) (w : Word) (r : Reg) :
    (s.writeReg w r).pend = s.pend := by cases r <;> rfl
@[simp] theorem writeReg_act (s : State) (w : Word) (r : Reg) :
    (s.writeReg w r).act = s.act := by cases r <;> rfl
@[simp] theorem writeReg_st (s : State) (w : Word) (r : Reg) :
    (s.writeReg w r).st = s.st := by cases r <;> rfl

namespace State.Inv

variable {s t : State}

/-! ### Updates outside the invariant -/

/-- The invariant speaks of the configuration, LSTATE, PEND and the active configuration, and of the
delay lines in UNPREPARED only. -/
theorem of_frame (h : s.Inv) (hparams : t.params = s.params) (hlstate : t.lstate = s.lstate)
    (hpend : t.pend = s.pend) (hact : t.act = s.act)
    (hst : s.lstate = .unprepared → t.st = Delays.zero) : t.Inv where
  params := hparams ▸ h.params
  actFs := by rw [hlstate, hact]; exact h.actFs
  busyReady := by rw [State.busy, hpend, hlstate]; exact h.busyReady
  coefFinite := by rw [hact]; exact h.coefFinite
  unprepared := by
    rw [hlstate, hact]
    exact fun hu => ⟨(h.unprepared hu).1, hst hu⟩
  sections := by rw [hlstate, hact]; exact h.sections
  pend := hpend ▸ h.pend

theorem withPort (h : s.Inv) (p : Ports) : { s with port := p }.Inv :=
  h.of_frame rfl rfl rfl rfl fun hu => (h.unprepared hu).2

theorem setError (h : s.Inv) (b : ErrBit) : (s.setError b).Inv :=
  h.of_frame rfl rfl rfl rfl fun hu => (h.unprepared hu).2

theorem returnSample (h : s.Inv) (y : Word) : (s.returnSample y).Inv :=
  h.withPort _

theorem returnData (h : s.Inv) (w : Word) : (s.returnData w).Inv :=
  h.withPort _

theorem writeReg (h : s.Inv) (w : Word) (r : Reg) : (s.writeReg w r).Inv :=
  h.of_frame (writeReg_params s w r) (writeReg_lstate s w r) (writeReg_pend s w r)
    (writeReg_act s w r) fun hu => (writeReg_st s w r).trans (h.unprepared hu).2

/-! ### Commands and PROCESS -/

theorem flush (h : s.Inv) : s.flush.Inv := h.of_frame rfl rfl rfl rfl fun _ => rfl

theorem query (h : s.Inv) : s.query.Inv := by
  rcases query_cases s with ⟨-, e⟩ | ⟨-, r, e⟩ <;> rw [e]
  · exact h.setError .serr
  · exact h.of_frame rfl rfl rfl rfl fun hu => (h.unprepared hu).2

/-- An accepted PREPARE installs a designed chain at a valid ACT_FS, whatever was there before. -/
theorem prepareWith (h : s.Inv) {fs : Word} (hfs : validFs fs = true) {g : Snapshot}
    (hg : validSnap s.params g = true) : (s.prepareWith fs g).Inv where
  params := h.params
  actFs := fun _ => (congrArg validFs (applyChain_fs _ _)).trans hfs
  busyReady := fun _ => rfl
  coefFinite :=
    applyChain_coefsFinite (a := { s.act with fs := fs }) h.coefFinite (designSnapshot_wf hg fs)
  unprepared := fun hu => nomatch hu
  sections := fun _ => applyChain_leadingActive _ (designSnapshot_wf hg fs)
  pend := h.pend

theorem prepare (h : s.Inv) : s.prepare.Inv := by
  rcases prepare_cases s with e | ⟨hfs, hg, e⟩ <;> rw [e]
  · exact h.setError .cerr
  · exact h.prepareWith hfs hg

theorem update (h : s.Inv) : s.update.Inv := by
  rcases update_cases s with ⟨-, e⟩ | ⟨-, -, e⟩ | ⟨hready, hg, e⟩ <;> rw [e]
  · exact h.setError .serr
  · exact h.setError .cerr
  · exact { h with
      busyReady := fun _ => hready
      pend := ofChain_wf (designSnapshot_wf hg s.act.fs) }

/-- RELEASE takes effect at BUSY = 0 only, so nothing is pending in RELEASED. -/
theorem release (h : s.Inv) (hidle : s.busy = false) : s.release.Inv := by
  rcases release_cases s with ⟨-, e⟩ | ⟨hl, e⟩ <;> rw [e]
  · exact h.setError .serr
  · exact { h with
      actFs := fun hr => nomatch hr
      busyReady := fun hb => absurd (hidle.symm.trans hb) Bool.false_ne_true
      unprepared := fun hu => nomatch hu
      sections := fun _ => h.sections hl }

/-- A command keeps the invariant if its effect does at BUSY = 0. -/
theorem command (h : s.Inv) {w : Word} {f : State → State} (hf : s.busy = false → (f s).Inv)
    (e : s.command w f = .next t) : t.Inv := by
  rcases command_cases s w f with ⟨-, e'⟩ | ⟨hidle, e'⟩ <;> cases e'.symm.trans e
  · exact h.withPort _
  · exact hf hidle

theorem filterSample (h : s.Inv) (hready : s.lstate.isReady = true) (x : Word) :
    (s.filterSample x).Inv :=
  { h with
    actFs := fun _ => h.actFs hready
    busyReady := fun _ => rfl
    unprepared := fun hu => nomatch hu
    sections := fun _ => h.sections (ne_unprepared_of_isReady hready) }

theorem process (h : s.Inv) {x : Word} (e : execProcess x s = .next t) : t.Inv := by
  rcases process_cases x s with ⟨-, e'⟩ | ⟨hready, e'⟩ <;> cases e'.symm.trans e
  · exact (h.setError .serr).returnSample x
  · exact h.filterSample hready x

theorem exec (h : s.Inv) {i : Instr} (e : Machine.exec i s = .next t) : t.Inv := by
  cases i with
  | regRead waddr wdata => cases e; exact h.returnData _
  | regWrite waddr wdata => cases e; exact h.writeReg wdata _
  | cmdNop => exact h.command (fun _ => h) e
  | cmdPrepare => exact h.command (fun _ => h.prepare) e
  | cmdUpdate => exact h.command (fun _ => h.update) e
  | cmdFlush => exact h.command (fun _ => h.flush) e
  | cmdRelease => exact h.command h.release e
  | cmdQuery => exact h.command (fun _ => h.query) e
  | cmdIllegal rsv op => exact h.command (fun _ => h.setError .ierr) e
  | process x => exact h.process e

/-! ### Commits, the reset event and turns -/

/-- A stage is pending only in PREPARED and PROCESSING, where installing it keeps ACT_FS valid, the
coefficients finite and the first sections of each bank active. -/
theorem commitStage (h : s.Inv) {k : Stage} (hk : s.pend.has k = true) : (s.commitStage k).Inv := by
  have hready : s.lstate.isReady = true := h.busyReady (any_iff_has.mpr ⟨k, hk⟩)
  have hprep : s.lstate ≠ .unprepared := ne_unprepared_of_isReady hready
  exact
    { params := h.params
      actFs := fun _ => (congrArg validFs (applyPending_fs _ h.pend k)).trans (h.actFs hready)
      busyReady := fun _ => hready
      coefFinite := applyPending_coefsFinite h.coefFinite h.pend k
      unprepared := fun hu => absurd hu hprep
      sections := fun _ B => applyPending_leadingActive (h.sections hprep B) h.pend k
      pend := without_wf h.pend k }

theorem commit (h : s.Inv) (pick : Nat) : (s.commit pick).Inv := by
  rcases commit_cases s pick with ⟨-, e⟩ | ⟨k, hk, e⟩ <;> rw [e]
  · exact h
  · exact h.commitStage hk

theorem resetEvent (h : s.Inv) : s.resetEvent.Inv where
  params := h.params
  actFs := fun hr => nomatch hr
  busyReady := fun hb => by
    obtain ⟨k, hk⟩ := any_iff_has.mp hb
    exact absurd ((pendingEmpty_has k).symm.trans hk) Bool.false_ne_true
  coefFinite := reset_coefsFinite
  unprepared := fun _ => ⟨rfl, rfl⟩
  sections := fun hl => absurd rfl hl
  pend := pendingEmpty_wf

theorem runTurn (h : s.Inv) {u : Turn} (e : Machine.runTurn u s = .next t) : t.Inv := by
  rcases runTurn_cases u s with ⟨i, s', e', hfetch⟩ | e' | ⟨pick, e'⟩ | e' <;> rw [e'] at e
  · have hs' : s'.Inv := by
      rw [fetched_frame hfetch]
      exact h.withPort _
    exact hs'.exec e
  · cases e; exact h
  · cases e; exact h.commit pick
  · cases e; exact h.resetEvent

theorem takeTurn (h : s.Inv) : s.takeTurn.2.Inv := by
  rw [takeTurn_frame s]
  exact h.withPort _

end State.Inv

/-- Settles O60: each turn's agent keeps the invariant, once the turn is taken from the schedule. -/
theorem everyStepKeepsTheInvariant : Obligations.EveryStepKeepsTheInvariant :=
  fun _ _ h e => h.takeTurn.runTurn e

end Sys2Proof.Machine
end

section
/-!
Register access (46_register_access.md): which offsets are reserved, and what a read or a write of
one register leaves unchanged: O7 and O9.
-/

namespace Sys2Proof.Machine
open Sys2Proof.Claims

/-! ### The reserved offsets of the register map -/

@[simp] theorem headReg_eq_reserved_iff (n : Nat) : headReg n = .reserved ↔ 8 ≤ n := by
  match n with
  | 0 | 1 | 2 | 3 | 4 | 5 | 6 | 7 | _ + 8 => simp [headReg]

@[simp] theorem queryReg_eq_reserved_iff (n : Nat) : queryReg n = .reserved ↔ 4 ≤ n := by
  match n with
  | 0 | 1 | 2 | 3 | _ + 4 => simp [queryReg]

@[simp] theorem bandReg_eq_reserved_iff (b : Fin 5) (n : Nat) :
    bandReg b n = .reserved ↔ 3 ≤ n := by
  match n with
  | 0 | 1 | 2 | _ + 3 => simp [bandReg]

@[simp] theorem coefReg_eq_reserved_iff (j : Fin 13) (n : Nat) :
    coefReg j n = .reserved ↔ 5 ≤ n := by
  match n with
  | 0 | 1 | 2 | 3 | 4 | _ + 5 => simp [coefReg]

/-- The reserved offsets are those R51 gives to no register (R52), region by region of the map. -/
theorem regAt_eq_reserved_iff (waddr : WAddr) :
    regAt waddr = .reserved ↔ ¬namedOffset waddr.toNat := by
  simp only [regAt, namedOffset]
  split_ifs <;> simp <;> omega

/-! ### One transaction at a register -/

theorem exec_regRead (waddr : WAddr) (w : Word) (s : State) :
    exec (.regRead waddr w) s = .next (s.returnData (s.readReg (regAt waddr))) := rfl

theorem exec_regWrite (waddr : WAddr) (w : Word) (s : State) :
    exec (.regWrite waddr w) s = .next (s.writeReg w (regAt waddr)) := rfl

@[simp] theorem readReg_returnData (s : State) (w : Word) (r : Reg) :
    (s.returnData w).readReg r = s.readReg r := by cases r <;> rfl

theorem writeOneToClear_idem (e : Errors) (w : Word) :
    (e.writeOneToClear w).writeOneToClear w = e.writeOneToClear w := by
  simp [Errors.writeOneToClear]

/-- A second write of the same word finds the register as the first one left it (R56): STATUS has
the error bits already cleared, every other register holds the word. -/
theorem writeReg_idem (s : State) (w : Word) (r : Reg) :
    (s.writeReg w r).writeReg w r = s.writeReg w r := by
  cases r with
  | status => simp [State.writeReg, writeOneToClear_idem]
  | bandFreq b | bandGain b | bandQ b => simp [State.writeReg]
  | _ => rfl

/-- A write changes the reading of no register but its own (R56). Registers of one band family share
a vector, of which the write sets one entry; any other write replaces an element that no other
register reads. -/
theorem readReg_writeReg_of_ne {r q : Reg} (hne : r ≠ q) (s : State) (w : Word) :
    (s.writeReg w q).readReg r = s.readReg r := by
  cases q with
  | bandFreq b | bandGain b | bandQ b =>
    cases r with
    | bandFreq c | bandGain c | bandQ c => simp_all [State.writeReg, State.readReg]
    | _ => rfl
  | _ => cases r <;> trivial

/-- Settles O7: an offset outside R51's map names the reserved register. -/
theorem reservedOffsetsReadZeroIgnoreWrites : Obligations.ReservedOffsetsReadZeroIgnoreWrites := by
  intro waddr w s hoffset
  have hreg : regAt waddr = .reserved := (regAt_eq_reserved_iff waddr).mpr hoffset
  rw [exec_regRead, exec_regWrite, hreg]
  exact ⟨rfl, rfl⟩

/-- Settles O9: a read only returns a word, a write is idempotent and local to its register, and at
each read-only or reserved register it is the identity. -/
theorem registerAccessSideEffects : Obligations.RegisterAccessSideEffects := by
  refine ⟨fun waddr w s t e r => ?read, fun waddr w s => ?write, fun waddr w s hreg => ?ignored⟩
  case read =>
    cases e
    exact readReg_returnData s _ r
  case write =>
    exact ⟨s.writeReg w (regAt waddr), exec_regWrite waddr w s,
      congrArg Host.Outcome.next (writeReg_idem s w (regAt waddr)),
      fun r hne => readReg_writeReg_of_ne hne s w⟩
  case ignored =>
    rw [exec_regWrite]
    obtain hmem | ⟨j, m, h⟩ | ⟨j, h | h⟩ := hreg
    · simp only [List.mem_cons, List.not_mem_nil, or_false] at hmem
      obtain h | h | h | h | h := hmem <;> rw [h] <;> rfl
    all_goals rw [h]; rfl

end Sys2Proof.Machine
end

section
/-!
The decoder (30_encoding.md), line by line of R75: what each kind of request and each command word
decodes to, and the fields of a command word read on the request's own bits: O3.
-/

namespace Sys2Proof

/-! ### The fields of a command word, on the bits of the request -/

@[simp] theorem cmdRsv_wdata (r : Req) : cmdRsv (Req.wdata r) = r.extractLsb' 8 24 :=
  BitVec.extractLsb'_extractLsb'_of_le (by decide)

@[simp] theorem cmdOp_wdata (r : Req) : cmdOp (Req.wdata r) = r.extractLsb' 0 8 :=
  BitVec.extractLsb'_extractLsb'_of_le (by decide)

/-! ### The decoder, by the lines of R75 -/

/-- Line (2) of R75. -/
theorem decode_ctl_read {r : Req} (hwe : Req.we r = false) :
    decode (.ctl r) = .regRead (Req.waddr r) (Req.wdata r) := by
  simp [decode, decodeCtl, hwe]

/-- Lines (3) and (4) of R75: a write to CMD is the command of its data word. -/
theorem decode_ctl_command {r : Req} (hwe : Req.we r = true) (hcmd : Req.waddr r = cmdWAddr) :
    decode (.ctl r) = decodeCommand (Req.wdata r) := by
  simp [decode, decodeCtl, hwe, hcmd]

/-- Line (5) of R75. -/
theorem decode_ctl_write {r : Req} (hwe : Req.we r = true) (hcmd : Req.waddr r ≠ cmdWAddr) :
    decode (.ctl r) = .regWrite (Req.waddr r) (Req.wdata r) := by
  simp [decode, decodeCtl, hwe, hcmd]

/-- Line (3) of R75: a command word with RSV = 0 is the one its opcode names, by packing (R74). -/
theorem decodeCommand_of_fields {w : Word} {op : BitVec 8} (hrsv : cmdRsv w = 0#24)
    (hop : cmdOp w = op) : decodeCommand w = decodeCommand (cmdWord 0#24 op) := by
  rw [← cmdWord_fields w, hrsv, hop]

/-- Line (4) of R75: any word that is none of the six commands is illegal, RSV and OP kept. -/
theorem decodeCommand_illegal {w : Word} (h : ¬(cmdRsv w = 0#24 ∧ (cmdOp w).toNat ≤ 5)) :
    decodeCommand w = .cmdIllegal (cmdRsv w) (cmdOp w) := by
  by_cases hrsv : cmdRsv w = 0#24
  · have hop : ∀ op : BitVec 8, op.toNat ≤ 5 → cmdOp w ≠ op :=
      fun op hle heq => h ⟨hrsv, heq ▸ hle⟩
    simp [decodeCommand, hop]
  · simp [decodeCommand, hrsv]

/-- Settles O3: a clause for each of `decode_ctl_read`, `decode_ctl_command` and `decode_ctl_write`,
with the command's fields moved from its data word to the request. Each of the six words packed from
RSV = 0 and an opcode is closed, and decodes by evaluation. -/
theorem decoderClassifiesByFirstMatch : Obligations.DecoderClassifiesByFirstMatch := by
  refine ⟨fun x => rfl, fun r => ⟨decode_ctl_read, fun hwe hcmd hrsv => ?commands,
    fun hwe hcmd hword => ?illegal, decode_ctl_write⟩⟩
  case commands =>
    have named {op : BitVec 8} (hop : r.extractLsb' 0 8 = op) :
        decode (.ctl r) = decodeCommand (cmdWord 0#24 op) :=
      (decode_ctl_command hwe hcmd).trans
        (decodeCommand_of_fields ((cmdRsv_wdata r).trans hrsv) ((cmdOp_wdata r).trans hop))
    exact ⟨named, named, named, named, named, named⟩
  case illegal =>
    rw [← cmdRsv_wdata, ← cmdOp_wdata] at hword ⊢
    exact (decode_ctl_command hwe hcmd).trans (decodeCommand_illegal hword)

end Sys2Proof
end

section
/-!
SUPPORT. The exact values of finite words and of the configuration's constants: comparisons over the
rational numbers (R12), the ranges of R102, and what a well-formed configuration bounds (R6).
-/

namespace Sys2Proof.Machine
open Sys2Proof.Claims

/-! ### Finite words -/

theorem extVal32_of_finite {w : Word} (h : isFinite32 w = true) :
    extVal32 w = some ((rat32 w : WithTop ℚ) : WithBot (WithTop ℚ)) := by
  obtain ⟨s, m, hw⟩ := exists_fin_of_finite h
  rw [extVal32_eq_ext, rat32, hw]
  rfl

theorem le32_iff_rat32 {a b : Word} (ha : isFinite32 a = true) (hb : isFinite32 b = true) :
    le32 a b = true ↔ rat32 a ≤ rat32 b := by
  rw [le32_of_extVal32 (extVal32_of_finite ha) (extVal32_of_finite hb), WithBot.coe_le_coe,
    WithTop.coe_le_coe]

theorem lt32_iff_rat32 {a b : Word} (ha : isFinite32 a = true) (hb : isFinite32 b = true) :
    lt32 a b = true ↔ rat32 a < rat32 b := by
  rw [lt32, Bool.and_eq_true, Bool.not_eq_true', ← Bool.not_eq_true, le32_iff_rat32 ha hb,
    le32_iff_rat32 hb ha, ← lt_iff_le_not_ge]

theorem rat32_zero32 : rat32 zero32 = 0 := by decide +kernel

theorem rat32_neg32 (w : Word) : rat32 (neg32 w) = -rat32 w := by
  rw [rat32, neg32, val32_xor_signBit, ratOf_flip, rat32]

theorem isFinite32_neg32 (w : Word) : isFinite32 (neg32 w) = isFinite32 w :=
  isFinite32_xor_signBit w

/-- Between finite words there is no infinity and no NaN. -/
theorem finite_of_inRange {lo hi v : Word} (hlo : isFinite32 lo = true) (hhi : isFinite32 hi = true)
    (h : inRange lo hi v = true) : isFinite32 v = true := by
  obtain ⟨s, m, hlo⟩ := exists_fin_of_finite hlo
  obtain ⟨t, n, hhi⟩ := exists_fin_of_finite hhi
  rw [inRange, Bool.and_eq_true, le32, le32, hlo, hhi] at h
  obtain ⟨hl, hh⟩ := h
  unfold isFinite32
  cases hv : val32 v with
  | fin _ _ => rfl
  | nan => rw [hv] at hl; cases hl
  | inf neg =>
    rw [hv] at hl hh
    cases neg
    · cases hh
    · cases hl

/-- A range with finite bounds holds the finite words whose values it bounds (R12, R102). -/
theorem inRange_iff_within {lo hi : Word} (hlo : isFinite32 lo = true) (hhi : isFinite32 hi = true)
    (v : Word) : inRange lo hi v = true ↔ Within (rat32 lo) (rat32 hi) v := by
  have hv : isFinite32 v = true →
      (inRange lo hi v = true ↔ rat32 lo ≤ rat32 v ∧ rat32 v ≤ rat32 hi) := fun hv => by
    rw [inRange, Bool.and_eq_true, le32_iff_rat32 hlo hv, le32_iff_rat32 hv hhi]
  constructor
  · intro h
    have hfin := finite_of_inRange hlo hhi h
    exact ⟨hfin, (hv hfin).mp h⟩
  · rintro ⟨hfin, hb⟩
    exact (hv hfin).mpr hb

/-! ### The constants of a configuration (R6) -/

theorem mem_bandIxs (b : Fin 5) : b ∈ bandIxs := by revert b; decide

theorem rangeWf_finite {lo hi : Word} (h : rangeWf lo hi = true) :
    isFinite32 lo = true ∧ isFinite32 hi = true := by
  simp only [rangeWf, Bool.and_eq_true] at h
  exact h.1.1

/-- The constraints of R6 on the bounds R102 checks and R101 clamps with. -/
theorem params_wf_iff {p : Params} : p.wf = true ↔
    (p.gainMax = 0x41400000#32 ∨ p.gainMax = 0x41C00000#32) ∧
      (∀ b : Fin 5, rangeWf p.bandMin[b] p.bandMax[b] = true) ∧
      rangeWf p.cutMin p.cutMax = true ∧ validFs p.fMinHz = true ∧ nyqWf p.nyqFrac = true := by
  simp [Params.wf, validFs, mem_bandIxs, and_assoc]

theorem params_gainMax_finite {p : Params} (h : p.wf = true) : isFinite32 p.gainMax = true := by
  obtain ⟨h12 | h24, -⟩ := params_wf_iff.mp h
  · rw [h12]; decide
  · rw [h24]; decide

/-- A sample rate is valid iff it is finite and positive (R103). -/
theorem validFs_iff (fs : Word) : validFs fs = true ↔ isFinite32 fs = true ∧ 0 < rat32 fs := by
  rw [validFs, Bool.and_eq_true, ← rat32_zero32]
  exact and_congr_right fun h => lt32_iff_rat32 (by decide) h

theorem real32_pos_of_validFs {fs : Word} (h : validFs fs = true) : 0 < real32 fs :=
  Rat.cast_pos.mpr ((validFs_iff fs).mp h).2

/-- Finite values of one format compare as their exact values do (R12). -/
theorem fin_le_fin_iff_ratOf (F : FloatFmt) (s t : Bool) (m n : Nat) :
    (FVal.fin s m).le (.fin t n) = true ↔ ratOf F (.fin s m) ≤ ratOf F (.fin t n) := by
  have hunit : (0 : ℚ) < 2 ^ F.unitExp := by positivity
  simp only [FVal.le, ratOf, decide_eq_true_eq, div_le_div_iff_of_pos_right hunit, Int.cast_le]

theorem FVal.exists_fin_of_isFinite {v : FVal} (h : v.isFinite = true) : ∃ s m, v = .fin s m := by
  cases v with
  | fin s m => exact ⟨s, m, rfl⟩
  | inf s => cases h
  | nan => cases h

theorem le_val64_iff {a b : Double} (ha : (val64 a).isFinite = true)
    (hb : (val64 b).isFinite = true) : (val64 a).le (val64 b) = true ↔ rat64 a ≤ rat64 b := by
  obtain ⟨s, m, ha⟩ := FVal.exists_fin_of_isFinite ha
  obtain ⟨t, n, hb⟩ := FVal.exists_fin_of_isFinite hb
  rw [rat64, rat64, ha, hb]
  exact fin_le_fin_iff_ratOf .b64 s t m n

/-- NYQ_FRAC lies strictly between 0 and 1/2 (R6). -/
theorem nyqFrac_bounds {v : Double} (h : nyqWf v = true) : 0 < rat64 v ∧ rat64 v < 1 / 2 := by
  simp only [nyqWf, Bool.and_eq_true, Bool.not_eq_true', ← Bool.not_eq_true] at h
  obtain ⟨⟨hpos, hlt⟩, hfin⟩ := h
  rw [le_val64_iff hfin (by decide +kernel), not_le,
    show rat64 0#64 = 0 by decide +kernel] at hpos
  rw [le_val64_iff (by decide +kernel) hfin, not_le,
    show rat64 0x3FE0000000000000#64 = 1 / 2 by decide +kernel] at hlt
  exact ⟨hpos, hlt⟩

end Sys2Proof.Machine
end

section
/-!
SUPPORT. APPLY over the whole chain, stage by stage (R147, R184): what each bank and each peak band
holds afterwards.
-/

namespace Sys2Proof.Machine
open Sys2Proof.Claims

/-! ### Stages -/

/-- Every stage index is a bank's or a peak band's (R15). -/
theorem stage_cases (k : Fin 7) : (∃ B : Bank, k = B.stage) ∨ ∃ b, k = peakStage b := by
  have h : ∀ k : Fin 7, k = Bank.low.stage ∨ k = Bank.high.stage ∨ ∃ b, k = peakStage b := by
    decide
  rcases h k with h | h | h
  · exact .inl ⟨_, h⟩
  · exact .inl ⟨_, h⟩
  · exact .inr h

theorem stage_ne_peakStage (B : Bank) (b : Fin 5) : B.stage ≠ peakStage b := by
  revert b; cases B <;> decide

theorem peakStage_inj {b b' : Fin 5} (h : peakStage b = peakStage b') : b = b' := by
  revert h; revert b b'; decide

theorem slot_ne_of_ne {B B' : Bank} (h : B ≠ B') (i m : Fin 4) : B.slot i ≠ B'.slot m :=
  fun e => h (slot_inj e).1

/-! ### CONFIGURE and APPLY of one stage -/

theorem configure_sbyp (a : Active) (B : Bank) (c : CutCfg) (k : Fin 7) :
    (a.configure B c).sbyp[k] = if k = B.stage then c.byp else a.sbyp[k] := by
  obtain ⟨-, hsbyp, -⟩ := configure_spec a B c
  rw [hsbyp]
  exact getElem_set_fin a.sbyp B.stage k c.byp

theorem configure_coef_of_ne {a : Active} {B : Bank} {c : CutCfg} {j : Fin 13}
    (h : ∀ m, j ≠ B.slot m) : (a.configure B c).coef[j] = a.coef[j] := by
  obtain ⟨-, -, -, hframe, -⟩ := configure_spec a B c
  exact hframe j h

theorem configure_secbyp_of_ne {a : Active} {B B' : Bank} {c : CutCfg} (h : B' ≠ B) :
    (a.configure B c).secbyp B' = a.secbyp B' := by
  obtain ⟨-, -, hother, -, -⟩ := configure_spec a B c
  exact hother B' h

theorem configure_bankApplied (a : Active) (B : Bank) (c : CutCfg) :
    BankApplied B c a (a.configure B c) := by
  obtain ⟨-, -, -, -, hbank⟩ := configure_spec a B c
  refine ⟨by rw [configure_sbyp, if_pos rfl], fun i => ⟨(hbank i).1, ?_⟩⟩
  rw [(hbank i).2]
  split_ifs with h
  · rw [List.getElem?_eq_getElem h, Option.getD_some]
  · rw [List.getElem?_eq_none (by omega), Option.getD_none]

theorem applyPeak_coef (a : Active) (b : Fin 5) (c : PeakCfg) (j : Fin 13) :
    (a.applyPeak b c).coef[j] = if j = peakSlot b then c.coef else a.coef[j] :=
  getElem_set_fin a.coef (peakSlot b) j c.coef

theorem applyPeak_sbyp (a : Active) (b : Fin 5) (c : PeakCfg) (k : Fin 7) :
    (a.applyPeak b c).sbyp[k] = if k = peakStage b then c.byp else a.sbyp[k] :=
  getElem_set_fin a.sbyp (peakStage b) k c.byp

/-! ### APPLY of the peak bands -/

theorem applyPeaks_coef_of_ne {c : ChainCfg} {j : Fin 13} (hj : ∀ b, j ≠ peakSlot b)
    (bs : List (Fin 5)) (a : Active) : (a.applyPeaks c bs).coef[j] = a.coef[j] := by
  induction bs generalizing a with
  | nil => rfl
  | cons b bs ih => exact (ih _).trans (by rw [applyPeak_coef, if_neg (hj b)])

theorem applyPeaks_sbyp_of_ne {c : ChainCfg} {k : Fin 7} (hk : ∀ b, k ≠ peakStage b)
    (bs : List (Fin 5)) (a : Active) : (a.applyPeaks c bs).sbyp[k] = a.sbyp[k] := by
  induction bs generalizing a with
  | nil => rfl
  | cons b bs ih => exact (ih _).trans (by rw [applyPeak_sbyp, if_neg (hk b)])

/-- A peak band holds its configuration if it is among those applied, and else what it held. -/
theorem applyPeaks_peak (c : ChainCfg) (b : Fin 5) (bs : List (Fin 5)) (a : Active) :
    (a.applyPeaks c bs).coef[peakSlot b] =
        (if b ∈ bs then c.peak[b].coef else a.coef[peakSlot b]) ∧
      (a.applyPeaks c bs).sbyp[peakStage b] =
        (if b ∈ bs then c.peak[b].byp else a.sbyp[peakStage b]) := by
  induction bs generalizing a with
  | nil => exact ⟨rfl, rfl⟩
  | cons b' bs ih =>
    obtain ⟨hcoef, hsbyp⟩ := ih (a.applyPeak b' c.peak[b'])
    refine ⟨hcoef.trans ?_, hsbyp.trans ?_⟩
    · rw [applyPeak_coef]
      by_cases h : b = b'
      · simp [h]
      · simp [h, mt peakSlot_inj h]
    · rw [applyPeak_sbyp]
      by_cases h : b = b'
      · simp [h]
      · simp [h, mt peakStage_inj h]

/-! ### APPLY of the whole chain -/

/-- The configuration of a bank in a chain configuration. -/
def ChainCfg.cut (c : ChainCfg) : Bank → CutCfg
  | .low => c.lowCut
  | .high => c.highCut

theorem applyChain_bankApplied (a : Active) (c : ChainCfg) (B : Bank) :
    BankApplied B (c.cut B) a (a.applyChain c) := by
  have hstage (b : Fin 5) : B.stage ≠ peakStage b := stage_ne_peakStage B b
  have hslot (i : Fin 4) (b : Fin 5) : B.slot i ≠ peakSlot b := slot_ne_peakSlot B i b
  rw [applyChain_eq]
  cases B with
  | low =>
    obtain ⟨hbyp, hbank⟩ := configure_bankApplied a .low c.lowCut
    refine ⟨?_, fun i => ⟨?_, ?_⟩⟩
    · rw [configure_sbyp, if_neg (by decide), applyPeaks_sbyp_of_ne hstage]
      exact hbyp
    · rw [configure_secbyp_of_ne (by decide), applyPeaks_secbyp]
      exact (hbank i).1
    · rw [configure_coef_of_ne (slot_ne_of_ne (by decide) i), applyPeaks_coef_of_ne (hslot i)]
      exact (hbank i).2
  | high =>
    obtain ⟨hbyp, hbank⟩ := configure_bankApplied
      ((a.configure .low c.lowCut).applyPeaks c bandIxs) .high c.highCut
    refine ⟨hbyp, fun i => ⟨(hbank i).1, (hbank i).2.trans ?_⟩⟩
    rw [applyPeaks_coef_of_ne (hslot i), configure_coef_of_ne (slot_ne_of_ne (by decide) i)]
    rfl

theorem applyChain_peak (a : Active) (c : ChainCfg) (b : Fin 5) :
    (a.applyChain c).coef[peakSlot b] = c.peak[b].coef ∧
      (a.applyChain c).sbyp[peakStage b] = c.peak[b].byp := by
  obtain ⟨hcoef, hsbyp⟩ := applyPeaks_peak c b bandIxs (a.configure .low c.lowCut)
  rw [if_pos (mem_bandIxs b)] at hcoef hsbyp
  rw [applyChain_eq, configure_coef_of_ne fun m => (slot_ne_peakSlot .high m b).symm,
    configure_sbyp, if_neg (stage_ne_peakStage .high b).symm]
  exact ⟨hcoef, hsbyp⟩

/-- Active configurations that agree on every stage and on ACT_FS are equal. -/
theorem Active.ext_stages {a a' : Active} (hfs : a.fs = a'.fs)
    (hbank : ∀ B : Bank, a.sbyp[B.stage] = a'.sbyp[B.stage] ∧ a.secbyp B = a'.secbyp B ∧
      ∀ i, a.coef[B.slot i] = a'.coef[B.slot i])
    (hpeak : ∀ b, a.sbyp[peakStage b] = a'.sbyp[peakStage b] ∧
      a.coef[peakSlot b] = a'.coef[peakSlot b]) : a = a' := by
  have hsbyp : a.sbyp = a'.sbyp := by
    refine Vector.ext fun k hk => ?_
    obtain ⟨B, e⟩ | ⟨b, e⟩ := stage_cases ⟨k, hk⟩
    · simpa [← e] using (hbank B).1
    · simpa [← e] using (hpeak b).1
  have hcoef : a.coef = a'.coef := by
    refine Vector.ext fun j hj => ?_
    obtain ⟨B, i, e⟩ | ⟨b, e⟩ := slot_cases ⟨j, hj⟩
    · simpa [← e] using (hbank B).2.2 i
    · simpa [← e] using (hpeak b).2
  have hlow : a.secLow = a'.secLow := (hbank .low).2.1
  have hhigh : a.secHigh = a'.secHigh := (hbank .high).2.1
  cases a
  cases a'
  simp_all

/-- A bank that has `c` applied keeps it when `c` is applied again: the sections `c` leaves alone
keep what they hold. -/
theorem bankApplied_idem {B : Bank} {c : CutCfg} {a a' a'' : Active} (h : BankApplied B c a a')
    (h' : BankApplied B c a' a'') :
    a''.sbyp[B.stage] = a'.sbyp[B.stage] ∧ a''.secbyp B = a'.secbyp B ∧
      ∀ i, a''.coef[B.slot i] = a'.coef[B.slot i] := by
  obtain ⟨hbyp, hsec⟩ := h
  obtain ⟨hbyp', hsec'⟩ := h'
  refine ⟨hbyp'.trans hbyp.symm, Vector.ext fun m hm => ?_, fun i => ?_⟩
  · exact (hsec' ⟨m, hm⟩).1.trans (hsec ⟨m, hm⟩).1.symm
  · rw [(hsec' i).2]
    cases hc : c.coefs[i.val]? with
    | none => rfl
    | some k => rw [Option.getD_some, (hsec i).2, hc, Option.getD_some]

theorem applyChain_idem (a : Active) (c : ChainCfg) :
    (a.applyChain c).applyChain c = a.applyChain c := by
  refine Active.ext_stages (applyChain_fs _ c)
    (fun B => bankApplied_idem (applyChain_bankApplied a c B) (applyChain_bankApplied _ c B))
    fun b => ?_
  obtain ⟨hcoef, hsbyp⟩ := applyChain_peak a c b
  obtain ⟨hcoef', hsbyp'⟩ := applyChain_peak (a.applyChain c) c b
  exact ⟨hsbyp'.trans hsbyp.symm, hcoef'.trans hcoef.symm⟩

/-- Settles O52: each stage already holds what it is given again (`bankApplied_idem`,
`applyChain_peak`), whatever the configuration. -/
theorem installIsIdempotent : Obligations.InstallIsIdempotent :=
  fun p snap fs a => applyChain_idem a (designSnapshot p snap fs)

end Sys2Proof.Machine
end

section
/-!
PREPARE (45_lifecycle_commands.md) and validation (R102, R103): O17.
-/

namespace Sys2Proof.Machine
open Sys2Proof.Claims

/-! ### What is valid -/

/-- The checks of R102, band by band and field by field. -/
theorem validSnap_iff {p : Params} {g : Snapshot} : validSnap p g = true ↔
    (∀ b : Fin 5, inRange p.bandMin[b] p.bandMax[b] g.freq[b] = true ∧
      inRange (neg32 p.gainMax) p.gainMax g.gain[b] = true ∧ inRange qMin qMax g.q[b] = true) ∧
    inRange p.cutMin p.cutMax g.lcFreq = true ∧ inRange p.cutMin p.cutMax g.hcFreq = true ∧
    g.lcSlope.toNat ≤ 3 ∧ g.hcSlope.toNat ≤ 3 := by
  simp [validSnap, mem_bandIxs, and_assoc]

theorem rat32_qMax : rat32 qMax = 10 := by decide +kernel

/-- A valid snapshot, over the exact values (R102). -/
theorem validSnap_iff_within {p : Params} (hp : p.wf = true) (g : Snapshot) :
    validSnap p g = true ↔
      (∀ b : Fin 5, Within (rat32 p.bandMin[b]) (rat32 p.bandMax[b]) g.freq[b] ∧
        Within (-rat32 p.gainMax) (rat32 p.gainMax) g.gain[b] ∧
        Within (rat32 qMin) 10 g.q[b]) ∧
      Within (rat32 p.cutMin) (rat32 p.cutMax) g.lcFreq ∧
      Within (rat32 p.cutMin) (rat32 p.cutMax) g.hcFreq ∧
      g.lcSlope.toNat ≤ 3 ∧ g.hcSlope.toNat ≤ 3 := by
  have hgain := params_gainMax_finite hp
  have hgain' : isFinite32 (neg32 p.gainMax) = true := (isFinite32_neg32 _).trans hgain
  obtain ⟨-, hband, hcut, -⟩ := params_wf_iff.mp hp
  have hfreq (b : Fin 5) := rangeWf_finite (hband b)
  have hfc := rangeWf_finite hcut
  rw [validSnap_iff, ← rat32_qMax, ← rat32_neg32, inRange_iff_within hfc.1 hfc.2,
    inRange_iff_within hfc.1 hfc.2]
  refine and_congr_left' (forall_congr' fun b => ?_)
  rw [inRange_iff_within (hfreq b).1 (hfreq b).2, inRange_iff_within hgain' hgain,
    inRange_iff_within (by decide) (by decide)]

/-! ### What is captured -/

theorem slopeWord_lcSlope (g : Staging) : g.slopeWord.extractLsb' 0 4 = g.lcSlope :=
  BitVec.extractLsb'_append_eq_right

theorem slopeWord_hcSlope (g : Staging) : g.slopeWord.extractLsb' 8 4 = g.hcSlope := by
  unfold Staging.slopeWord
  rw [BitVec.extractLsb'_append_eq_of_le (by decide),
    BitVec.extractLsb'_append_eq_of_le (by decide)]
  exact BitVec.extractLsb'_append_eq_right

theorem getLsbD_bypass (s : State) (k : Fin 7) :
    (s.readReg .bypass).getLsbD k.val = s.stg.bypass.getLsbD k.val := by
  have hk : k.val < 32 := by omega
  simp [State.readReg, hk]

/-! ### What is installed -/

theorem cutCfg_getElem? (p : Params) (B : Bank) (fs f : Word) (code : BitVec 4) (byp : Bool)
    (i : Nat) : (cutCfg p B fs f code byp).coefs[i]? =
      if i ≤ code.toNat then some (designCut p B.kind fs f (code.toNat + 1) i) else none := by
  split_ifs with h
  · simp [cutCfg, List.getElem?_range (Nat.lt_succ_of_le h)]
  · simp [cutCfg, Nat.lt_of_not_le h]

/-- The sets of a slope code, applied to a bank, are that bank's designs (R110, R147). -/
theorem bankInstalled_of_applied {p : Params} {B : Bank} {fs f : Word} {code : BitVec 4}
    {byp : Bool} {old new : Active} (h : BankApplied B (cutCfg p B fs f code byp) old new) :
    BankInstalled p B fs f code old new := by
  obtain ⟨-, hsec⟩ := h
  have hlen : (cutCfg p B fs f code byp).coefs.length = code.toNat + 1 := by simp [cutCfg]
  intro i
  obtain ⟨hflag, hcoef⟩ := hsec i
  rw [hflag, hcoef, hlen, cutCfg_getElem?]
  refine ⟨rfl, ?_⟩
  split_ifs <;> rfl

/-- APPLY of a designed snapshot installs it (R110, R184). -/
theorem applyChain_installed (p : Params) (g : Snapshot) (fs : Word) (a : Active) :
    Installed p g fs a (a.applyChain (designSnapshot p g fs)) := by
  have hbank := applyChain_bankApplied a (designSnapshot p g fs)
  have hpeak := applyChain_peak a (designSnapshot p g fs)
  refine ⟨bankInstalled_of_applied (hbank .low), bankInstalled_of_applied (hbank .high),
    fun b => ?_, fun k => ?_⟩
  · rw [(hpeak b).1, designSnapshot_peak]
    rfl
  · obtain ⟨B, rfl⟩ | ⟨b, rfl⟩ := stage_cases k
    · rw [(hbank B).1]
      cases B <;> rfl
    · rw [(hpeak b).2, designSnapshot_peak]
      rfl

/-! ### PREPARE -/

theorem exec_cmdPrepare {s : State} (h : s.busy = false) : exec .cmdPrepare s = .next s.prepare :=
  command_of_idle h _ _

theorem prepare_of_invalid {s : State}
    (h : validFs s.stg.fs = false ∨ validSnap s.params s.stg.capture = false) :
    s.prepare = s.setError .cerr := by
  obtain e | ⟨hfs, hg, -⟩ := prepare_cases s
  · exact e
  · rw [hfs, hg] at h
    simp at h

theorem prepare_of_valid {s : State} (hfs : validFs s.stg.fs = true)
    (hg : validSnap s.params s.stg.capture = true) :
    s.prepare = s.prepareWith s.stg.fs s.stg.capture := by
  simp only [State.prepare, hfs, hg, if_true]

/-- Settles O17: `prepare_of_invalid` and `prepare_of_valid` are the two outcomes, and
`applyChain_installed` says what the second installs; the validity of FS and of a snapshot is read
over the exact values by `validFs_iff` and `validSnap_iff_within`. -/
theorem prepareInstallsOrRejects : Obligations.PrepareInstallsOrRejects := by
  refine ⟨fun s hidle => ⟨fun h => ?rejected, fun hfs hg => ?installed⟩, fun s => ?captured,
    validFs_iff, fun p g hp => validSnap_iff_within hp g⟩
  case rejected =>
    rw [exec_cmdPrepare hidle, prepare_of_invalid h]
    rfl
  case installed =>
    rw [exec_cmdPrepare hidle, prepare_of_valid hfs hg]
    exact ⟨_, rfl, applyChain_fs _ _, applyChain_installed s.params s.stg.capture s.stg.fs
      { s.act with fs := s.stg.fs }⟩
  case captured =>
    exact ⟨fun b => ⟨rfl, rfl, rfl⟩, rfl, rfl, (slopeWord_lcSlope s.stg).symm,
      (slopeWord_hcSlope s.stg).symm, fun k => (getLsbD_bypass s k).symm, rfl⟩

end Sys2Proof.Machine
end

section
/-!
The named properties of FACTORY (R111, R112): O40. Doubling a value of either format is exact unless
it overflows, and doubling before rounding to binary32 is doubling after it, above the subnormals.
-/

namespace Sys2Proof.Machine
open Sys2Proof.Claims

/-! ### Doubling is exact -/

theorem exists_patMag_of_unpack {F : FloatFmt} {bits m : Nat} {s : Bool}
    (h : unpack F bits = .fin s m) : ∃ p, m = patMag F p := by
  have hlt : bits % 2 ^ F.fracBits < 2 ^ F.fracBits := Nat.mod_lt _ (by positivity)
  unfold unpack at h
  dsimp only at h
  split_ifs at h with hones hzero hsub
  · obtain ⟨-, rfl⟩ := FVal.fin.inj h
    exact ⟨bits % 2 ^ F.fracBits, by simp [patMag, Nat.div_eq_of_lt hlt]⟩
  · obtain ⟨-, rfl⟩ := FVal.fin.inj h
    exact ⟨_, (patMag_of_significand ⟨.inr (by omega), by omega⟩).symm⟩

theorem exists_patMag_double (F : FloatFmt) (p : Nat) : ∃ q, patMag F q = 2 * patMag F p := by
  obtain ⟨sh, k, rfl, hlt, hs⟩ := exists_significand F p
  rw [patMag_of_significand hs]
  rcases lt_or_ge k (2 ^ F.fracBits) with hk | hk
  · obtain rfl : sh = 0 := hs.normal.resolve_right (by omega)
    exact ⟨_, (patMag_of_significand (k := 2 * k) ⟨.inl rfl, by omega⟩).trans (by ring)⟩
  · exact ⟨_, (patMag_of_significand (sh := sh + 1) (k := k) ⟨.inr hk, hlt.le⟩).trans (by ring)⟩

/-- A representable quotient is its own rounding. -/
theorem roundPat_of_eq_patMag {F : FloatFmt} (hF : 0 < F.fracBits) {num den q : Nat}
    (hden : 0 < den) (h : num = patMag F q * den) : roundPat F num den = q := by
  have hx : (num / den : ℚ) = patMag F q := by
    rw [h, Nat.cast_mul, mul_div_cancel_right₀ _ (by positivity)]
  obtain ⟨hle, -⟩ := roundPat_nearest F hF num den hden false q
  rw [hx] at hle
  simp only [signedMag, Bool.false_eq_true, if_false, Int.cast_natCast, sub_self, abs_zero,
    abs_nonpos_iff, sub_eq_zero] at hle
  exact (patMag_strictMono F).injective (by exact_mod_cast hle.symm)

/-! ### Products as values -/

theorem infPat_add_fraction (F : FloatFmt) : F.infPat + 2 ^ F.fracBits = F.signBit := by
  unfold FloatFmt.infPat FloatFmt.signBit
  rw [← Nat.succ_mul, Nat.succ_eq_add_one, Nat.sub_add_cancel Nat.one_le_two_pow, pow_add, mul_comm]

theorem infPat_lt_signBit (F : FloatFmt) : F.infPat < F.signBit := by
  have hpos : 0 < 2 ^ F.fracBits := by positivity
  have := infPat_add_fraction F
  omega

theorem nanPat_bounds {F : FloatFmt} (hF : 0 < F.fracBits) :
    F.infPat < F.nanPat ∧ F.nanPat < F.signBit := by
  have hpos : 0 < 2 ^ (F.fracBits - 1) := by positivity
  have hlt : 2 ^ (F.fracBits - 1) < 2 ^ F.fracBits := Nat.pow_lt_pow_right one_lt_two (by omega)
  have := infPat_add_fraction F
  unfold FloatFmt.nanPat
  omega

theorem unpack_nanPat {F : FloatFmt} (hF : 0 < F.fracBits) : unpack F F.nanPat = .nan := by
  obtain ⟨hgt, hlt⟩ := nanPat_bounds hF
  have h := unpack_withSign F false hlt
  rwa [if_neg hgt.not_gt, if_neg hgt.ne'] at h

theorem unpack_withSign_infPat (F : FloatFmt) (s : Bool) :
    unpack F (withSign F s F.infPat) = .inf s := by
  rw [unpack_withSign F s (infPat_lt_signBit F), if_neg (lt_irrefl _), if_pos rfl]

/-- A product fits the format's width. -/
theorem mulVal_lt {F : FloatFmt} (hF : 0 < F.fracBits) (x y : FVal) :
    mulVal F x y < 2 * F.signBit := by
  have hinf := infPat_lt_signBit F
  obtain ⟨-, hnan⟩ := nanPat_bounds hF
  obtain ⟨-, e⟩ | ⟨-, p, hp, e⟩ := mulVal_cases F x y
  · omega
  · rw [e, withSign]
    split <;> omega

theorem val32_mul32 (a b : Word) :
    val32 (mul32 a b) = unpack .b32 (mulVal .b32 (val32 a) (val32 b)) := by
  have hlt : mulVal .b32 (val32 a) (val32 b) < 2 ^ 32 := mulVal_lt (by decide) _ _
  rw [val32, mul32, BitVec.toNat_ofNat, Nat.mod_eq_of_lt hlt]

theorem val64_mul64 (a b : Double) :
    val64 (mul64 a b) = unpack .b64 (mulVal .b64 (val64 a) (val64 b)) := by
  have hlt : mulVal .b64 (val64 a) (val64 b) < 2 ^ 64 := mulVal_lt (by decide) _ _
  rw [val64, mul64, BitVec.toNat_ofNat, Nat.mod_eq_of_lt hlt]

/-- Twice a value of the format is a value of the format, so where the product does not overflow it
is exact. -/
theorem unpack_mulVal_double {F : FloatFmt} (hF : 0 < F.fracBits) {s : Bool} {bits : Nat}
    (h : (unpack F (mulVal F (.fin s (2 * 2 ^ F.unitExp)) (unpack F bits))).isFinite = true) :
    ∃ t m, unpack F bits = .fin t m ∧
      unpack F (mulVal F (.fin s (2 * 2 ^ F.unitExp)) (unpack F bits)) = .fin (s ^^ t) (2 * m) := by
  cases hx : unpack F bits with
  | nan =>
    have hnan : unpack F (mulVal F (.fin s (2 * 2 ^ F.unitExp)) .nan) = .nan := unpack_nanPat hF
    rw [hx, hnan] at h
    cases h
  | inf t =>
    rw [hx, mulVal, if_neg (by positivity), unpack_withSign_infPat] at h
    cases h
  | fin t m =>
    obtain ⟨p, rfl⟩ := exists_patMag_of_unpack hx
    obtain ⟨q, hq⟩ := exists_patMag_double F p
    have hround : roundPat F (2 * 2 ^ F.unitExp * patMag F p) (2 ^ F.unitExp) = q :=
      roundPat_of_eq_patMag hF (by positivity) (by rw [hq]; ring)
    have hle : min q F.infPat ≤ F.infPat := min_le_right _ _
    refine ⟨t, _, rfl, ?_⟩
    rw [hx] at h
    rw [mulVal, roundMag_eq_min, hround, unpack_withSign F _ (hle.trans_lt (infPat_lt_signBit F))]
      at h ⊢
    split_ifs at h ⊢ with hfin
    · rw [min_eq_left (by omega), hq]
    · cases h
    · cases h

/-! ### `b1` of a cut section (R111 P4) -/

theorem val32_cutFactor (kind : CutKind) : val32 (cutFactor kind) =
    .fin (decide (kind = .hp)) (2 * 2 ^ FloatFmt.b32.unitExp) := by
  cases kind <;> decide

theorem signedMag_doubling (kind : CutKind) (t : Bool) (m : Nat) :
    (signedMag (decide (kind = .hp) ^^ t) (2 * m) : ℚ) = doubling kind * signedMag t m := by
  rw [signedMag_cast, signedMag_cast]
  cases kind <;> cases t <;> simp [doubling]

/-- The binary32 product with P4's factor is exact where it is finite. -/
theorem rat32_mul32_cutFactor {kind : CutKind} {w : Word}
    (h : isFinite32 (mul32 (cutFactor kind) w) = true) :
    rat32 (mul32 (cutFactor kind) w) = doubling kind * rat32 w := by
  rw [isFinite32, val32_mul32, val32_cutFactor] at h
  obtain ⟨t, m, hw, he⟩ := unpack_mulVal_double (by decide) h
  rw [rat32, val32_mul32, val32_cutFactor, val32, he, rat32, val32, hw, ratOf_fin_units,
    ratOf_fin_units, signedMag_doubling, mul_div_assoc]

theorem coefs_finite_iff {c : Coefs} : c.finite = true ↔ isFinite32 c.b0 = true ∧
    isFinite32 c.b1 = true ∧ isFinite32 c.b2 = true ∧ isFinite32 c.a1 = true ∧
    isFinite32 c.a2 = true := by
  simp [Coefs.finite, and_assoc]

/-- What P4 asks of a cut set: `b2 = b0` and `b1` the doubled `b0` (R111). -/
def CutDoubled (kind : CutKind) (c : Coefs) : Prop :=
  c.b2 = c.b0 ∧ rat32 c.b1 = doubling kind * rat32 c.b0

theorem cutDoubled_of_structured {kind : CutKind} {c : Coefs} (h : cutStructured kind c = true) :
    CutDoubled kind c := by
  obtain ⟨hfin, hb2, hle, hge⟩ := cutStructured_iff.mp h
  obtain ⟨-, hb1, -⟩ := coefs_finite_iff.mp hfin
  obtain ⟨x, hx, hx'⟩ := (le32_antisymm_iff _ _).mp ⟨hle, hge⟩
  rw [extVal32_of_finite hb1] at hx
  obtain rfl := Option.some.inj hx
  have hmul : isFinite32 (mul32 (cutFactor kind) c.b0) = true := (isFinite32_iff _).mpr ⟨_, hx'⟩
  rw [extVal32_of_finite hmul] at hx'
  have heq : rat32 (mul32 (cutFactor kind) c.b0) = rat32 c.b1 := by simpa using hx'
  exact ⟨hb2, heq ▸ rat32_mul32_cutFactor hmul⟩

theorem conformCut_doubled (kind : CutKind) (c : Coefs) : CutDoubled kind (conformCut kind c) := by
  unfold conformCut
  split
  case isTrue h => exact cutDoubled_of_structured h
  case isFalse =>
    refine ⟨rfl, rat32_mul32_cutFactor ?_⟩
    split
    · assumption
    · cases kind <;> decide

/-! ### Rounding to binary32 after doubling (R112, log entry 8) -/

theorem divRNE_double (num den : Nat) : divRNE (2 * num) (2 * den) = divRNE num den := by
  unfold divRNE
  rw [Nat.mul_div_mul_left _ _ two_pos, Nat.mul_mod_mul_left]
  simp only [Nat.mul_lt_mul_left two_pos]

/-- A rounding above the least normal pattern comes from a value at or above it. -/
theorem le_div_of_lt_roundPat {F : FloatFmt} {num den : Nat}
    (h : 2 ^ F.fracBits < roundPat F num den) : 2 ^ F.fracBits ≤ num / den := by
  by_contra! hlt
  have hshift : roundShift F num den = 0 := by
    by_contra h0
    have := le_div_of_roundShift_ne_zero h0
    have : 2 ^ F.fracBits ≤ 2 ^ F.fracBits * 2 ^ roundShift F num den :=
      Nat.le_mul_of_pos_right _ (by positivity)
    omega
  obtain ⟨-, hle⟩ := div_le_divRNE num den
  rw [roundPat, hshift, zero_mul, zero_add, pow_zero, mul_one] at h
  omega

/-- Above the subnormals, doubling before rounding is doubling after it: the binade moves by one. -/
theorem patMag_roundPat_double {F : FloatFmt} {num den : Nat}
    (h : 2 ^ F.fracBits < roundPat F num den) :
    patMag F (roundPat F (2 * num) den) = 2 * patMag F (roundPat F num den) := by
  have hq := le_div_of_lt_roundPat h
  have hshift : roundShift F (2 * num) den = roundShift F num den + 1 := by
    have hhalf : 2 * num / den / 2 = num / den := by
      rw [Nat.div_div_eq_div_mul, mul_comm den, Nat.mul_div_mul_left _ _ two_pos]
    have hpos : 0 < 2 ^ F.fracBits := by positivity
    have hlog : F.fracBits ≤ Nat.log2 (num / den) := (Nat.le_log2 (by omega)).mpr hq
    have htwo : 2 ≤ 2 * num / den := by omega
    unfold roundShift
    rw [Nat.log2_def (2 * num / den), if_pos htwo, hhalf]
    omega
  have hden : den * 2 ^ (roundShift F num den + 1) = 2 * (den * 2 ^ roundShift F num den) := by
    ring
  rw [patMag_roundPat, patMag_roundPat, hshift, hden, divRNE_double]
  ring

/-- How many binary64 units make a binary32 unit. -/
def unitRatio : Nat := 2 ^ (FloatFmt.b64.unitExp - FloatFmt.b32.unitExp)

/-- A finite `rnd32` is the rounded pattern of a finite value. -/
theorem rnd32_of_finite {x : Double} (h : isFinite32 (rnd32 x) = true) :
    ∃ s m, val64 x = .fin s m ∧ roundPat .b32 m unitRatio < FloatFmt.b32.infPat ∧
      rnd32 x = word32 s (roundPat .b32 m unitRatio) := by
  cases hx : val64 x with
  | nan =>
    rw [rnd32, hx] at h
    cases h
  | inf s =>
    rw [rnd32, hx] at h
    cases s <;> cases h
  | fin s m =>
    have hrnd : rnd32 x = word32 s (roundMag .b32 m unitRatio) := by
      rw [rnd32, hx]
      rfl
    have hlt := roundMag_le .b32 m unitRatio
    rw [hrnd, isFinite32_word32 s (hlt.trans_lt (by decide)), decide_eq_true_eq,
      roundMag_eq_min] at h
    have hpat : roundPat .b32 m unitRatio < FloatFmt.b32.infPat := by omega
    exact ⟨s, m, rfl, hpat, by rw [hrnd, roundMag_eq_min, min_eq_left hpat.le]⟩

/-- A value above the least normal one has a pattern above the least normal one's. -/
theorem lt_of_lt_abs_rat32 {s : Bool} {p : Nat} (hp : p < FloatFmt.b32.infPat)
    (h : 1 / 2 ^ 126 < |rat32 (word32 s p)|) : 2 ^ FloatFmt.b32.fracBits < p := by
  have hleast : patMag .b32 (2 ^ FloatFmt.b32.fracBits) = 2 ^ 23 := by decide
  rw [← (patMag_strictMono .b32).lt_iff_lt, hleast]
  rw [rat32_word32 s hp, signedMag_cast, mul_div_assoc, abs_sign_mul,
    abs_of_nonneg (by positivity), div_lt_div_iff₀ (by positivity) (by positivity), one_mul,
    show (2 : ℚ) ^ 149 = 2 ^ 23 * 2 ^ 126 by norm_num, mul_lt_mul_iff_left₀ (by positivity)] at h
  exact_mod_cast h

/-- RF64's factor of P4, in binary64 (R112). -/
def cutFactor64 : CutKind → Double
  | .hp => neg64 (natTo64 2)
  | .lp => natTo64 2

theorem val64_cutFactor64 (kind : CutKind) : val64 (cutFactor64 kind) =
    .fin (decide (kind = .hp)) (2 * 2 ^ FloatFmt.b64.unitExp) := by
  cases kind <;> decide +kernel

/-- Rounding `b0` and the binary64 multiple of it give a doubled binary32 value, above the
subnormals. -/
theorem rat32_rnd32_mul64 {kind : CutKind} {x : Double} (hb0 : isFinite32 (rnd32 x) = true)
    (hb1 : isFinite32 (rnd32 (mul64 (cutFactor64 kind) x)) = true)
    (h : 1 / 2 ^ 126 < |rat32 (rnd32 x)|) :
    rat32 (rnd32 (mul64 (cutFactor64 kind) x)) = doubling kind * rat32 (rnd32 x) := by
  obtain ⟨t, m, hx, hlt, e⟩ := rnd32_of_finite hb0
  obtain ⟨s, k, hmul, hlt', e'⟩ := rnd32_of_finite hb1
  have hprod := hmul
  rw [val64_mul64, val64_cutFactor64] at hprod
  obtain ⟨t', m', hx', hval⟩ := unpack_mulVal_double (F := .b64) (bits := x.toNat) (by decide)
    (congrArg FVal.isFinite hprod)
  obtain ⟨rfl, rfl⟩ := FVal.fin.inj (hx.symm.trans hx')
  obtain ⟨rfl, rfl⟩ := FVal.fin.inj (hprod.symm.trans hval)
  rw [e] at h
  rw [e, e', rat32_word32 _ hlt, rat32_word32 _ hlt',
    patMag_roundPat_double (lt_of_lt_abs_rat32 hlt h), signedMag_doubling, mul_div_assoc]

theorem rf64Cut_numerator (p : Params) (kind : CutKind) (fs f : Word) (n i : Nat) :
    let b0 := (cutDesign rf64 kind (clamp64 p) (widen fs) (widen f) n i).b0
    (rf64Cut p kind fs f n i).b0 = rnd32 b0 ∧
      (rf64Cut p kind fs f n i).b1 = rnd32 (mul64 (cutFactor64 kind) b0) ∧
      (rf64Cut p kind fs f n i).b2 = rnd32 b0 := by
  cases kind <;> exact ⟨rfl, rfl, rfl⟩

/-- RF64's literal sets have P4's doubling above the least normal value (log entry 8). -/
theorem rf64Cut_doubled {p : Params} {kind : CutKind} {fs f : Word} {n i : Nat}
    (hfin : (rf64Cut p kind fs f n i).finite = true)
    (h : 1 / 2 ^ 126 < |rat32 (rf64Cut p kind fs f n i).b0|) :
    rat32 (rf64Cut p kind fs f n i).b1 = doubling kind * rat32 (rf64Cut p kind fs f n i).b0 := by
  obtain ⟨hb0, hb1, -⟩ := coefs_finite_iff.mp hfin
  obtain ⟨e0, e1, -⟩ := rf64Cut_numerator p kind fs f n i
  rw [e0] at hb0 h ⊢
  rw [e1] at hb1 ⊢
  exact rat32_rnd32_mul64 hb0 hb1 h

/-! ### What each FACTORY installs (R111, R112) -/

theorem literalOr_of_finite {conform : Coefs → Coefs} {c : Coefs} (h : c.finite = true) :
    literalOr conform c = c := if_pos h

theorem designPeak_reference {p : Params} (hp : p.factory = .reference) (fs f q g : Word) :
    designPeak p fs f q g = literalOr conformPeak (rf64Peak p fs f q g) := by
  unfold designPeak
  rw [hp]

theorem designCut_reference {p : Params} (hp : p.factory = .reference) (kind : CutKind)
    (fs f : Word) (n i : Nat) :
    designCut p kind fs f n i = literalOr (conformCut kind) (rf64Cut p kind fs f n i) := by
  unfold designCut
  rw [hp]

/-- Every cut set is RF64's literal one, where that is finite, or a conformed one. -/
theorem designCut_cases (p : Params) (kind : CutKind) (fs f : Word) (n i : Nat) :
    (p.factory = .reference ∧ (rf64Cut p kind fs f n i).finite = true ∧
        designCut p kind fs f n i = rf64Cut p kind fs f n i) ∨
      ∃ c, designCut p kind fs f n i = conformCut kind c := by
  cases hp : p.factory with
  | reference =>
    rw [designCut_reference hp]
    by_cases h : (rf64Cut p kind fs f n i).finite = true
    · exact .inl ⟨rfl, h, literalOr_of_finite h⟩
    · exact .inr ⟨_, if_neg h⟩
  | other id =>
    refine .inr ⟨Config.otherCut p kind fs f n i, ?_⟩
    unfold designCut
    rw [hp]

theorem designPeak_b1_eq_a1 (p : Params) (fs f q g : Word) :
    (designPeak p fs f q g).b1 = (designPeak p fs f q g).a1 := by
  unfold designPeak
  split
  · unfold literalOr
    split
    · rfl
    · exact (conformPeak_spec _).2
  · exact (conformPeak_spec _).2

/-- Settles O40: every set is RF64's literal one or a conformed one (`designCut_cases`); the second
is doubled (`conformCut_doubled`), the first above the least normal value (`rf64Cut_doubled`). -/
theorem factorySetsAreFiniteAndStructured : Obligations.FactorySetsAreFiniteAndStructured := by
  intro p kind fs f q g n i
  refine ⟨⟨designPeak_finite p fs f q g, designPeak_b1_eq_a1 p fs f q g⟩,
    ⟨designCut_finite p kind fs f n i, ?p4⟩, fun hp => ⟨fun h => ?peak, fun h => ?cut⟩⟩
  case p4 =>
    obtain ⟨hp, hfin, e⟩ | ⟨c, e⟩ := designCut_cases p kind fs f n i
    · obtain ⟨hb0, -, hb2⟩ := rf64Cut_numerator p kind fs f n i
      rw [e]
      exact ⟨hb2.trans hb0.symm, fun h => rf64Cut_doubled hfin (h.resolve_left (not_not.mpr hp))⟩
    · rw [e]
      exact (conformCut_doubled kind c).imp_right fun h _ => h
  case peak => rw [designPeak_reference hp, literalOr_of_finite h]
  case cut => rw [designCut_reference hp, literalOr_of_finite h]

end Sys2Proof.Machine
end

section
/-!
The exact designs (40_coefficient_factory.md section 6): the clamped frequency (R101), the divisors
(R113), and the gain at the clamped design frequency (R115, R116): O41 to O44.
-/

namespace Sys2Proof.Machine

/-! ### The formulas over the reals -/

theorem real_angular (f fs : ℝ) : angular realArith f fs = 2 * Real.pi * f / fs := by
  simp [angular, realArith]

theorem real_halfGain (g : ℝ) : halfGain realArith g = (10 : ℝ) ^ (g / 40) := by
  simp [halfGain, realArith]

theorem real_peakAlpha (w q : ℝ) : peakAlpha realArith w q = Real.sin w / (2 * q) := by
  simp [peakAlpha, realArith]

theorem real_sectionQ (n i : Nat) : sectionQ realArith n i =
    1 / (2 * Real.cos ((2 * (i : ℝ) + 1) * Real.pi / (4 * (n : ℝ)))) := by
  simp [sectionQ, realArith]

theorem real_cutDenominator (k q : ℝ) : cutDenominator realArith k q = 1 + k / q + k * k := by
  simp [cutDenominator, realArith]

/-! ### The clamped frequency (R101) -/

/-- Settles O41: the clamp's upper bound is `NYQ_FRAC * fs`, below half of `fs`, and both its bounds
are positive. -/
theorem clampedFrequencyInOpenInterval : Obligations.ClampedFrequencyInOpenInterval := by
  intro p fs f hp hfs
  obtain ⟨-, -, -, hmin, hnyq⟩ := params_wf_iff.mp hp
  obtain ⟨hpos, hlt⟩ := nyqFrac_bounds hnyq
  have hfs := real32_pos_of_validFs hfs
  have hmin := real32_pos_of_validFs hmin
  have hpos : (0 : ℝ) < rat64 p.nyqFrac := Rat.cast_pos.mpr hpos
  have hlt : (rat64 p.nyqFrac : ℝ) < 1 / 2 := by
    simpa using (Rat.cast_lt (K := ℝ)).mpr hlt
  refine ⟨rfl, lt_min (lt_max_of_lt_right hmin) (mul_pos hpos hfs), ?_⟩
  calc exactFreq p fs f ≤ rat64 p.nyqFrac * real32 fs := min_le_right _ _
    _ < 1 / 2 * real32 fs := mul_lt_mul_of_pos_right hlt hfs
    _ = real32 fs / 2 := by ring

/-- Half the angular design frequency, the angle under the tangent of R108. -/
noncomputable def designAngle (p : Params) (fs f : Word) : ℝ :=
  Real.pi * exactFreq p fs f / real32 fs

theorem angular_exactFreq (p : Params) (fs f : Word) :
    angular realArith (exactFreq p fs f) (real32 fs) = 2 * designAngle p fs f := by
  rw [real_angular, designAngle]
  ring

theorem warp_exactFreq (p : Params) (fs f : Word) :
    warp realArith (exactFreq p fs f) (real32 fs) = Real.tan (designAngle p fs f) := rfl

theorem designAngle_mem {p : Params} {fs : Word} (hp : p.wf = true) (hfs : validFs fs = true)
    (f : Word) : 0 < designAngle p fs f ∧ designAngle p fs f < Real.pi / 2 := by
  obtain ⟨-, hpos, hlt⟩ := clampedFrequencyInOpenInterval p fs f hp hfs
  have hfs := real32_pos_of_validFs hfs
  have hpi := Real.pi_pos
  unfold designAngle
  refine ⟨by positivity, ?_⟩
  rw [div_lt_div_iff₀ hfs two_pos, mul_assoc]
  exact mul_lt_mul_of_pos_left (by linarith) hpi

theorem sin_angular_pos {p : Params} {fs : Word} (hp : p.wf = true) (hfs : validFs fs = true)
    (f : Word) : 0 < Real.sin (2 * designAngle p fs f) := by
  obtain ⟨hpos, hlt⟩ := designAngle_mem hp hfs f
  exact Real.sin_pos_of_pos_of_lt_pi (by linarith) (by linarith)

theorem tan_designAngle_pos {p : Params} {fs : Word} (hp : p.wf = true) (hfs : validFs fs = true)
    (f : Word) : 0 < Real.tan (designAngle p fs f) := by
  obtain ⟨hpos, hlt⟩ := designAngle_mem hp hfs f
  exact Real.tan_pos_of_pos_of_lt_pi_div_two hpos hlt

/-! ### The divisors (R113) -/

theorem real32_q_pos {q : Word} (h : inRange qMin qMax q = true) : 0 < real32 q := by
  obtain ⟨-, hlo, -⟩ := (inRange_iff_within (by decide) (by decide) q).mp h
  have hmin : 0 < rat32 qMin := by decide +kernel
  exact Rat.cast_pos.mpr (hmin.trans_le hlo)

theorem halfGain_pos (g : ℝ) : 0 < halfGain realArith g := by
  rw [real_halfGain]
  positivity

theorem peakAlpha_pos {p : Params} {fs q : Word} (hp : p.wf = true) (hfs : validFs fs = true)
    (hq : inRange qMin qMax q = true) (f : Word) :
    0 < peakAlpha realArith (2 * designAngle p fs f) (real32 q) := by
  have hsin := sin_angular_pos hp hfs f
  have hq := real32_q_pos hq
  rw [real_peakAlpha]
  positivity

/-- The Butterworth angles lie below a right angle. -/
theorem cos_sectionAngle_pos {n i : Nat} (h : i < n) :
    0 < Real.cos ((2 * (i : ℝ) + 1) * Real.pi / (4 * (n : ℝ))) := by
  have hpi := Real.pi_pos
  have hn : (0 : ℝ) < n := by exact_mod_cast Nat.zero_lt_of_lt h
  have hin : (i : ℝ) + 1 ≤ n := by exact_mod_cast h
  have hpos : 0 < (2 * (i : ℝ) + 1) * Real.pi / (4 * (n : ℝ)) := by positivity
  refine Real.cos_pos_of_mem_Ioo ⟨by linarith, ?_⟩
  rw [div_lt_div_iff₀ (by positivity) two_pos]
  nlinarith

theorem sectionQ_pos {n i : Nat} (h : i < n) : 0 < sectionQ realArith n i := by
  have hcos := cos_sectionAngle_pos h
  rw [real_sectionQ]
  positivity

theorem one_lt_cutDenominator {k q : ℝ} (hk : 0 < k) (hq : 0 < q) :
    1 < cutDenominator realArith k q := by
  have hkq : 0 < k / q := by positivity
  rw [real_cutDenominator]
  nlinarith

/-- Settles O42: the clamped frequency puts the tangent's angle strictly between 0 and a right angle
(`designAngle_mem`), and every divisor is positive from there. -/
theorem designDenominatorsPositive : Obligations.DesignDenominatorsPositive := by
  intro p fs f q g n i hp hfs hq _ _ hin
  dsimp only
  rw [angular_exactFreq, warp_exactFreq]
  obtain ⟨hpos, hlt⟩ := designAngle_mem hp hfs f
  have hcos : 0 < Real.cos (designAngle p fs f) :=
    Real.cos_pos_of_mem_Ioo ⟨by linarith, hlt⟩
  have hamp := halfGain_pos (real32 g)
  have halpha := peakAlpha_pos hp hfs hq f
  have hk := tan_designAngle_pos hp hfs f
  exact ⟨real32_pos_of_validFs hfs, mul_pos two_pos (real32_q_pos hq), hamp, halpha,
    le_add_of_nonneg_right (div_pos halpha hamp).le,
    hcos, mul_pos two_pos (cos_sectionAngle_pos hin), sectionQ_pos hin, hk,
    one_lt_cutDenominator hk (sectionQ_pos hin)⟩

/-! ### The gain of a section at a frequency (R131, R165) -/

/-- The response's polynomial, turned by `e^{jw}` to be symmetric about its middle coefficient. -/
theorem polyAbs_symmetric (w x0 x1 x2 : ℝ) : polyAbs realArith w x0 x1 x2 =
    Real.sqrt (((x0 + x2) * Real.cos w + x1) ^ 2 + ((x0 - x2) * Real.sin w) ^ 2) := by
  simp only [polyAbs, realArith, Nat.cast_ofNat, Real.cos_two_mul, Real.sin_two_mul]
  congr 1
  linear_combination (-x0 ^ 2 + x1 ^ 2 + (4 * Real.cos w ^ 2 - 1) * x2 ^ 2 + 2 * x0 * x2 +
    4 * Real.cos w * x1 * x2) * Real.sin_sq_add_cos_sq w

/-- A polynomial with equal outer coefficients is real at `w` after the turn. -/
theorem polyAbs_of_real {w x0 x1 r : ℝ} (hre : |2 * x0 * Real.cos w + x1| = r) :
    polyAbs realArith w x0 x1 x0 = r := by
  rw [polyAbs_symmetric, sub_self, zero_mul, zero_pow two_ne_zero, add_zero,
    Real.sqrt_sq_eq_abs, ← two_mul, hre]

/-- A polynomial that is imaginary at `w` after the turn. -/
theorem polyAbs_of_imag {w x0 x1 x2 r : ℝ} (hre : (x0 + x2) * Real.cos w + x1 = 0)
    (him : (x0 - x2) * Real.sin w = r) (hr : 0 ≤ r) : polyAbs realArith w x0 x1 x2 = r := by
  rw [polyAbs_symmetric, hre, him, zero_pow two_ne_zero, zero_add, Real.sqrt_sq hr]

/-! ### The peak design (R116) -/

theorem exactPeak_eq (p : Params) (fs f q g : Word) : exactPeak p fs f q g =
    peakFrom realArith (halfGain realArith (real32 g))
      (peakAlpha realArith (2 * designAngle p fs f) (real32 q))
      (Real.cos (2 * designAngle p fs f)) := by
  rw [← angular_exactFreq]
  rfl

theorem real_peakFrom (amp alpha c : ℝ) : peakFrom realArith amp alpha c =
    { b0 := (1 + alpha * amp) / (1 + alpha / amp)
      b1 := -2 * c / (1 + alpha / amp)
      b2 := (1 - alpha * amp) / (1 + alpha / amp)
      a1 := -2 * c / (1 + alpha / amp)
      a2 := (1 - alpha / amp) / (1 + alpha / amp) } := by
  simp [peakFrom, realArith]

/-- At the frequency it is designed at, a peak set's numerator and denominator are both imaginary
after the turn, and their quotient is `A * A`. -/
theorem sectionGain_peakFrom {w amp alpha : ℝ} (hamp : 0 < amp) (halpha : 0 < alpha)
    (hsin : 0 < Real.sin w) :
    sectionGain w (peakFrom realArith amp alpha (Real.cos w)) = amp * amp := by
  rw [sectionGain, real_peakFrom]
  dsimp only
  obtain ⟨r, hr, hrpos⟩ : ∃ r, alpha / amp = r ∧ 0 < r := ⟨_, rfl, by positivity⟩
  rw [hr]
  have hnum : polyAbs realArith w ((1 + alpha * amp) / (1 + r)) (-2 * Real.cos w / (1 + r))
      ((1 - alpha * amp) / (1 + r)) = 2 * alpha * amp * Real.sin w / (1 + r) :=
    polyAbs_of_imag (by ring) (by ring) (by positivity)
  have hden : polyAbs realArith w 1 (-2 * Real.cos w / (1 + r)) ((1 - r) / (1 + r)) =
      2 * r * Real.sin w / (1 + r) :=
    polyAbs_of_imag (by field_simp; ring) (by field_simp; ring) (by positivity)
  rw [hnum, hden, ← hr]
  field_simp

/-- Settles O43: the gain is the square of `A = 10^(g/40)` (`sectionGain_peakFrom`). -/
theorem peakGainAtDesignFrequency : Obligations.PeakGainAtDesignFrequency := by
  intro p fs f q g hp hfs hq
  rw [angular_exactFreq, exactPeak_eq, sectionGain_peakFrom (halfGain_pos _)
    (peakAlpha_pos hp hfs hq f) (sin_angular_pos hp hfs f), real_halfGain,
    ← Real.rpow_add (by norm_num)]
  congr 1
  ring

/-! ### The Butterworth bank (R115) -/

theorem exactCut_eq (p : Params) (kind : CutKind) (fs f : Word) (n i : Nat) :
    exactCut p kind fs f n i =
      cutFrom realArith kind (Real.tan (designAngle p fs f)) (sectionQ realArith n i) := rfl

theorem real_cutFrom_hp (k q : ℝ) :
    let c := cutFrom realArith .hp k q
    c.b0 = 1 / cutDenominator realArith k q ∧ c.b1 = -2 * c.b0 := by
  simp [cutFrom, realArith]

theorem real_cutFrom_lp (k q : ℝ) :
    let c := cutFrom realArith .lp k q
    c.b0 = k * k / cutDenominator realArith k q ∧ c.b1 = 2 * c.b0 := by
  simp [cutFrom, realArith]

theorem real_cutFrom_a1 (kind : CutKind) (k q : ℝ) :
    (cutFrom realArith kind k q).a1 = 2 * (k * k - 1) / cutDenominator realArith k q := by
  simp [cutFrom, realArith]

theorem real_cutFrom_a2 (kind : CutKind) (k q : ℝ) :
    (cutFrom realArith kind k q).a2 = (1 - k / q + k * k) / cutDenominator realArith k q := by
  simp [cutFrom, realArith]

/-- A cut section's numerator is real after the turn at the frequency it is designed at, and of the
same modulus for either kind: `1 - cos 2x = 2 sin^2 x`, and `tan^2 x` times `1 + cos 2x` is that
too. -/
theorem polyAbs_cutNumerator (kind : CutKind) {x q : ℝ} (hcos : Real.cos x ≠ 0)
    (hd : 0 < cutDenominator realArith (Real.tan x) q) :
    let c := cutFrom realArith kind (Real.tan x) q
    polyAbs realArith (2 * x) c.b0 c.b1 c.b2 =
      4 * Real.sin x ^ 2 / cutDenominator realArith (Real.tan x) q := by
  refine polyAbs_of_real ?_
  rw [Real.cos_two_mul, ← abs_of_nonneg (by positivity : 0 ≤ 4 * Real.sin x ^ 2 / _)]
  cases kind with
  | hp =>
    obtain ⟨hb0, hb1⟩ := real_cutFrom_hp (Real.tan x) q
    rw [hb1, hb0, Real.cos_sq', ← abs_neg]
    congr 1
    ring
  | lp =>
    obtain ⟨hb0, hb1⟩ := real_cutFrom_lp (Real.tan x) q
    rw [hb1, hb0, ← Real.tan_mul_cos hcos]
    congr 1
    ring

/-- A cut section's denominator is imaginary after the turn at the frequency it is designed at:
`cos 2x` is `(1 - K^2) / (1 + K^2)`. -/
theorem polyAbs_cutDenominator (kind : CutKind) {x q : ℝ} (hcos : Real.cos x ≠ 0) (hq : 0 < q)
    (hd : 0 < cutDenominator realArith (Real.tan x) q) :
    let c := cutFrom realArith kind (Real.tan x) q
    polyAbs realArith (2 * x) 1 c.a1 c.a2 =
      4 * Real.sin x ^ 2 / q / cutDenominator realArith (Real.tan x) q := by
  have htan : Real.tan x * Real.cos x = Real.sin x := Real.tan_mul_cos hcos
  have hD := real_cutDenominator (Real.tan x) q
  dsimp only
  rw [real_cutFrom_a1, real_cutFrom_a2]
  generalize cutDenominator realArith (Real.tan x) q = d at *
  generalize ha2 : (1 - Real.tan x / q + Real.tan x * Real.tan x) / d = a2
  have hadd : 1 + a2 = 2 * (1 + Real.tan x * Real.tan x) / d := by
    rw [← ha2, eq_div_iff hd.ne', add_mul, div_mul_cancel₀ _ hd.ne', hD]
    ring
  have hsub : 1 - a2 = 2 * (Real.tan x / q) / d := by
    rw [← ha2, eq_div_iff hd.ne', sub_mul, div_mul_cancel₀ _ hd.ne', hD]
    ring
  refine polyAbs_of_imag ?_ ?_ (by positivity)
  · have hsec : (1 + Real.tan x * Real.tan x) * Real.cos x ^ 2 = 1 := by
      linear_combination Real.sin_sq_add_cos_sq x +
        (Real.tan x * Real.cos x + Real.sin x) * htan
    rw [hadd, Real.cos_two_mul]
    linear_combination 4 / d * hsec
  · rw [hsub, Real.sin_two_mul, ← htan]
    ring

/-- At the frequency it is designed at, a cut section's gain is its `Q`. -/
theorem sectionGain_cutFrom (kind : CutKind) {x q : ℝ} (hpos : 0 < x) (hlt : x < Real.pi / 2)
    (hq : 0 < q) :
    sectionGain (2 * x) (cutFrom realArith kind (Real.tan x) q) = q := by
  have hcos : 0 < Real.cos x := Real.cos_pos_of_mem_Ioo ⟨by linarith, hlt⟩
  have hsin : 0 < Real.sin x := Real.sin_pos_of_pos_of_lt_pi hpos (by linarith [Real.pi_pos])
  have hd : 0 < cutDenominator realArith (Real.tan x) q :=
    one_pos.trans (one_lt_cutDenominator (Real.tan_pos_of_pos_of_lt_pi_div_two hpos hlt) hq)
  rw [sectionGain, polyAbs_cutNumerator kind hcos.ne' hd,
    polyAbs_cutDenominator kind hcos.ne' hq hd]
  field_simp

/-- The divisor of `Q(n, i)` (R107). -/
noncomputable def sectionDivisor (n i : Nat) : ℝ :=
  2 * Real.cos ((2 * (i : ℝ) + 1) * Real.pi / (4 * (n : ℝ)))

theorem sectionQ_eq_inv (n i : Nat) : sectionQ realArith n i = (sectionDivisor n i)⁻¹ := by
  rw [real_sectionQ, one_div, sectionDivisor]

/-- The angles of sections `i` and `n-1-i` add to a right angle. -/
theorem sectionDivisor_mul_compl {n i j : Nat} (h : i + j + 1 = n) :
    sectionDivisor n i * sectionDivisor n j =
      2 * Real.sin ((2 * (i : ℝ) + 1) * Real.pi / (2 * (n : ℝ))) := by
  have hn : (n : ℝ) = i + j + 1 := by exact_mod_cast h.symm
  have hpos : (0 : ℝ) < i + j + 1 := by positivity
  unfold sectionDivisor
  have hj : (2 * (j : ℝ) + 1) * Real.pi / (4 * (n : ℝ)) =
      Real.pi / 2 - (2 * (i : ℝ) + 1) * Real.pi / (4 * (n : ℝ)) := by
    rw [hn]
    field_simp
    ring
  have htwo : (2 * (i : ℝ) + 1) * Real.pi / (2 * (n : ℝ)) =
      2 * ((2 * (i : ℝ) + 1) * Real.pi / (4 * (n : ℝ))) := by ring
  rw [hj, Real.cos_pi_div_two_sub, htwo, Real.sin_two_mul]
  ring

/-- The middle section of an odd bank has its angle at half a right angle. -/
theorem sectionDivisor_middle (m : Nat) : sectionDivisor (2 * m + 1) m = Real.sqrt 2 := by
  have hangle : (2 * (m : ℝ) + 1) * Real.pi / (4 * ((2 * m + 1 : ℕ) : ℝ)) = Real.pi / 4 := by
    push_cast
    field_simp
  rw [sectionDivisor, hangle, Real.cos_pi_div_four]
  ring

/-- Two such sections of a bank with `2m` sections make one of a bank with `m`. -/
theorem sectionDivisor_mul_compl_even {m i j k : Nat} (hj : i + j + 1 = 2 * m)
    (hk : i + k + 1 = m) :
    sectionDivisor (2 * m) i * sectionDivisor (2 * m) j = sectionDivisor m k := by
  have hm : (m : ℝ) = i + k + 1 := by exact_mod_cast hk.symm
  have hpos : (0 : ℝ) < i + k + 1 := by positivity
  have hangle : (2 * (i : ℝ) + 1) * Real.pi / (2 * ((2 * m : ℕ) : ℝ)) =
      Real.pi / 2 - (2 * (k : ℝ) + 1) * Real.pi / (4 * (m : ℝ)) := by
    push_cast
    rw [hm]
    field_simp
    ring
  rw [sectionDivisor_mul_compl hj, hangle, Real.sin_pi_div_two_sub, sectionDivisor]

theorem prod_sectionDivisor {n : Nat} (h1 : 1 ≤ n) (h4 : n ≤ 4) :
    ((List.range n).map (sectionDivisor n)).prod = Real.sqrt 2 := by
  have one : sectionDivisor 1 0 = √2 := sectionDivisor_middle 0
  have two : sectionDivisor 2 0 * sectionDivisor 2 1 = √2 :=
    (sectionDivisor_mul_compl_even (m := 1) (k := 0) rfl rfl).trans one
  obtain rfl | rfl | rfl | rfl : n = 1 ∨ n = 2 ∨ n = 3 ∨ n = 4 := by omega
  · simpa using one
  · simpa [List.range_succ] using two
  · have hsix : (2 * ((0 : ℕ) : ℝ) + 1) * Real.pi / (2 * ((3 : ℕ) : ℝ)) = Real.pi / 6 := by
      norm_num
    calc _ = sectionDivisor 3 0 * sectionDivisor 3 2 * sectionDivisor 3 1 := by
          simp [List.range_succ]
          ring
      _ = 2 * Real.sin (Real.pi / 6) * √2 := by
          rw [sectionDivisor_mul_compl (i := 0) (j := 2) rfl, hsix, sectionDivisor_middle 1]
      _ = √2 := by rw [Real.sin_pi_div_six]; ring
  · calc _ = sectionDivisor 4 0 * sectionDivisor 4 3 *
            (sectionDivisor 4 1 * sectionDivisor 4 2) := by
          simp [List.range_succ]
          ring
      _ = sectionDivisor 2 1 * sectionDivisor 2 0 := by
          rw [sectionDivisor_mul_compl_even (m := 2) (i := 0) (k := 1) rfl rfl,
            sectionDivisor_mul_compl_even (m := 2) (i := 1) (k := 0) rfl rfl]
      _ = √2 := (mul_comm _ _).trans two

theorem prod_sectionQ {n : Nat} (h1 : 1 ≤ n) (h4 : n ≤ 4) :
    ((List.range n).map (sectionQ realArith n)).prod = 1 / Real.sqrt 2 := by
  rw [← prod_sectionDivisor h1 h4, one_div, List.prod_inv, List.map_map]
  congr 1
  exact List.map_congr_left fun i _ => sectionQ_eq_inv n i

/-- Settles O44: each section's gain is its `Q` (`sectionGain_cutFrom`), and the product of the
`Q(n, i)` is `1/sqrt 2` (`prod_sectionQ`). -/
theorem cutBankGainAtDesignFrequency : Obligations.CutBankGainAtDesignFrequency := by
  intro p kind fs f n hp hfs h1 h4
  obtain ⟨hpos, hlt⟩ := designAngle_mem hp hfs f
  have hgain : ∀ i ∈ List.range n, sectionGain (angular realArith (exactFreq p fs f) (real32 fs))
      (exactCut p kind fs f n i) = sectionQ realArith n i := fun i hi => by
    rw [angular_exactFreq, exactCut_eq]
    exact sectionGain_cutFrom kind hpos hlt (sectionQ_pos (List.mem_range.mp hi))
  rw [List.map_congr_left hgain]
  exact prod_sectionQ h1 h4

end Sys2Proof.Machine
end

section
/-!
SUPPORT. The chain as one pass over the thirteen slots (R15, R161): a slot runs when it is active
and is passed over otherwise, so what every run of an active slot keeps, the chain keeps.
-/

namespace Sys2Proof.Machine

/-! ### Active slots -/

theorem mem_slotIxs (j : Fin 13) : j ∈ slotIxs := by revert j; decide

/-- A section of a cut bank is active when neither its stage nor itself is bypassed. -/
theorem slotActive_slot (a : Active) (B : Bank) (i : Fin 4) :
    a.slotActive (B.slot i) = (!a.sbyp[B.stage] && !(a.secbyp B)[i]) := by
  cases B with
  | low => exact dif_pos i.isLt
  | high =>
    have hlow : ¬9 + i.val < 4 := by omega
    have hpeak : ¬9 + i.val < 9 := by omega
    simp [Active.slotActive, Bank.slot, Bank.stage, Active.secbyp, hlow, hpeak]

/-- A peak band's slot is active when its stage is not bypassed. -/
theorem slotActive_peakSlot (a : Active) (b : Fin 5) :
    a.slotActive (peakSlot b) = !a.sbyp[peakStage b] := by
  have hlow : ¬4 + b.val < 4 := by omega
  have hpeak : 4 + b.val < 9 := by omega
  have hstage : 4 + b.val - 3 = b.val + 1 := by omega
  simp [Active.slotActive, peakSlot, peakStage, hlow, hpeak, hstage]

/-! ### The chain, slot by slot -/

/-- One slot of the chain: the section runs, or its delay line and the sample are left alone. -/
def Active.slotStep (a : Active) (v : Word × Delays) (j : Fin 13) : Word × Delays :=
  if a.slotActive j then a.runSlot j v else v

theorem cutStep_eq_foldl (a : Active) (B : Bank) (v : Word × Delays) :
    a.cutStep B v = (sectionIxs.map B.slot).foldl a.slotStep v := by
  rw [List.foldl_map]
  cases hstage : a.sbyp[B.stage] with
  | true =>
    have hskip : ∀ i, a.slotStep v (B.slot i) = v := fun i => by
      simp [Active.slotStep, slotActive_slot, hstage]
    rw [List.foldl_fixed' hskip]
    exact if_pos hstage
  | false =>
    have hstep : ∀ (v : Word × Delays) (i : Fin 4), a.slotStep v (B.slot i) =
        if (a.secbyp B)[i] then v else a.runSlot (B.slot i) v := fun v i => by
      cases hsec : (a.secbyp B)[i] <;> simp [Active.slotStep, slotActive_slot, hstage, hsec]
    simp only [hstep]
    exact if_neg (by simp [hstage])

theorem peakStep_eq_slotStep (a : Active) (v : Word × Delays) (b : Fin 5) :
    a.peakStep v b = a.slotStep v (peakSlot b) := by
  cases hstage : a.sbyp[peakStage b] <;>
    simp [Active.peakStep, Active.slotStep, slotActive_peakSlot, hstage]

/-- The stages' slots, in the chain's order, are the slots in increasing order (R15, R161). -/
theorem slotIxs_eq_stages : slotIxs = sectionIxs.map Bank.low.slot ++ bandIxs.map peakSlot ++
    sectionIxs.map Bank.high.slot := by decide

theorem chain_eq_foldl (a : Active) (x : Word) (st : Delays) :
    a.chain x st = slotIxs.foldl a.slotStep (x, st) := by
  rw [slotIxs_eq_stages, List.foldl_append, List.foldl_append, ← cutStep_eq_foldl,
    ← cutStep_eq_foldl, List.foldl_map]
  simp only [← peakStep_eq_slotStep]
  rfl

/-- What holds of the sample and the delay lines before the chain, and is kept by every run of an
active slot, holds after it. -/
theorem chain_induction {a : Active} {motive : Word × Delays → Prop} {x : Word} {st : Delays}
    (start : motive (x, st))
    (run : ∀ j v, a.slotActive j = true → motive v → motive (a.runSlot j v)) :
    motive (a.chain x st) := by
  rw [chain_eq_foldl]
  refine List.foldlRecOn slotIxs a.slotStep start fun v hv j _ => ?_
  cases hj : a.slotActive j with
  | true => simpa [Active.slotStep, hj] using run j v hj hv
  | false => simpa [Active.slotStep, hj] using hv

/-- The chain keeps the delay line of a slot that is not active bit for bit (R135). -/
theorem chain_delay_of_inactive {a : Active} {j : Fin 13} (hj : a.slotActive j = false) (x : Word)
    (st : Delays) : (a.chain x st).2[j] = st[j] :=
  chain_induction (motive := fun v => v.2[j] = st[j]) rfl fun k v hk hv => by
    have hne : j ≠ k := by
      rintro rfl
      exact Bool.false_ne_true (hj.symm.trans hk)
    obtain ⟨-, -, hother⟩ := runSlot_spec a k v
    exact (hother j hne).trans hv

end Sys2Proof.Machine
end

section
/-!
The biquad stage (41_biquad_stage.md): who writes a delay line, the chain of R132's sections,
silence, NaNs, the difference equation and the stability of the exact designs: O30, O31, O33 to O35 and O45.
-/

namespace Sys2Proof.Machine
open Sys2Proof.Claims

/-! ### Who writes a delay line (R135) -/

theorem command_st {s t : State} {w : Word} {f : State → State} (hf : (f s).st = s.st)
    (e : s.command w f = .next t) : t.st = s.st := by
  rcases command_cases s w f with ⟨-, e'⟩ | ⟨-, e'⟩ <;> cases e'.symm.trans e
  · rfl
  · exact hf

theorem update_st (s : State) : s.update.st = s.st := by
  rcases update_cases s with ⟨-, e⟩ | ⟨-, -, e⟩ | ⟨-, -, e⟩ <;> simp [e]

theorem query_st (s : State) : s.query.st = s.st := by
  rcases query_cases s with ⟨-, e⟩ | ⟨-, r, e⟩ <;> simp [e]

theorem release_st (s : State) : s.release.st = s.st := by
  rcases release_cases s with ⟨-, e⟩ | ⟨-, e⟩ <;> simp [e]

theorem commit_st (s : State) (n : Nat) : (s.commit n).st = s.st := by
  rcases commit_cases s n with ⟨-, e⟩ | ⟨k, -, e⟩ <;> simp [e]

theorem process_delay_of_inactive {s t : State} {x : Word} {j : Fin 13}
    (hj : s.act.slotActive j = false) (e : execProcess x s = .next t) : t.st[j] = s.st[j] := by
  rcases process_cases x s with ⟨-, e'⟩ | ⟨-, e'⟩ <;> cases e'.symm.trans e
  · rfl
  · exact chain_delay_of_inactive hj x s.st

/-- Settles O30: PROCESS runs the active slots only (`chain_delay_of_inactive`), and nothing else
but PREPARE, FLUSH and reset writes the delay lines at all. -/
theorem delayLineWriters : Obligations.DelayLineWriters := by
  refine ⟨fun i s t j e hprepare hflush hslot => ?_, fun n s t e => ?_⟩
  · have whole (h : t.st = s.st) : t.st[j] = s.st[j] := by rw [h]
    cases i with
    | regRead waddr wdata => cases e; rfl
    | regWrite waddr wdata => cases e; exact whole (writeReg_st ..)
    | cmdNop => exact whole (command_st rfl e)
    | cmdPrepare => exact absurd rfl hprepare
    | cmdUpdate => exact whole (command_st (update_st s) e)
    | cmdFlush => exact absurd rfl hflush
    | cmdRelease => exact whole (command_st (release_st s) e)
    | cmdQuery => exact whole (command_st (query_st s) e)
    | cmdIllegal rsv op => exact whole (command_st rfl e)
    | process x => exact process_delay_of_inactive (hslot ⟨x, rfl⟩) e
  · cases e
    exact commit_st s n

/-! ### The chain of R132's sections -/

theorem biquad_eq_sectionLines (c : Coefs) (d : Delay) (x : Word) :
    biquad c d x = sectionLines c d x := rfl

/-- The flags of R146 and R161 skip exactly the slots that are not active. -/
theorem slotBypasses_eq_map (a : Active) :
    slotBypasses a = slotIxs.map fun j => (j, !a.slotActive j) := by
  simp [slotBypasses, slotIxs, Active.slotActive]

/-- Settles O31: the chain is one pass over the slots (`chain_eq_foldl`), which skips those that the
bypass flags name (`slotBypasses_eq_map`). -/
theorem chainRunsActiveSlotsInOrder : Obligations.ChainRunsActiveSlotsInOrder := by
  refine ⟨fun a x st => ?chain, biquad_eq_sectionLines, fun a j => ?slots, fun a => ⟨rfl, rfl⟩,
    fun i => ⟨rfl, rfl⟩, fun b => ⟨rfl, rfl⟩, rfl, rfl, rfl, rfl⟩
  case chain =>
    rw [chain_eq_foldl, slotBypasses_eq_map, List.foldl_map]
    congr 1
    funext v j
    cases hj : a.slotActive j <;> simp [Active.slotStep, hj, Active.runSlot, biquad_eq_sectionLines]
  case slots =>
    rw [slotBypasses_eq_map]
    exact List.mem_map_of_mem (mem_slotIxs j)

/-! ### One section, value by value (R132) -/

theorem biquad_output (c : Coefs) (d : Delay) (x : Word) :
    (biquad c d x).1 = add32 (mul32 c.b0 x) d.s1 := rfl

theorem biquad_s1 (c : Coefs) (d : Delay) (x : Word) : (biquad c d x).2.s1 =
    add32 (sub32 (mul32 c.b1 x) (mul32 c.a1 (biquad c d x).1)) d.s2 := rfl

theorem biquad_s2 (c : Coefs) (d : Delay) (x : Word) : (biquad c d x).2.s2 =
    sub32 (mul32 c.b2 x) (mul32 c.a2 (biquad c d x).1) := rfl

/-! ### Silence (R134) -/

theorem isFinite32_of_isZero {w : Word} (h : isZero w) : isFinite32 w = true := by
  rcases h with rfl | rfl <;> decide

theorem rat32_of_isZero {w : Word} (h : isZero w) : rat32 w = 0 := by
  rcases h with rfl | rfl <;> decide +kernel

theorem isZero_ite (b : Prop) [Decidable b] :
    isZero (if b then 0x80000000#32 else 0x00000000#32) := by
  split_ifs
  · exact .inr rfl
  · exact .inl rfl

theorem isZero_add32 {a b : Word} (ha : isZero a) (hb : isZero b) : isZero (add32 a b) := by
  rw [add32_of_sum_eq_zero (isFinite32_of_isZero ha) (isFinite32_of_isZero hb)
    (by rw [rat32_of_isZero ha, rat32_of_isZero hb, add_zero])]
  exact isZero_ite _

theorem isZero_sub32 {a b : Word} (ha : isZero a) (hb : isZero b) : isZero (sub32 a b) := by
  rw [sub32_of_diff_eq_zero (isFinite32_of_isZero ha) (isFinite32_of_isZero hb)
    (by rw [rat32_of_isZero ha, rat32_of_isZero hb, sub_zero])]
  exact isZero_ite _

/-- A finite coefficient times a zero is a zero; an infinite one would give a NaN (R10). -/
theorem isZero_mul32 {a b : Word} (ha : isFinite32 a = true) (hb : isZero b) :
    isZero (mul32 a b) := by
  obtain ⟨s, m, ha⟩ := exists_fin_of_finite ha
  obtain ⟨t, hb⟩ : ∃ t, val32 b = .fin t 0 := by
    rcases hb with rfl | rfl
    · exact ⟨false, by decide⟩
    · exact ⟨true, by decide⟩
  have hround : roundMag .b32 (m * 0) (2 ^ FloatFmt.b32.unitExp) = 0 := by
    simp [roundMag, divRNE, Nat.log2_zero]
  unfold mul32
  rw [ha, hb, mulVal, hround, ofNat_withSign_zero]
  exact isZero_ite _

theorem biquad_silent {c : Coefs} {d : Delay} {x : Word} (hc : c.finite = true) (hd : restful d)
    (hx : isZero x) : isZero (biquad c d x).1 ∧ restful (biquad c d x).2 := by
  obtain ⟨hb0, hb1, hb2, ha1, ha2⟩ := coefs_finite_iff.mp hc
  obtain ⟨hs1, hs2⟩ := hd
  have hy : isZero (biquad c d x).1 := isZero_add32 (isZero_mul32 hb0 hx) hs1
  exact ⟨hy,
    isZero_add32 (isZero_sub32 (isZero_mul32 hb1 hx) (isZero_mul32 ha1 hy)) hs2,
    isZero_sub32 (isZero_mul32 hb2 hx) (isZero_mul32 ha2 hy)⟩

/-- A zero sample among delay lines of zeros. -/
def Silent (v : Word × Delays) : Prop := isZero v.1 ∧ ∀ j : Fin 13, restful v.2[j]

theorem runSlot_silent {a : Active} {j : Fin 13} {v : Word × Delays} (hc : a.coef[j].finite = true)
    (hv : Silent v) : Silent (a.runSlot j v) := by
  obtain ⟨hx, hst⟩ := hv
  obtain ⟨hy, hd⟩ := biquad_silent hc (hst j) hx
  obtain ⟨-, hself, hother⟩ := runSlot_spec a j v
  refine ⟨hy, fun k => ?_⟩
  by_cases hk : k = j
  · subst hk
    rwa [hself]
  · rw [hother k hk]
    exact hst k

/-- Settles O33: with finite coefficients each line of R132 maps zeros to a zero (`biquad_silent`),
and so the chain does, slot by slot. -/
theorem silenceStaysSilent : Obligations.SilenceStaysSilent :=
  ⟨fun _ _ _ => biquad_silent, fun _ _ _ hc hst hx =>
    chain_induction (motive := Silent) ⟨hx, hst⟩ fun j _ _ => runSlot_silent (hc j)⟩

/-! ### NaNs in a delay line (R137) -/

theorem isNaN_nan32 : isNaN nan32 := by unfold isNaN; decide

theorem add32_of_isNaN {a b : Word} (h : isNaN a ∨ isNaN b) : add32 a b = nan32 := by
  obtain ⟨hadd, -, -, canonical, -, -⟩ := naNResultsAreCanonical a b
  exact canonical (hadd.mpr (h.imp_right .inl))

theorem sub32_of_isNaN {a b : Word} (h : isNaN a ∨ isNaN b) : sub32 a b = nan32 := by
  obtain ⟨-, hsub, -, -, canonical, -⟩ := naNResultsAreCanonical a b
  exact canonical (hsub.mpr (h.imp_right .inl))

theorem mul32_of_isNaN {a b : Word} (h : isNaN a ∨ isNaN b) : mul32 a b = nan32 := by
  obtain ⟨-, -, hmul, -, -, canonical⟩ := naNResultsAreCanonical a b
  exact canonical (hmul.mpr (h.imp_right .inl))

/-- The delay line a NaN output leaves. -/
def Delay.nan : Delay := ⟨nan32, nan32⟩

/-- Both new state values depend on the output, so a NaN output leaves NaNs in both. -/
theorem biquad_delay_of_isNaN_output {c : Coefs} {d : Delay} {x : Word}
    (h : isNaN (biquad c d x).1) : (biquad c d x).2 = Delay.nan := by
  have ha1 := mul32_of_isNaN (a := c.a1) (.inr h)
  have ha2 := mul32_of_isNaN (a := c.a2) (.inr h)
  have hs1 : (biquad c d x).2.s1 = nan32 := by
    rw [biquad_s1, ha1, sub32_of_isNaN (.inr isNaN_nan32), add32_of_isNaN (.inl isNaN_nan32)]
  have hs2 : (biquad c d x).2.s2 = nan32 := by
    rw [biquad_s2, ha2, sub32_of_isNaN (.inr isNaN_nan32)]
  exact congrArg₂ Delay.mk hs1 hs2

theorem biquad_of_isNaN_s1 {d : Delay} (h : isNaN d.s1) (c : Coefs) (x : Word) :
    biquad c d x = (nan32, Delay.nan) := by
  have hy : (biquad c d x).1 = nan32 := add32_of_isNaN (.inr h)
  exact Prod.ext hy (biquad_delay_of_isNaN_output (hy ▸ isNaN_nan32))

/-- A poisoned delay line stays as it is, and every output is the canonical NaN. -/
theorem runSection_nan (c : Coefs) (xs : List Word) :
    runSection c Delay.nan xs = (List.replicate xs.length nan32, Delay.nan) := by
  induction xs with
  | nil => rfl
  | cons x xs ih =>
    rw [runSection, biquad_of_isNaN_s1 isNaN_nan32]
    simp [ih, List.replicate_succ]

theorem runSection_of_isNaN_s1 {d : Delay} (h : isNaN d.s1) (c : Coefs) (x : Word)
    (xs : List Word) :
    runSection c d (x :: xs) = (List.replicate (x :: xs).length nan32, Delay.nan) := by
  rw [runSection, biquad_of_isNaN_s1 h]
  simp [runSection_nan, List.replicate_succ]

/-- Settles O34: a NaN `s1` poisons the first sample (`biquad_of_isNaN_s1`), and a poisoned delay
line every later one (`runSection_nan`). -/
theorem naNPoisonsTheDelayLine : Obligations.NaNPoisonsTheDelayLine := by
  refine ⟨fun c d xs h => ?_, fun c d x => biquad_delay_of_isNaN_output,
    fun c d x h => add32_of_isNaN (.inr h)⟩
  cases xs with
  | nil => exact ⟨fun y hy => (nomatch hy), fun hne => absurd rfl hne⟩
  | cons x xs =>
    rw [runSection_of_isNaN_s1 h]
    exact ⟨fun y => List.eq_of_mem_replicate, fun _ => rfl⟩

/-! ### The difference equation (R133) -/

section ExactRun

variable (c : CoefSet ℝ) (x : ℕ → ℝ)

theorem exactRun_output_zero : (exactRun c x 0).1 = c.b0 * x 0 := add_zero _

theorem exactRun_output_succ (n : ℕ) :
    (exactRun c x (n + 1)).1 = c.b0 * x (n + 1) + (exactRun c x n).2.1 := rfl

theorem exactRun_s1_zero :
    (exactRun c x 0).2.1 = c.b1 * x 0 - c.a1 * (exactRun c x 0).1 := add_zero _

theorem exactRun_s1_succ (n : ℕ) : (exactRun c x (n + 1)).2.1 =
    c.b1 * x (n + 1) - c.a1 * (exactRun c x (n + 1)).1 + (exactRun c x n).2.2 := rfl

theorem exactRun_s2 (n : ℕ) :
    (exactRun c x n).2.2 = c.b2 * x n - c.a2 * (exactRun c x n).1 := by
  cases n <;> rfl

end ExactRun

/-- Settles O35: the output is the input's term on top of the partial sum `s1` of the sample before,
which holds the `s2` of the one before that. -/
theorem differenceEquation : Obligations.DifferenceEquation := by
  intro c x
  refine ⟨exactRun_output_zero c x, ?second, fun n => ?later, exactRun_s1_zero c x, fun n => ?sums,
    exactRun_s2 c x⟩
  case second =>
    dsimp only
    rw [exactRun_output_succ, exactRun_s1_zero]
    ring
  case later =>
    dsimp only
    rw [exactRun_output_succ, exactRun_s1_succ, exactRun_s2]
    ring
  case sums =>
    dsimp only
    rw [exactRun_s1_succ, exactRun_s2]
    ring

/-! ### Stability of the exact designs (R138) -/

/-- The coefficient inequalities of R138. -/
def StableCoefs (c : CoefSet ℝ) : Prop := |c.a2| < 1 ∧ |c.a1| < 1 + c.a2

/-- At a real `x` outside the open interval the polynomial exceeds `(|x| - 1) * (|x| - a2)`, which
is not negative. -/
theorem abs_root_lt_one {c : CoefSet ℝ} (h : StableCoefs c) {x : ℝ}
    (hx : x ^ 2 + c.a1 * x + c.a2 = 0) : |x| < 1 := by
  obtain ⟨h2, h1⟩ := h
  obtain ⟨-, hlt⟩ := abs_lt.mp h2
  by_contra! hout
  have hlinear : -(c.a1 * x) < (1 + c.a2) * |x| :=
    calc -(c.a1 * x) ≤ |c.a1| * |x| := by rw [← abs_mul]; exact neg_le_abs _
      _ < (1 + c.a2) * |x| := mul_lt_mul_of_pos_right h1 (by linarith)
  have hfactor : 0 ≤ (|x| - 1) * (|x| - c.a2) := mul_nonneg (by linarith) (by linarith)
  have hsq : |x| ^ 2 = x ^ 2 := sq_abs x
  linarith

/-- A pole is real (`abs_root_lt_one`) or one of a conjugate pair, of which `a2` is the squared
modulus. -/
theorem norm_pole_lt_one {c : CoefSet ℝ} (h : StableCoefs c) {z : ℂ}
    (hz : z ^ 2 + (c.a1 : ℂ) * z + (c.a2 : ℂ) = 0) : ‖z‖ < 1 := by
  have hre : z.re ^ 2 - z.im ^ 2 + c.a1 * z.re + c.a2 = 0 := by
    simpa [pow_two] using congrArg Complex.re hz
  have him : z.re * z.im + z.im * z.re + c.a1 * z.im = 0 := by
    simpa [pow_two] using congrArg Complex.im hz
  have hfactor : z.im * (2 * z.re + c.a1) = 0 := by linear_combination him
  rcases mul_eq_zero.mp hfactor with hreal | hpair
  · rw [← Complex.abs_re_eq_norm.mpr hreal]
    exact abs_root_lt_one h (by simpa [hreal] using hre)
  · have hmod : ‖z‖ ^ 2 = c.a2 := by
      rw [← Complex.normSq_eq_norm_sq, Complex.normSq_apply]
      linear_combination z.re * hpair - hre
    have hlt : ‖z‖ ^ 2 < 1 := hmod ▸ (abs_lt.mp h.1).2
    exact (sq_lt_one_iff₀ (norm_nonneg z)).mp hlt

/-- The inequalities of R138 over a common denominator. -/
theorem stableCoefs_of_quotients {c : CoefSet ℝ} {n1 n2 d : ℝ} (ha1 : c.a1 = n1 / d)
    (ha2 : c.a2 = n2 / d) (hd : 0 < d) (h2 : |n2| < d) (h1 : |n1| < d + n2) : StableCoefs c := by
  have hsum : 1 + n2 / d = (d + n2) / d := by rw [add_div, div_self hd.ne']
  rw [StableCoefs, ha1, ha2, hsum, abs_div, abs_div, abs_of_pos hd, div_lt_one hd,
    div_lt_div_iff_of_pos_right hd]
  exact ⟨h2, h1⟩

theorem stableCoefs_peakFrom {amp alpha c : ℝ} (hamp : 0 < amp) (halpha : 0 < alpha)
    (hc : |c| < 1) : StableCoefs (peakFrom realArith amp alpha c) := by
  have hr : 0 < alpha / amp := by positivity
  rw [real_peakFrom]
  refine stableCoefs_of_quotients rfl rfl (by linarith) ?_ ?_
  · rw [abs_lt]
    constructor <;> linarith
  · rw [abs_mul, abs_neg, abs_two]
    linarith

theorem stableCoefs_cutFrom (kind : CutKind) {k q : ℝ} (hk : 0 < k) (hq : 0 < q) :
    StableCoefs (cutFrom realArith kind k q) := by
  have hkq : 0 < k / q := by positivity
  have hkk : 0 < k * k := by positivity
  have hd := one_lt_cutDenominator hk hq
  refine stableCoefs_of_quotients (real_cutFrom_a1 kind k q) (real_cutFrom_a2 kind k q)
    (one_pos.trans hd) ?_ ?_
  · rw [real_cutDenominator, abs_lt]
    constructor <;> linarith
  · rw [real_cutDenominator, abs_lt]
    constructor <;> linarith

/-- Settles O45: both designs satisfy the coefficient inequalities (`stableCoefs_peakFrom`,
`stableCoefs_cutFrom`), which put the poles inside the unit circle (`norm_pole_lt_one`). -/
theorem exactDesignsAreStable : Obligations.ExactDesignsAreStable := by
  intro p kind fs f q g n i hp hfs hq _ _ hin c hc
  have hstable : StableCoefs c := by
    rcases hc with rfl | rfl
    · have hcos : |Real.cos (2 * designAngle p fs f)| < 1 := by
        rw [← sq_lt_one_iff_abs_lt_one, Real.cos_sq']
        have := pow_pos (sin_angular_pos hp hfs f) 2
        linarith
      rw [exactPeak_eq]
      exact stableCoefs_peakFrom (halfGain_pos _) (peakAlpha_pos hp hfs hq f) hcos
    · rw [exactCut_eq]
      exact stableCoefs_cutFrom kind (tan_designAngle_pos hp hfs f) (sectionQ_pos hin)
  exact ⟨hstable.1, hstable.2, fun _ => norm_pole_lt_one hstable⟩

end Sys2Proof.Machine
end

section
/-!
The channel chain's two transactions (43_channel_chain.md): PROCESS (R160), QUERY (R166), and what
both do with every stage bypassed (R164, R170): O22, O24, O25 and O32.
-/

namespace Sys2Proof.Machine

/-! ### The lifecycle states that admit both -/

theorem isReady_iff {l : LState} : l.isReady = true ↔ l = .prepared ∨ l = .processing := by
  cases l <;> decide

theorem isReady_eq_false_iff {l : LState} :
    l.isReady = false ↔ l = .unprepared ∨ l = .released := by
  cases l <;> decide

/-! ### QUERY (R166) -/

theorem exec_cmdQuery {s : State} (h : s.busy = false) : exec .cmdQuery s = .next s.query :=
  command_of_idle h _ _

theorem query_of_not_ready {s : State} (h : s.lstate.isReady = false) :
    s.query = s.setError .serr := by simp [State.query, h]

theorem query_of_ready {s : State} (h : s.lstate.isReady = true) :
    s.query = { s with
      qresult :=
        if queryFreqOk s.qfreq s.act.fs then magOf s.params s.act s.qfreq else nan32 } := by
  cases hf : queryFreqOk s.qfreq s.act.fs <;> simp [State.query, h, hf]

/-- Settles O22: `query_of_not_ready` is the refusal, and `query_of_ready` writes QRESULT alone. -/
theorem queryStoresMagnitude : Obligations.QueryStoresMagnitude := by
  intro s hidle
  rw [exec_cmdQuery hidle]
  refine ⟨fun h => ?refused, fun h => ⟨fun hf => ?rejected, fun hf => ?accepted⟩⟩
  case refused =>
    rw [query_of_not_ready (isReady_eq_false_iff.mpr h)]
    rfl
  case rejected =>
    rw [query_of_ready (isReady_iff.mpr h), hf]
    rfl
  case accepted =>
    rw [query_of_ready (isReady_iff.mpr h), if_pos hf]

/-! ### PROCESS (R160) -/

/-- Settles O25: PROCESS filters the sample exactly where `LState.isReady` admits it, and reads
neither BUSY nor PEND. -/
theorem processFiltersOrPassesThrough : Obligations.ProcessFiltersOrPassesThrough := by
  intro x s
  obtain ⟨hready, e⟩ | ⟨hready, e⟩ := process_cases x s
  · have hstate := isReady_eq_false_iff.mp hready
    refine ⟨fun _ => e, fun h => ?_⟩
    rw [isReady_iff.mpr h] at hready
    contradiction
  · refine ⟨fun h => ?_, fun _ => e⟩
    rw [isReady_eq_false_iff.mpr h] at hready
    contradiction

/-! ### Every stage bypassed (R164, R170) -/

/-- Every stage's SBYP is 1. -/
def Active.AllBypassed (a : Active) : Prop := ∀ k : Fin 7, a.sbyp[k] = true

theorem slotActive_of_allBypassed {a : Active} (h : a.AllBypassed) (j : Fin 13) :
    a.slotActive j = false := by
  have entry (k : Nat) (hk : k < 7) : a.sbyp[k] = true := h ⟨k, hk⟩
  unfold Active.slotActive
  split_ifs <;> simp [entry]

theorem chain_of_allBypassed {a : Active} (h : a.AllBypassed) (x : Word) (st : Delays) :
    a.chain x st = (x, st) := by
  rw [chain_eq_foldl]
  exact List.foldl_fixed' (fun j => by simp [Active.slotStep, slotActive_of_allBypassed h]) _

theorem activeCoefs_of_allBypassed {a : Active} (h : a.AllBypassed) : a.activeCoefs = [] := by
  simp [Active.activeCoefs, slotActive_of_allBypassed h]

/-- The empty sum is exactly +0.0, whatever MAG is (R168 M2). -/
theorem magOf_of_no_active {a : Active} (h : a.activeCoefs = []) (p : Params) (f : Word) :
    magOf p a f = zero32 := by simp [magOf, h]

/-- Settles O24: no slot is active (`activeCoefs_of_allBypassed`), and MAG's empty sum is +0.0. -/
theorem queryAllBypassedIsZeroDb : Obligations.QueryAllBypassedIsZeroDb := by
  intro s hidle hstate hbyp hf
  obtain ⟨-, accepted⟩ := (queryStoresMagnitude s hidle).2 hstate
  rw [accepted hf, magOf_of_no_active (activeCoefs_of_allBypassed hbyp)]
  rfl

/-- Settles O32: the chain passes over every slot (`chain_of_allBypassed`). -/
theorem allBypassedPassesSamplesThrough : Obligations.AllBypassedPassesSamplesThrough := by
  intro x s hstate hbyp
  rw [(processFiltersOrPassesThrough x s).2 hstate, chain_of_allBypassed hbyp]

end Sys2Proof.Machine
end

section
/-!
The magnitude response (43_channel_chain.md section 2): its factors as complex moduli (R165), and
where they vanish. A factor, turned by `e^{jw}`, has the real part `(x0 + x2) cos w + x1` and the
imaginary part `(x0 - x2) sin w`; Niven's theorem says at which query frequencies `cos w` is
rational, and elsewhere only the zero polynomial vanishes: O46 and O47.
-/

namespace Sys2Proof.Machine
open Sys2Proof.Claims

/-! ### Factors as complex moduli (R165) -/

theorem exp_neg_I_mul (w : ℝ) :
    Complex.exp (-Complex.I * w) = ⟨Real.cos w, -Real.sin w⟩ := by
  apply Complex.ext <;> simp [Complex.exp_re, Complex.exp_im]

/-- Settles O46: `polyAbs` is the root of the squared real and imaginary part, and `e^{-jw}` is
`cos w - j sin w`. -/
theorem responseIsComplexModulus : Obligations.ResponseIsComplexModulus := by
  intro w x0 x1 x2
  have hdouble : -2 * Complex.I * w = -Complex.I * ((2 * w : ℝ) : ℂ) := by
    push_cast
    ring
  rw [hdouble, exp_neg_I_mul, exp_neg_I_mul, Complex.norm_eq_sqrt_sq_add_sq]
  simp only [polyAbs, realArith, Nat.cast_ofNat, Complex.add_re, Complex.add_im, Complex.mul_re,
    Complex.mul_im, Complex.ofReal_re, Complex.ofReal_im]
  congr 1
  ring

/-- A factor vanishes at `w`: the real and the imaginary part of its turned polynomial are 0. -/
def FactorVanishes (w x0 x1 x2 : ℝ) : Prop :=
  (x0 + x2) * Real.cos w + x1 = 0 ∧ (x0 - x2) * Real.sin w = 0

theorem polyAt_eq_zero_iff (f fs : Word) (x0 x1 x2 : ℝ) : polyAt f fs x0 x1 x2 = 0 ↔
    FactorVanishes (angular realArith (real32 f) (real32 fs)) x0 x1 x2 := by
  rw [polyAt, ← norm_eq_zero, ← responseIsComplexModulus, polyAbs_symmetric,
    Real.sqrt_eq_zero (by positivity), add_eq_zero_iff_of_nonneg (sq_nonneg _) (sq_nonneg _),
    sq_eq_zero_iff, sq_eq_zero_iff, FactorVanishes]

/-- Whether a factor vanishes does not depend on the unit its values are counted in. -/
theorem factorVanishes_div {u : ℝ} (hu : u ≠ 0) (w x0 x1 x2 : ℝ) :
    FactorVanishes w (x0 / u) (x1 / u) (x2 / u) ↔ FactorVanishes w x0 x1 x2 := by
  have hre : (x0 / u + x2 / u) * Real.cos w + x1 / u = ((x0 + x2) * Real.cos w + x1) / u := by
    ring
  have him : (x0 / u - x2 / u) * Real.sin w = ((x0 - x2) * Real.sin w) / u := by ring
  simp only [FactorVanishes, hre, him, div_eq_zero_iff, hu, or_false]

/-! ### Where the cosine is rational -/

/-- The query's `w = 2*pi*f/fs`, as a multiple of `pi`. -/
noncomputable def ratioAngle (f fs : ℤ) : ℝ := 2 * f / fs * Real.pi

theorem ratioAngle_of_mul_eq {f fs d : ℤ} (hfs : 0 < fs) (h : d * f = fs) :
    ratioAngle f fs = 2 / d * Real.pi := by
  have hd : (d : ℝ) ≠ 0 := by
    intro hd
    rw [Int.cast_eq_zero.mp hd] at h
    omega
  have hfs : (fs : ℝ) ≠ 0 := by exact_mod_cast hfs.ne'
  have h : (d * f : ℝ) = fs := by exact_mod_cast h
  rw [ratioAngle]
  congr 1
  field_simp
  linear_combination h

/-- At each of its ratios `twoCos` is the value it is named after. -/
theorem two_mul_cos_of_twoCos {f fs t : ℤ} (hfs : 0 < fs) (h : twoCos f fs = some t) :
    2 * Real.cos (ratioAngle f fs) = t := by
  have third : Real.cos (2 / 3 * Real.pi) = -(1 / 2) := by
    rw [← Real.cos_pi_div_three, ← Real.cos_pi_sub]
    congr 1
    ring
  have sixth : (2 / 6 : ℝ) * Real.pi = Real.pi / 3 := by ring
  have fourth : (2 / 4 : ℝ) * Real.pi = Real.pi / 2 := by ring
  unfold twoCos at h
  split_ifs at h with h0 h6 h4 h3 h2 <;> cases h
  · simp [ratioAngle, h0]
  · rw [ratioAngle_of_mul_eq hfs h6, Int.cast_ofNat, sixth, Real.cos_pi_div_three]
    norm_num
  · rw [ratioAngle_of_mul_eq hfs h4, Int.cast_ofNat, fourth, Real.cos_pi_div_two]
    norm_num
  · rw [ratioAngle_of_mul_eq hfs h3, Int.cast_ofNat, third]
    norm_num
  · rw [ratioAngle_of_mul_eq hfs h2]
    simp

/-- Everywhere else between 0 and 1/2 the cosine is irrational: by Niven's theorem a rational one
puts `2*f/fs` among 0, 1/3, 1/2, 2/3 and 1, the ratios of `twoCos`. -/
theorem irrational_cos_of_twoCos {f fs : ℤ} (hfs : 0 < fs) (h0 : 0 ≤ f) (hle : 2 * f ≤ fs)
    (h : twoCos f fs = none) : Irrational (Real.cos (ratioAngle f fs)) := by
  rintro ⟨q, hq⟩
  have hpos : (0 : ℚ) < fs := by exact_mod_cast hfs
  have hmem : (2 * f / fs : ℚ) ∈ Set.Icc 0 1 := by
    have h0 : (0 : ℚ) ≤ f := by exact_mod_cast h0
    have hle : (2 * f : ℚ) ≤ fs := by exact_mod_cast hle
    exact ⟨by positivity, (div_le_one hpos).mpr hle⟩
  have hcos : Real.cos ((2 * f / fs : ℚ) * Real.pi) = q := by
    rw [hq, ratioAngle]
    push_cast
    rfl
  have excluded {d : ℤ} (hd : d ≠ 0) (hne : d * f ≠ fs) : (2 * f / fs : ℚ) ≠ 2 / d := by
    have hd : (d : ℚ) ≠ 0 := by exact_mod_cast hd
    intro e
    rw [div_eq_div_iff hpos.ne' hd] at e
    exact hne (by exact_mod_cast (by linear_combination e / 2 : (d * f : ℚ) = fs))
  unfold twoCos at h
  split_ifs at h with n0 n6 n4 n3 n2
  obtain e | e | e | e | e := niven_angle_div_pi_eq ⟨q, hcos⟩ hmem
  · rw [div_eq_zero_iff] at e
    simp [n0, hpos.ne'] at e
  · exact excluded (by decide) n6 (e.trans (by norm_num))
  · exact excluded (by decide) n4 (e.trans (by norm_num))
  · exact excluded (by decide) n3 (e.trans (by norm_num))
  · exact excluded (by decide) n2 (e.trans (by norm_num))

/-! ### The integer test (log entry 12) -/

section IntegerTest

variable {w : ℝ} {x0 x1 x2 : ℤ}

/-- Where `2 cos w` is whole, `e^{jw}` is real just at `2` and `-2`. -/
theorem sin_eq_zero_iff_of_two_mul_cos {t : ℤ} (ht : 2 * Real.cos w = t) :
    Real.sin w = 0 ↔ t = 2 ∨ t = -2 := by
  have hsq : Real.sin w ^ 2 = 1 - (t / 2 : ℝ) ^ 2 := by
    rw [Real.sin_sq, ← ht, mul_div_cancel_left₀ _ two_ne_zero]
  have hcast : (t / 2 : ℝ) ^ 2 = 1 ↔ t ^ 2 = 2 ^ 2 := by
    rw [div_pow, div_eq_one_iff_eq (by positivity)]
    exact_mod_cast Iff.rfl
  rw [← sq_eq_zero_iff, hsq, sub_eq_zero, eq_comm, hcast, sq_eq_sq_iff_eq_or_eq_neg]

/-- On the real axis the imaginary part is 0 anyway, and elsewhere it asks `x0 = x2`. -/
theorem vanishes_some_iff {t : ℤ} (ht : 2 * Real.cos w = t) :
    vanishes x0 x1 x2 (some t) = true ↔ FactorVanishes w x0 x1 x2 := by
  have hcos : Real.cos w = t / 2 := by linarith
  have haxis := sin_eq_zero_iff_of_two_mul_cos ht
  unfold vanishes FactorVanishes
  dsimp only
  split_ifs with h
  · have hsq : (t : ℝ) ^ 2 = 4 := by
      obtain rfl | rfl := h <;> norm_num
    rw [decide_eq_true_eq, haxis.mpr h, mul_zero, eq_self, and_true, hcos,
      ← Int.cast_inj (α := ℝ)]
    push_cast
    constructor <;> intro h
    · linear_combination t / 4 * h - x1 / 4 * hsq
    · linear_combination t * h - (x0 + x2) / 2 * hsq
  · have hre : ((x0 : ℝ) + x0) * (t / 2) + x1 = (x1 + t * x0 : ℤ) := by
      push_cast
      ring
    rw [Bool.and_eq_true, decide_eq_true_eq, decide_eq_true_eq, mul_eq_zero,
      or_iff_left (mt haxis.mp h), sub_eq_zero, Int.cast_inj, hcos, and_comm]
    refine and_congr_left fun h02 => ?_
    rw [← h02, hre, Int.cast_eq_zero]

/-- With an irrational cosine the real part asks that both its coefficients are 0. -/
theorem vanishes_none_iff (hw : Irrational (Real.cos w)) :
    vanishes x0 x1 x2 none = true ↔ FactorVanishes w x0 x1 x2 := by
  have hsin : Real.sin w ≠ 0 := by
    intro hzero
    obtain h | h := Real.sin_eq_zero_iff_cos_eq.mp hzero
    · exact hw.ne_one h
    · exact hw.ne_int (-1) (by simpa using h)
  simp only [vanishes, Bool.and_eq_true, decide_eq_true_eq]
  constructor
  · rintro ⟨⟨rfl, rfl⟩, rfl⟩
    simp [FactorVanishes]
  · rintro ⟨hre, him⟩
    have h02 : x0 = x2 := by
      simpa [hsin, sub_eq_zero] using him
    have hx2 : x2 = 0 := by
      by_contra hne
      have hmul := hw.intCast_mul (m := 2 * x2) (by omega)
      refine hmul.ne_int (-x1) ?_
      rw [h02] at hre
      push_cast
      linear_combination hre
    subst h02 hx2
    simpa using hre

theorem vanishes_twoCos_iff {f fs : ℤ} (hfs : 0 < fs) (h0 : 0 ≤ f) (hle : 2 * f ≤ fs) :
    vanishes x0 x1 x2 (twoCos f fs) = true ↔ FactorVanishes (ratioAngle f fs) x0 x1 x2 := by
  cases h : twoCos f fs with
  | some t => exact vanishes_some_iff (two_mul_cos_of_twoCos hfs h)
  | none => exact vanishes_none_iff (irrational_cos_of_twoCos hfs h0 hle h)

end IntegerTest

/-! ### Words as whole numbers of units -/

theorem real32_eq_units32 (w : Word) : real32 w = units32 w / 2 ^ 149 := by
  have : FloatFmt.b32.unitExp = 149 := rfl
  unfold real32 rat32 units32
  cases val32 w <;> simp [ratOf, this]

theorem units32_pos_of_validFs {fs : Word} (h : validFs fs = true) : 0 < units32 fs := by
  have hpos := real32_pos_of_validFs h
  rw [real32_eq_units32, div_pos_iff_of_pos_right (by positivity)] at hpos
  exact_mod_cast hpos

/-- An accepted query frequency, in units (R169). -/
theorem units32_of_queryFreqOk {f fs : Word} (hfs : validFs fs = true)
    (h : queryFreqOk f fs = true) : 0 ≤ units32 f ∧ 2 * units32 f ≤ units32 fs := by
  simp only [queryFreqOk, Bool.and_eq_true] at h
  obtain ⟨⟨hfin, hnonneg⟩, hhalf⟩ := h
  obtain ⟨s, m, hf⟩ := exists_fin_of_finite hfin
  obtain ⟨t, n, hfs⟩ := exists_fin_of_finite ((validFs_iff fs).mp hfs).1
  have hzero : val32 zero32 = .fin false 0 := by decide
  rw [le32, hzero, hf] at hnonneg
  simp only [leHalf, hf, hfs] at hhalf
  simp only [units32, hf, hfs]
  exact ⟨of_decide_eq_true hnonneg, of_decide_eq_true hhalf⟩

theorem angular_eq_ratioAngle (f fs : Word) :
    angular realArith (real32 f) (real32 fs) = ratioAngle (units32 f) (units32 fs) := by
  rw [real_angular, real32_eq_units32, real32_eq_units32, ratioAngle, ← mul_div_assoc,
    div_div_div_cancel_right₀ (by positivity)]
  ring

/-- The integer test is exact at an accepted frequency (log entry 12). -/
theorem vanishes_units32_iff {f fs : Word} (hfs : validFs fs = true)
    (hf : queryFreqOk f fs = true) (x0 x1 x2 : Word) :
    vanishes (units32 x0) (units32 x1) (units32 x2) (twoCos (units32 f) (units32 fs)) = true ↔
      polyAt f fs (real32 x0) (real32 x1) (real32 x2) = 0 := by
  obtain ⟨h0, hle⟩ := units32_of_queryFreqOk hfs hf
  rw [vanishes_twoCos_iff (units32_pos_of_validFs hfs) h0 hle, polyAt_eq_zero_iff,
    angular_eq_ratioAngle, real32_eq_units32, real32_eq_units32, real32_eq_units32,
    factorVanishes_div (by positivity)]

/-! ### What QUERY stores (R165, R168) -/

/-- The binary32 word of the implicit `a0 = 1`. -/
def oneWord : Word := 0x3F800000#32

theorem units32_oneWord : units32 oneWord = oneUnits := by decide +kernel

theorem real32_oneWord : real32 oneWord = 1 := by
  rw [real32_eq_units32, units32_oneWord, oneUnits]
  norm_num

/-- The integer test finds a zero numerator among the active slots. -/
def Active.nullTest (a : Active) (f : Word) : Bool := a.activeCoefs.any fun c =>
  vanishes (units32 c.b0) (units32 c.b1) (units32 c.b2) (twoCos (units32 f) (units32 a.fs))

/-- The integer test finds a zero denominator among the active slots. -/
def Active.poleTest (a : Active) (f : Word) : Bool := a.activeCoefs.any fun c =>
  vanishes oneUnits (units32 c.a1) (units32 c.a2) (twoCos (units32 f) (units32 a.fs))

/-- The kind of a response by its zero numerators and denominators (R165). -/
def ExtKind.ofTests : (null pole : Bool) → ExtKind
  | true, true => .nan
  | true, false => .negInf
  | false, true => .posInf
  | false, false => .finite

theorem responseKind_eq_ofTests (a : Active) (f : Word) :
    responseKind a f = .ofTests (a.nullTest f) (a.poleTest f) :=
  foldl_sectionKind (twoCos (units32 f) (units32 a.fs)) a.activeCoefs

theorem exists_mem_activeCoefs {a : Active} {P : Coefs → Prop} :
    (∃ c ∈ a.activeCoefs, P c) ↔ ∃ j : Fin 13, a.slotActive j = true ∧ P a.coef[j] := by
  simp only [mem_activeCoefs]
  constructor
  · rintro ⟨_, ⟨j, hj, rfl⟩, hP⟩
    exact ⟨j, hj, hP⟩
  · rintro ⟨j, hj, hP⟩
    exact ⟨_, ⟨j, hj, rfl⟩, hP⟩

theorem nullTest_iff {a : Active} {f : Word} (hfs : validFs a.fs = true)
    (hf : queryFreqOk f a.fs = true) : a.nullTest f = true ↔ HasNull a f := by
  simp only [Active.nullTest, List.any_eq_true, vanishes_units32_iff hfs hf, HasNull,
    exists_mem_activeCoefs]

theorem poleTest_iff {a : Active} {f : Word} (hfs : validFs a.fs = true)
    (hf : queryFreqOk f a.fs = true) : a.poleTest f = true ↔ HasPole a f := by
  simp only [Active.poleTest, ← units32_oneWord, List.any_eq_true, vanishes_units32_iff hfs hf,
    real32_oneWord, HasPole, exists_mem_activeCoefs]

/-- A response of a kind is stored as its own pattern, a finite one as a finite value (R168 M3,
M4). -/
def ExtKind.Stores : ExtKind → Word → Prop
  | .nan, r => r = nan32
  | .negInf, r => r = negInf32
  | .posInf, r => r = posInf32
  | .finite, r => isFinite32 r = true

theorem responseKind_stores_magOf {a : Active} (h : a.responseStated = true) (p : Params)
    (f : Word) : (responseKind a f).Stores (magOf p a f) := by
  by_cases hempty : a.activeCoefs = []
  · have hzero : isFinite32 zero32 = true := by decide
    rw [magOf_of_no_active hempty, responseKind, hempty]
    exact hzero
  · simp only [magOf, List.isEmpty_iff, hempty, if_false, h, if_true]
    cases responseKind a f with
    | finite => exact finiteMag_finite p a f
    | posInf => rfl
    | negInf => rfl
    | nan => rfl

theorem responseStated_of_active {a : Active} (hfs : validFs a.fs = true)
    (h : ∀ j : Fin 13, a.slotActive j = true → a.coef[j].finite = true) :
    a.responseStated = true := by
  simp only [Active.responseStated, hfs, Bool.true_and, List.all_eq_true, mem_activeCoefs]
  rintro c ⟨j, hj, rfl⟩
  exact h j hj

/-- Settles O47: the integer test is exact (`vanishes_units32_iff`), so the kind of the response is
decided by the active numerators and denominators that are zero (`responseKind_eq_ofTests`), and
MAG stores that kind. -/
theorem nullsAreDecidedExactly : Obligations.NullsAreDecidedExactly := by
  refine ⟨fun f fs x0 x1 x2 hfs hf _ _ _ => vanishes_units32_iff hfs hf x0 x1 x2, ?_⟩
  intro s hidle hstate hfs hfinite hf
  obtain ⟨-, accepted⟩ := (queryStoresMagnitude s hidle).2 hstate
  refine ⟨_, accepted hf, ?_⟩
  have hstores := responseKind_stores_magOf (responseStated_of_active hfs hfinite) s.params s.qfreq
  rw [responseKind_eq_ofTests] at hstores
  rw [← nullTest_iff hfs hf, ← poleTest_iff hfs hf]
  cases hnull : s.act.nullTest s.qfreq <;> cases hpole : s.act.poleTest s.qfreq <;>
    simpa [ExtKind.ofTests, ExtKind.Stores, hnull, hpole, nan32, negInf32, posInf32] using hstores

end Sys2Proof.Machine
end

section
/-!
SUPPORT. A commit, stage by stage (R183, R184): what it removes from PEND, and what it leaves in
each stage PROCESS reads.
-/

namespace Sys2Proof.Machine
open Sys2Proof.Claims

/-! ### The stages in PEND -/

theorem nodup_dom (p : Pending) : p.dom.Nodup :=
  List.Nodup.filter _ (show stages.Nodup by decide)

theorem dom_without (p : Pending) (k : Stage) : (p.without k).dom = p.dom.erase k := by
  rw [(nodup_dom p).erase_eq_filter, Pending.dom, Pending.dom, List.filter_filter]
  refine List.filter_congr fun k' _ => ?_
  simp [has_without, bne, Bool.and_comm, Bool.beq_eq_decide_eq]

theorem length_dom_le (p : Pending) : p.dom.length ≤ 7 := List.length_filter_le p.has stages

theorem busy_iff_has {s : State} : s.busy = true ↔ ∃ k, s.pend.has k = true := any_iff_has

theorem not_busy_iff_dom {s : State} : s.busy = false ↔ s.pend.dom = [] := dom_eq_nil_iff.symm

theorem not_busy_iff_length_dom {s : State} : s.busy = false ↔ s.pend.dom.length = 0 := by
  rw [not_busy_iff_dom, List.length_eq_zero_iff]

theorem pend_eq_empty_of_not_busy {s : State} (h : s.busy = false) : s.pend = Pending.empty := by
  have hnone (k : Stage) : s.pend.has k = false :=
    Bool.eq_false_iff.mpr fun hk => Bool.false_ne_true (h.symm.trans (busy_iff_has.mpr ⟨k, hk⟩))
  have hlow : s.pend.lowCut = none := by simpa [Pending.has] using hnone .lowCut
  have hhigh : s.pend.highCut = none := by simpa [Pending.has] using hnone .highCut
  have hpeak : s.pend.peak = Vector.replicate 5 none := Vector.ext fun b hb => by
    simpa [Pending.has] using hnone (.peak ⟨b, hb⟩)
  calc s.pend = ⟨s.pend.lowCut, s.pend.peak, s.pend.highCut⟩ := rfl
    _ = Pending.empty := by rw [hlow, hpeak, hhigh]; rfl

/-! ### The commit turn -/

theorem commit_of_not_busy {s : State} (h : s.busy = false) (n : Nat) : s.commit n = s := by
  obtain ⟨-, e⟩ | ⟨k, hk, -⟩ := commit_cases s n
  · exact e
  · exact absurd (h.symm.trans (busy_iff_has.mpr ⟨k, hk⟩)) Bool.false_ne_true

theorem commit_of_busy {s : State} (h : s.busy = true) (n : Nat) :
    ∃ k, s.pend.has k = true ∧ s.commit n = s.commitStage k := by
  obtain ⟨hdom, -⟩ | hk := commit_cases s n
  · exact absurd (h.symm.trans (not_busy_iff_dom.mpr hdom)) Bool.false_ne_true.symm
  · exact hk

/-- The turn whose number is a pending stage's place in PEND picks that stage (R183). -/
theorem exists_commit_eq_commitStage {s : State} {k : Stage} (hk : s.pend.has k = true) :
    ∃ n, s.commit n = s.commitStage k := by
  obtain ⟨n, hn, e⟩ := List.getElem_of_mem (mem_dom.mpr hk)
  refine ⟨n, ?_⟩
  have hpick : s.pend.picked n = some k := by
    rw [Pending.picked, Nat.mod_eq_of_lt hn, List.getElem?_eq_getElem hn, e]
  simp only [State.commit, hpick]

theorem length_dom_commit (s : State) (n : Nat) :
    (s.commit n).pend.dom.length = s.pend.dom.length - 1 := by
  obtain ⟨hdom, e⟩ | ⟨k, hk, e⟩ := commit_cases s n <;> rw [e]
  · rw [hdom]
    rfl
  · rw [commitStage_pend, dom_without, List.length_erase_of_mem (mem_dom.mpr hk)]

/-- A commit turn writes the active configuration and PEND only (R183). -/
theorem commit_frame (s : State) (n : Nat) :
    s.commit n = { s with act := (s.commit n).act, pend := (s.commit n).pend } := by
  obtain ⟨-, e⟩ | ⟨k, -, e⟩ := commit_cases s n <;> rw [e]
  rfl

/-! ### What is pending for one stage -/

/-- PEND holds the same for a stage. -/
def Pending.AgreesAt (p q : Pending) : Stage → Prop
  | .lowCut => p.lowCut = q.lowCut
  | .peak b => p.peak[b] = q.peak[b]
  | .highCut => p.highCut = q.highCut

theorem without_agreesAt {p : Pending} {k k' : Stage} (hne : k' ≠ k) :
    (p.without k).AgreesAt p k' := by
  cases k with
  | lowCut => cases k' with
    | lowCut => exact absurd rfl hne
    | peak _ => rfl
    | highCut => rfl
  | highCut => cases k' with
    | lowCut => rfl
    | peak _ => rfl
    | highCut => exact absurd rfl hne
  | peak b => cases k' with
    | lowCut => rfl
    | highCut => rfl
    | peak b' =>
      have hb : b' ≠ b := fun e => hne (by rw [e])
      exact (getElem_set_fin p.peak b b' none).trans (if_neg hb)

theorem Pending.AgreesAt.trans {p q r : Pending} {k : Stage} (h : p.AgreesAt q k)
    (h' : q.AgreesAt r k) : p.AgreesAt r k := by
  cases k <;> exact Eq.trans h h'

theorem Pending.AgreesAt.stageApplied {p q : Pending} {k : Stage} (h : p.AgreesAt q k)
    {old new : Active} (ha : StageApplied p old new k) : StageApplied q old new k := by
  cases k with
  | lowCut => exact fun c hc => ha c (Eq.trans h hc)
  | peak b => exact fun c hc => ha c (Eq.trans h hc)
  | highCut => exact fun c hc => ha c (Eq.trans h hc)

/-! ### What PROCESS reads of one stage -/

/-- A bank's place in the chain (R5). -/
def Bank.position : Bank → Stage
  | .low => .lowCut
  | .high => .highCut

theorem stage_inj {B B' : Bank} (h : B.stage = B'.stage) : B = B' := by
  revert h; cases B <;> cases B' <;> decide

/-- Every stage is a bank or a peak band. -/
theorem position_cases (k : Stage) : (∃ B : Bank, k = B.position) ∨ ∃ b, k = .peak b := by
  cases k with
  | lowCut => exact .inl ⟨.low, rfl⟩
  | peak b => exact .inr ⟨b, rfl⟩
  | highCut => exact .inl ⟨.high, rfl⟩

theorem stageView_position_eq_iff {a a' : Active} {B : Bank} :
    stageView a B.position = stageView a' B.position ↔
      a.sbyp[B.stage] = a'.sbyp[B.stage] ∧ a.secbyp B = a'.secbyp B ∧
        ∀ i, a.coef[B.slot i] = a'.coef[B.slot i] := by
  cases B <;>
    simp [stageView, Bank.position, Bank.stage, Active.secbyp, sectionIxs,
      Vector.toList_inj, Fin.forall_fin_succ]

theorem stageView_peak_eq_iff {a a' : Active} {b : Fin 5} :
    stageView a (.peak b) = stageView a' (.peak b) ↔
      a.sbyp[peakStage b] = a'.sbyp[peakStage b] ∧ a.coef[peakSlot b] = a'.coef[peakSlot b] := by
  simp [stageView]

theorem Active.ext_stageView {a a' : Active} (hfs : a.fs = a'.fs)
    (h : ∀ k, stageView a k = stageView a' k) : a = a' :=
  Active.ext_stages hfs (fun B => stageView_position_eq_iff.mp (h B.position))
    fun b => stageView_peak_eq_iff.mp (h (.peak b))

/-! ### APPLY of one pending stage -/

/-- The configuration pending for a bank. -/
def Pending.cut (p : Pending) : Bank → Option CutCfg
  | .low => p.lowCut
  | .high => p.highCut

theorem stageApplied_position_iff {p : Pending} {old new : Active} {B : Bank} :
    StageApplied p old new B.position ↔ ∀ c, p.cut B = some c → BankApplied B c old new := by
  cases B <;> exact Iff.rfl

/-- APPLY of a pending stage is a CONFIGURE of its bank, or installs its peak set (R184). -/
theorem applyPending_of_has (a : Active) {p : Pending} {k : Stage} (h : p.has k = true) :
    (∃ B c, k = B.position ∧ p.cut B = some c ∧ a.applyPending p k = a.configure B c) ∨
      ∃ b c, k = .peak b ∧ p.peak[b] = some c ∧ a.applyPending p k = a.applyPeak b c := by
  cases k with
  | lowCut =>
    obtain ⟨c, hc⟩ := Option.isSome_iff_exists.mp h
    exact .inl ⟨.low, c, rfl, hc, applyPending_lowCut hc⟩
  | peak b =>
    obtain ⟨c, hc⟩ := Option.isSome_iff_exists.mp h
    exact .inr ⟨b, c, rfl, hc, applyPending_peak hc⟩
  | highCut =>
    obtain ⟨c, hc⟩ := Option.isSome_iff_exists.mp h
    exact .inl ⟨.high, c, rfl, hc, applyPending_highCut hc⟩

theorem applyPending_fs_of_has (a : Active) {p : Pending} {k : Stage} (h : p.has k = true) :
    (a.applyPending p k).fs = a.fs := by
  obtain ⟨B, c, -, -, e⟩ | ⟨b, c, -, -, e⟩ := applyPending_of_has a h <;> rw [e]
  · exact configure_fs a B c
  · exact applyPeak_fs a b c

theorem stageView_configure_of_ne {B : Bank} {k : Stage} (h : k ≠ B.position) (a : Active)
    (c : CutCfg) : stageView (a.configure B c) k = stageView a k := by
  obtain ⟨B', rfl⟩ | ⟨b, rfl⟩ := position_cases k
  · have hB : B' ≠ B := fun e => h (by rw [e])
    have hstage : B'.stage ≠ B.stage := mt stage_inj hB
    exact stageView_position_eq_iff.mpr ⟨by rw [configure_sbyp, if_neg hstage],
      configure_secbyp_of_ne hB, fun i => configure_coef_of_ne (slot_ne_of_ne hB i)⟩
  · exact stageView_peak_eq_iff.mpr
      ⟨by rw [configure_sbyp, if_neg (stage_ne_peakStage B b).symm],
        configure_coef_of_ne fun i => (slot_ne_peakSlot B i b).symm⟩

theorem stageView_applyPeak_of_ne {b : Fin 5} {k : Stage} (h : k ≠ .peak b) (a : Active)
    (c : PeakCfg) : stageView (a.applyPeak b c) k = stageView a k := by
  obtain ⟨B, rfl⟩ | ⟨b', rfl⟩ := position_cases k
  · exact stageView_position_eq_iff.mpr
      ⟨by rw [applyPeak_sbyp, if_neg (stage_ne_peakStage B b)], applyPeak_secbyp a b c B,
        fun i => by rw [applyPeak_coef, if_neg (slot_ne_peakSlot B i b)]⟩
  · have hb : b' ≠ b := fun e => h (by rw [e])
    exact stageView_peak_eq_iff.mpr ⟨by rw [applyPeak_sbyp, if_neg (mt peakStage_inj hb)],
      by rw [applyPeak_coef, if_neg (mt peakSlot_inj hb)]⟩

theorem stageView_applyPending_of_ne {p : Pending} {k k' : Stage} (hk : p.has k = true)
    (hne : k' ≠ k) (a : Active) : stageView (a.applyPending p k) k' = stageView a k' := by
  obtain ⟨B, c, rfl, -, e⟩ | ⟨b, c, rfl, -, e⟩ := applyPending_of_has a hk <;> rw [e]
  · exact stageView_configure_of_ne hne a c
  · exact stageView_applyPeak_of_ne hne a c

theorem applyPending_stageApplied (a : Active) {p : Pending} {k : Stage} (hk : p.has k = true) :
    StageApplied p a (a.applyPending p k) k := by
  obtain ⟨B, c, rfl, hc, e⟩ | ⟨b, c, rfl, hc, e⟩ := applyPending_of_has a hk <;> rw [e]
  · refine stageApplied_position_iff.mpr fun c' hc' => ?_
    cases hc.symm.trans hc'
    exact configure_bankApplied a B c
  · intro c' hc'
    cases hc.symm.trans hc'
    exact ⟨by rw [applyPeak_coef, if_pos rfl], by rw [applyPeak_sbyp, if_pos rfl]⟩

theorem applyChain_stageApplied (a : Active) (c : ChainCfg) (k : Stage) :
    StageApplied (Pending.ofChain c) a (a.applyChain c) k := by
  obtain ⟨B, rfl⟩ | ⟨b, rfl⟩ := position_cases k
  · refine stageApplied_position_iff.mpr fun c' hc' => ?_
    have hcut : (Pending.ofChain c).cut B = some (c.cut B) := by cases B <;> rfl
    cases hcut.symm.trans hc'
    exact applyChain_bankApplied a c B
  · intro c' hc'
    have hpeak : (Pending.ofChain c).peak[b] = some c.peak[b] := by simp [Pending.ofChain]
    cases hpeak.symm.trans hc'
    exact applyChain_peak a c b

/-! ### A stage's configuration determines what APPLY leaves in it -/

/-- A cut configuration leaves in its bank what the bank's coefficients before it determine: the
sections it does not reach keep them (R147). -/
theorem stageView_eq_of_bankApplied {B : Bank} {c : CutCfg} {old new old' new' : Active}
    (h : BankApplied B c old new) (h' : BankApplied B c old' new')
    (hold : ∀ i, old.coef[B.slot i] = old'.coef[B.slot i]) :
    stageView new B.position = stageView new' B.position := by
  obtain ⟨hbyp, hsec⟩ := h
  obtain ⟨hbyp', hsec'⟩ := h'
  refine stageView_position_eq_iff.mpr ⟨hbyp.trans hbyp'.symm, Vector.ext fun m hm => ?_,
    fun i => ?_⟩
  · exact (hsec ⟨m, hm⟩).1.trans (hsec' ⟨m, hm⟩).1.symm
  · rw [(hsec i).2, (hsec' i).2, hold i]

theorem stageView_eq_of_stageApplied {p : Pending} {k : Stage} {old new old' new' : Active}
    (hk : p.has k = true) (h : StageApplied p old new k) (h' : StageApplied p old' new' k)
    (hold : stageView old k = stageView old' k) : stageView new k = stageView new' k := by
  obtain ⟨B, c, rfl, hc, -⟩ | ⟨b, c, rfl, hc, -⟩ := applyPending_of_has old hk
  · obtain ⟨-, -, hcoef⟩ := stageView_position_eq_iff.mp hold
    exact stageView_eq_of_bankApplied (stageApplied_position_iff.mp h c hc)
      (stageApplied_position_iff.mp h' c hc) hcoef
  · obtain ⟨hcoef, hbyp⟩ := h c hc
    obtain ⟨hcoef', hbyp'⟩ := h' c hc
    exact stageView_peak_eq_iff.mpr ⟨hbyp.trans hbyp'.symm, hcoef.trans hcoef'.symm⟩

end Sys2Proof.Machine
end

section
/-!
The chain update protocol (44_update_protocol.md): UPDATE, its commits, and the schedules that
complete it: O18, O48 to O51 and O53.
-/

namespace Sys2Proof.Machine
open Sys2Proof.Claims

/-! ### UPDATE (R180) -/

theorem exec_cmdUpdate {s : State} (h : s.busy = false) : exec .cmdUpdate s = .next s.update :=
  command_of_idle h _ _

theorem update_of_not_ready {s : State} (h : s.lstate.isReady = false) :
    s.update = s.setError .serr := by simp [State.update, h]

theorem update_of_invalid {s : State} (h : s.lstate.isReady = true)
    (hg : validSnap s.params s.stg.capture = false) : s.update = s.setError .cerr := by
  simp [State.update, h, hg]

/-- What an UPDATE designs: the staged snapshot, at ACT_FS (R180, R188). -/
def State.designed (s : State) : ChainCfg := designSnapshot s.params s.stg.capture s.act.fs

theorem update_of_valid {s : State} (h : s.lstate.isReady = true)
    (hg : validSnap s.params s.stg.capture = true) :
    s.update = { s with pend := Pending.ofChain s.designed } := by
  simp [State.update, h, hg, State.designed]

/-- Settles O18: `update_of_not_ready`, `update_of_invalid` and `update_of_valid` are the three
outcomes, and a whole chain has every stage (`ofChain_has`). -/
theorem updateSchedulesOrRejects : Obligations.UpdateSchedulesOrRejects := by
  refine fun s hidle => ⟨fun hstate => ?notReady, fun hstate => ⟨fun hg => ?invalid,
    fun hg => ?valid⟩⟩ <;> rw [exec_cmdUpdate hidle]
  case notReady =>
    rw [update_of_not_ready (isReady_eq_false_iff.mpr hstate)]
    rfl
  case invalid =>
    rw [update_of_invalid (isReady_iff.mpr hstate) hg]
    rfl
  case valid =>
    rw [update_of_valid (isReady_iff.mpr hstate) hg]
    exact ⟨_, rfl, rfl, ofChain_has _, rfl⟩

/-! ### COMMIT and APPLY (R183, R184) -/

/-- Settles O48: a commit turn is the commit of a pending stage (`commit_of_busy`), any of them
(`exists_commit_eq_commitStage`), and APPLY writes that stage alone
(`stageView_applyPending_of_ne`). -/
theorem commitInstallsOnePendingStage : Obligations.CommitInstallsOnePendingStage := by
  refine ⟨fun s n hbusy => ?installs, fun s k hk => ?anyStage, fun s n hidle => ?idle,
    fun s k hk => ⟨rfl, applyPending_fs_of_has s.act hk, applyPending_stageApplied s.act hk,
      has_without s.pend k, fun k' hne => stageView_applyPending_of_ne hk hne s.act⟩⟩
  case installs =>
    obtain ⟨k, hk, e⟩ := commit_of_busy hbusy n
    exact ⟨k, hk, congrArg Host.Outcome.next e⟩
  case anyStage =>
    obtain ⟨n, e⟩ := exists_commit_eq_commitStage hk
    exact ⟨n, congrArg Host.Outcome.next e⟩
  case idle => exact congrArg Host.Outcome.next (commit_of_not_busy hidle n)

/-! ### An update under way (R186) -/

/-- The state after some commits of an UPDATE that made `c` pending over the active configuration
`old`: a pending stage still has its configuration of `c` pending and reads as in `old`; a committed
one reads as in `old` with `c` applied. -/
structure UpdateUnderWay (c : ChainCfg) (old : Active) (s : State) : Prop where
  pending : ∀ k, s.pend.has k = true →
    s.pend.AgreesAt (Pending.ofChain c) k ∧ stageView s.act k = stageView old k
  committed : ∀ k, s.pend.has k = false → stageView s.act k = stageView (old.applyChain c) k
  fs : s.act.fs = old.fs

namespace UpdateUnderWay

variable {c : ChainCfg} {old : Active} {s : State}

theorem of_update (s : State) (c : ChainCfg) :
    UpdateUnderWay c s.act { s with pend := Pending.ofChain c } where
  pending k _ := ⟨by cases k <;> rfl, rfl⟩
  committed k hk := absurd ((ofChain_has c k).symm.trans hk) Bool.false_ne_true.symm
  fs := rfl

theorem commitStage (h : UpdateUnderWay c old s) {k : Stage} (hk : s.pend.has k = true) :
    UpdateUnderWay c old (s.commitStage k) where
  pending k' hk' := by
    rw [commitStage_pend, has_without, Bool.and_eq_true, decide_eq_true_eq] at hk'
    obtain ⟨hagree, hview⟩ := h.pending k' hk'.1
    exact ⟨(without_agreesAt hk'.2).trans hagree,
      (stageView_applyPending_of_ne hk hk'.2 s.act).trans hview⟩
  committed k' hk' := by
    rw [commitStage_act]
    by_cases hne : k' = k
    · subst hne
      obtain ⟨hagree, hview⟩ := h.pending k' hk
      exact stageView_eq_of_stageApplied (ofChain_has c k')
        (hagree.stageApplied (applyPending_stageApplied s.act hk))
        (applyChain_stageApplied old c k') hview
    · have hk₀ : s.pend.has k' = false := by simpa [has_without, hne] using hk'
      exact (stageView_applyPending_of_ne hk hne s.act).trans (h.committed k' hk₀)
  fs := (applyPending_fs_of_has s.act hk).trans h.fs

theorem commit (h : UpdateUnderWay c old s) (n : Nat) : UpdateUnderWay c old (s.commit n) := by
  obtain ⟨-, e⟩ | ⟨k, hk, e⟩ := commit_cases s n <;> rw [e]
  · exact h
  · exact h.commitStage hk

theorem commits (h : UpdateUnderWay c old s) (picks : List Nat) :
    UpdateUnderWay c old (picks.foldl State.commit s) := by
  induction picks generalizing s with
  | nil => exact h
  | cons n picks ih => exact ih (h.commit n)

/-- R186: a stage is wholly old or wholly new. -/
theorem stageView_eq (h : UpdateUnderWay c old s) (k : Stage) : stageView s.act k =
    if s.pend.has k then stageView old k else stageView (old.applyChain c) k := by
  cases hk : s.pend.has k
  · exact h.committed k hk
  · exact (h.pending k hk).2

/-- With nothing left pending, the whole chain is installed. -/
theorem act_eq (h : UpdateUnderWay c old s) (hidle : s.busy = false) :
    s.act = old.applyChain c := by
  refine Active.ext_stageView (h.fs.trans (applyChain_fs old c).symm) fun k => h.committed k ?_
  rw [pend_eq_empty_of_not_busy hidle, pendingEmpty_has]

end UpdateUnderWay

/-- Settles O49: an UPDATE under way (`UpdateUnderWay`) stays one through its commits. -/
theorem stagesAreOldOrNewNeverMixed : Obligations.StagesAreOldOrNewNeverMixed := by
  intro s t picks k hidle hready hg e
  rw [exec_cmdUpdate hidle, update_of_valid hready hg] at e
  cases e
  exact ((UpdateUnderWay.of_update s s.designed).commits picks).stageView_eq k

/-! ### A complete update (R185) -/

theorem length_dom_commits (s : State) (picks : List Nat) :
    (picks.foldl State.commit s).pend.dom.length = s.pend.dom.length - picks.length := by
  induction picks generalizing s with
  | nil => rfl
  | cons n picks ih =>
    rw [List.foldl_cons, ih, length_dom_commit, List.length_cons]
    omega

theorem commits_frame (s : State) (picks : List Nat) :
    picks.foldl State.commit s =
      { s with act := (picks.foldl State.commit s).act,
               pend := (picks.foldl State.commit s).pend } := by
  induction picks generalizing s with
  | nil => rfl
  | cons n picks ih =>
    rw [List.foldl_cons, ih (s.commit n), commit_frame s n]

theorem not_busy_after_seven_commits (s : State) {picks : List Nat} (h : picks.length = 7) :
    (picks.foldl State.commit s).busy = false := by
  have hle := length_dom_le s.pend
  rw [not_busy_iff_length_dom, length_dom_commits]
  omega

/-- Settles O50: seven commits empty PEND, whatever they pick, and what the update under way has
then installed is the whole chain (`UpdateUnderWay.act_eq`). -/
theorem updateInstallsInAnyOrder : Obligations.UpdateInstallsInAnyOrder := by
  intro s picks hidle hready hg hseven
  have hdone := not_busy_after_seven_commits { s with pend := Pending.ofChain s.designed } hseven
  have hact := ((UpdateUnderWay.of_update s s.designed).commits picks).act_eq hdone
  refine ⟨_, _, (exec_cmdUpdate hidle).trans (congrArg _ (update_of_valid hready hg)), rfl, hdone,
    ?frame, ?actFs, ?installed⟩
  case frame =>
    rw [commits_frame, pend_eq_empty_of_not_busy hdone, ← pend_eq_empty_of_not_busy hidle]
  case actFs => rw [hact, applyChain_fs]
  case installed =>
    rw [hact]
    exact applyChain_installed s.params s.stg.capture s.act.fs s.act

/-! ### While BUSY, no agent but the commit agent writes PEND (R185, R200) -/

@[simp] theorem writeReg_port (s : State) (w : Word) (r : Reg) :
    (s.writeReg w r).port = s.port := by cases r <;> rfl

/-- Two states with the same PEND and the same turns to come. -/
def SameProgress (s t : State) : Prop := t.pend = s.pend ∧ t.port.turns = s.port.turns

theorem command_sameProgress {s t : State} (hbusy : s.busy = true) {w : Word} {f : State → State}
    (e : s.command w f = .next t) : SameProgress s t := by
  rw [command_of_busy hbusy] at e
  cases e
  exact ⟨rfl, rfl⟩

theorem process_sameProgress {s t : State} {x : Word} (e : execProcess x s = .next t) :
    SameProgress s t := by
  obtain ⟨-, e'⟩ | ⟨-, e'⟩ := process_cases x s <;> cases e'.symm.trans e <;> exact ⟨rfl, rfl⟩

theorem exec_sameProgress {i : Instr} {s t : State} (hbusy : s.busy = true)
    (e : exec i s = .next t) : SameProgress s t := by
  cases i with
  | regRead waddr wdata => cases e; exact ⟨rfl, rfl⟩
  | regWrite waddr wdata =>
    cases e
    exact ⟨writeReg_pend .., congrArg Ports.turns (writeReg_port ..)⟩
  | cmdNop => exact command_sameProgress hbusy e
  | cmdPrepare => exact command_sameProgress hbusy e
  | cmdUpdate => exact command_sameProgress hbusy e
  | cmdFlush => exact command_sameProgress hbusy e
  | cmdRelease => exact command_sameProgress hbusy e
  | cmdQuery => exact command_sameProgress hbusy e
  | cmdIllegal rsv op => exact command_sameProgress hbusy e
  | process x => exact process_sameProgress e

theorem nextRequest_turns {s s' : State} {r : Req} (h : s.nextRequest = some (r, s')) :
    s'.port.turns = s.port.turns := by
  unfold State.nextRequest at h
  split at h <;> cases h
  rfl

theorem fetchControl_turns {s s' : State} {i : Instr} (h : s.fetchControl = some (i, s')) :
    s'.port.turns = s.port.turns := by
  unfold State.fetchControl at h
  split at h
  case h_1 =>
    obtain ⟨⟨r, u⟩, hnext, e⟩ := Option.map_eq_some_iff.mp h
    cases e
    exact nextRequest_turns hnext
  case h_2 =>
    split at h
    case isTrue =>
      split at h
      case h_1 hnext =>
        split at h <;> cases h
        exact nextRequest_turns hnext
      case h_2 => cases h
    case isFalse =>
      cases h
      rfl

theorem fetchRetry_turns {s s' : State} {i : Instr} (h : s.fetchRetry = some (i, s')) :
    s'.port.turns = s.port.turns := by
  obtain ⟨w, -, e⟩ := Option.map_eq_some_iff.mp h
  cases e
  rfl

theorem fetchSample_turns {s s' : State} {i : Instr} (h : s.fetchSample = some (i, s')) :
    s'.port.turns = s.port.turns := by
  unfold State.fetchSample at h
  split at h <;> cases h
  rfl

theorem fetched_sameProgress {s s' : State} {i : Instr}
    (h : s.fetchControl = some (i, s') ∨ s.fetchRetry = some (i, s') ∨
      s.fetchSample = some (i, s')) : SameProgress s s' := by
  refine ⟨by rw [fetched_frame h], ?_⟩
  obtain h | h | h := h
  · exact fetchControl_turns h
  · exact fetchRetry_turns h
  · exact fetchSample_turns h

/-- While BUSY, an agent's turn leaves PEND and the turns to come as they are, whether it performs
what it fetched or has nothing to perform. -/
theorem runFetched_sameProgress {s : State} {f : Option (Instr × State)} (hbusy : s.busy = true)
    (hf : ∀ i s', f = some (i, s') → SameProgress s s') :
    ∃ t, runFetched f s = .next t ∧ SameProgress s t := by
  obtain _ | ⟨i, s'⟩ := f
  · exact ⟨s, rfl, rfl, rfl⟩
  · obtain ⟨hpend, hturns⟩ := hf i s' rfl
    obtain ⟨t, e⟩ := exec_answers i s'
    have hbusy' : s'.busy = true := (congrArg Pending.any hpend).trans hbusy
    obtain ⟨hpend', hturns'⟩ := exec_sameProgress hbusy' e
    exact ⟨t, e, hpend'.trans hpend, hturns'.trans hturns⟩

/-! ### A schedule with enough commit turns (R185) -/

/-- Is it the commit agent's turn? -/
def Turn.isCommit : Turn → Bool
  | .control => false
  | .retry => false
  | .sample => false
  | .commit _ => true
  | .reset => false

/-- What a turn taken while BUSY leaves: nothing pending, as after reset, or the turns to come
untouched and as many stages pending as before, one less if it was a commit turn. -/
def Advances (u : Turn) (s t : State) : Prop :=
  t.busy = false ∨
    t.port.turns = s.port.turns ∧ t.pend.dom.length + u.isCommit.toNat = s.pend.dom.length

theorem SameProgress.advances {u : Turn} {s t : State} (h : SameProgress s t)
    (hu : u.isCommit = false) : Advances u s t := by
  obtain ⟨hpend, hturns⟩ := h
  exact .inr ⟨hturns, by rw [hu, hpend]; rfl⟩

theorem commit_advances {s : State} (hbusy : s.busy = true) (n : Nat) :
    Advances (.commit n) s (s.commit n) := by
  refine .inr ⟨by rw [commit_frame], ?_⟩
  have hpos : s.pend.dom.length ≠ 0 := fun h =>
    Bool.false_ne_true ((not_busy_iff_length_dom.mpr h).symm.trans hbusy)
  rw [length_dom_commit]
  exact Nat.succ_pred hpos

theorem runTurn_advances {s : State} (hbusy : s.busy = true) (u : Turn) :
    ∃ t, runTurn u s = .next t ∧ Advances u s t := by
  have agent {f : Option (Instr × State)} (hu : u.isCommit = false)
      (hf : ∀ i s', f = some (i, s') → SameProgress s s') :
      ∃ t, runFetched f s = .next t ∧ Advances u s t := by
    obtain ⟨t, e, h⟩ := runFetched_sameProgress hbusy hf
    exact ⟨t, e, h.advances hu⟩
  cases u with
  | control => exact agent rfl fun _ _ h => fetched_sameProgress (.inl h)
  | retry => exact agent rfl fun _ _ h => fetched_sameProgress (.inr (.inl h))
  | sample => exact agent rfl fun _ _ h => fetched_sameProgress (.inr (.inr h))
  | commit n => exact ⟨_, rfl, commit_advances hbusy n⟩
  | reset => exact ⟨_, rfl, .inl rfl⟩

theorem step_of_turns {s : State} {u : Turn} {ts : List Turn} (h : s.port.turns = u :: ts) :
    step s = runTurn u { s with port := { s.port with turns := ts } } := by
  have htake : s.takeTurn = (u, { s with port := { s.port with turns := ts } }) := by
    simp only [State.takeTurn, h]
  rw [step, htake]

theorem run_succ {s t : State} (h : step s = .next t) (k : Nat) :
    Host.Core.run core (k + 1) s = Host.Core.run core k t := by
  have hstep : core.step s = .next t := h
  simp only [Host.Core.run, hstep]

/-- A schedule with a commit turn for each pending stage leaves, at some point, none pending. -/
theorem exists_run_not_busy (ts : List Turn) {s : State} (hturns : s.port.turns = ts)
    (hcommits : s.pend.dom.length ≤ ts.countP Turn.isCommit) :
    ∃ k t, k ≤ ts.length ∧ Host.Core.run core k s = .next t ∧ t.busy = false := by
  induction ts generalizing s with
  | nil => exact ⟨0, s, le_rfl, rfl, not_busy_iff_length_dom.mpr (Nat.le_zero.mp hcommits)⟩
  | cons u ts ih =>
    cases hbusy : s.busy
    case false => exact ⟨0, s, Nat.zero_le _, rfl, hbusy⟩
    case true =>
      obtain ⟨t, e, hadv⟩ := runTurn_advances
        (s := { s with port := { s.port with turns := ts } }) hbusy u
      have hstep : step s = .next t := (step_of_turns hturns).trans e
      obtain hidle | ⟨hturns', hdom⟩ := hadv
      · exact ⟨1, t, by simp, run_succ hstep 0, hidle⟩
      · have hcount : t.pend.dom.length ≤ ts.countP Turn.isCommit := by
          rw [List.countP_cons, ← hdom] at hcommits
          cases hu : u.isCommit <;> simp [hu] at hcommits <;> omega
        obtain ⟨k, t', hk, hrun, hidle⟩ := ih hturns' hcount
        exact ⟨k + 1, t', Nat.succ_le_succ hk, (run_succ hstep k).trans hrun, hidle⟩

theorem isCommit_eq : Turn.isCommit = fun u => match u with | .commit _ => true | _ => false := by
  funext u
  cases u <;> rfl

/-- Settles O51: at most seven stages are pending, and while any is, only a commit turn or reset
changes PEND (`runTurn_advances`). -/
theorem everyUpdateCompletes : Obligations.EveryUpdateCompletes := by
  intro s ts hturns hseven
  refine exists_run_not_busy ts hturns ((length_dom_le s.pend).trans ?_)
  rw [List.countP_eq_length_filter, isCommit_eq]
  exact hseven

/-! ### A bypass-only change (R187) -/

/-- A bank that has one configuration applied holds what another with the same sets leaves in it, up
to the stage flag. -/
theorem bankApplied_of_same_coefs {B : Bank} {c c' : CutCfg} {old a : Active}
    (h : BankApplied B c old a) (hcoefs : c'.coefs = c.coefs) {flags : Vector Bool 7}
    (hflag : flags[B.stage] = c'.byp) : BankApplied B c' a { a with sbyp := flags } := by
  obtain ⟨-, hsec⟩ := h
  refine ⟨hflag, fun i => ⟨?_, ?_⟩⟩
  · rw [hcoefs, ← (hsec i).1]
    cases B <;> rfl
  · rw [hcoefs]
    cases hc : c.coefs[i.val]? with
    | none => rfl
    | some k => exact (hsec i).2.trans (by rw [hc]; rfl)

theorem designSnapshot_cut_coefs (p : Params) (g : Snapshot) (fs : Word) (byp : BitVec 7)
    (B : Bank) : ((designSnapshot p { g with byp := byp } fs).cut B).coefs =
      ((designSnapshot p g fs).cut B).coefs := by cases B <;> rfl

theorem designSnapshot_cut_byp (p : Params) (g : Snapshot) (fs : Word) (B : Bank) :
    ((designSnapshot p g fs).cut B).byp = g.byp.getLsbD B.stage.val := by cases B <;> rfl

theorem designSnapshot_peak_coef (p : Params) (g : Snapshot) (fs : Word) (byp : BitVec 7)
    (b : Fin 5) : (designSnapshot p { g with byp := byp } fs).peak[b].coef =
      (designSnapshot p g fs).peak[b].coef := by
  rw [designSnapshot_peak, designSnapshot_peak]
  rfl

theorem designSnapshot_peak_byp (p : Params) (g : Snapshot) (fs : Word) (b : Fin 5) :
    (designSnapshot p g fs).peak[b].byp = g.byp.getLsbD (peakStage b).val := by
  rw [designSnapshot_peak]
  rfl

/-- Settles O53: stage by stage, the second snapshot's sets are those the first installed
(`bankApplied_of_same_coefs`, `designSnapshot_peak_coef`), and its flags are `byp`'s bits. -/
theorem bypassOnlyUpdateKeepsCoefficients : Obligations.BypassOnlyUpdateKeepsCoefficients := by
  intro p g fs byp a a1
  have hflag (k : Fin 7) : (Vector.ofFn fun k : Fin 7 => byp.getLsbD k.val)[k] =
      byp.getLsbD k.val := by simp
  refine Active.ext_stageView (applyChain_fs a1 _) fun k => ?_
  obtain ⟨B, rfl⟩ | ⟨b, rfl⟩ := position_cases k
  · refine stageView_eq_of_bankApplied (applyChain_bankApplied a1 _ B)
      (bankApplied_of_same_coefs (applyChain_bankApplied a _ B)
        (designSnapshot_cut_coefs p g fs byp B) ?_) fun _ => rfl
    rw [designSnapshot_cut_byp, hflag]
  · obtain ⟨hcoef, hbyp⟩ := applyChain_peak a1 (designSnapshot p { g with byp := byp } fs) b
    obtain ⟨hcoef', -⟩ := applyChain_peak a (designSnapshot p g fs) b
    refine stageView_peak_eq_iff.mpr ⟨?_, ?_⟩
    · rw [hbyp, designSnapshot_peak_byp]
      exact (hflag (peakStage b)).symm
    · rw [hcoef, designSnapshot_peak_coef]
      exact hcoef'.symm

end Sys2Proof.Machine
end

section
/-!
The lifecycle commands NOP, FLUSH, RELEASE and CMD_ILLEGAL (45_lifecycle_commands.md): O16, O19, O20
and O21.
-/

namespace Sys2Proof.Machine

/-! ### NOP (R201) -/

theorem exec_cmdNop (s : State) : exec .cmdNop s = s.command 0x00000000#32 id := rfl

/-- Settles O16: NOP's effect is the identity, past the command entry (`command_of_idle`,
`command_of_busy`). -/
theorem nopHasNoEffect : Obligations.NopHasNoEffect := by
  intro s
  rw [exec_cmdNop]
  exact ⟨fun hidle => command_of_idle hidle _ _, fun hbusy => command_of_busy hbusy _ _⟩

/-! ### FLUSH (R203) -/

theorem exec_cmdFlush {s : State} (h : s.busy = false) : exec .cmdFlush s = .next s.flush :=
  command_of_idle h _ _

theorem flush_eq (s : State) :
    s.flush = { s with st := Vector.replicate 13 ⟨0x00000000#32, 0x00000000#32⟩ } := rfl

/-- Settles O19: FLUSH reads no lifecycle state, and writes the delay lines alone (`flush_eq`). -/
theorem flushClearsDelayLines : Obligations.FlushClearsDelayLines := by
  intro s hidle
  rw [exec_cmdFlush hidle, flush_eq]

/-! ### RELEASE (R204) -/

theorem exec_cmdRelease {s : State} (h : s.busy = false) : exec .cmdRelease s = .next s.release :=
  command_of_idle h _ _

/-- Settles O20: `release_cases` has one outcome in UNPREPARED and one in every other state. -/
theorem releaseEntersReleased : Obligations.ReleaseEntersReleased := by
  intro s hidle
  rw [exec_cmdRelease hidle]
  obtain ⟨hstate, e⟩ | ⟨hstate, e⟩ := release_cases s <;> rw [e]
  · exact ⟨fun _ => rfl, fun h => absurd hstate h⟩
  · exact ⟨fun h => absurd h hstate, fun _ => rfl⟩

/-! ### CMD_ILLEGAL (R205) -/

theorem exec_cmdIllegal {s : State} (h : s.busy = false) (rsv : BitVec 24) (op : BitVec 8) :
    exec (.cmdIllegal rsv op) s = .next (s.setError .ierr) := command_of_idle h _ _

/-- Settles O21: past the command entry an illegal word records IERR, whatever its fields. -/
theorem illegalCommandSetsIerr : Obligations.IllegalCommandSetsIerr := by
  intro rsv op s _ hidle
  rw [exec_cmdIllegal hidle, State.setError, set_ierr]

end Sys2Proof.Machine
end

section
/-!
Reads and writes of the registers (46_register_access.md): what a composed word reads as a number,
what a word register holds after a write, and the registers a write leaves alone: O10 to O13.
-/

namespace Sys2Proof.Machine
open Sys2Proof.Claims

/-! ### Composed words as numbers -/

/-- The fields of a composed word do not overlap, so their places add. -/
theorem toNat_append_eq_add {m n : Nat} (x : BitVec m) (y : BitVec n) :
    (x ++ y).toNat = x.toNat * 2 ^ n + y.toNat := by
  rw [BitVec.toNat_append, ← Nat.shiftLeft_add_eq_or_of_lt y.isLt, Nat.shiftLeft_eq]

theorem toNat_code (l : LState) : l.code.toNat = lstateCode l := by cases l <;> rfl

/-- STATUS as a read returns it, field by field (R223). -/
theorem toNat_statusWord (s : State) :
    s.statusWord.toNat =
      lstateCode s.lstate + 2 ^ 2 * s.busy.toNat + 2 ^ 8 * s.err.cerr.toNat
        + 2 ^ 9 * s.err.serr.toNat + 2 ^ 10 * s.err.ierr.toNat := by
  simp only [State.statusWord, toNat_append_eq_add, BitVec.toNat_ofBool, BitVec.toNat_ofNat,
    toNat_code]
  omega

/-- SLOPE as a read returns it, field by field (R225). -/
theorem toNat_slopeWord (g : Staging) :
    g.slopeWord.toNat = g.lcSlope.toNat + 2 ^ 8 * g.hcSlope.toNat := by
  simp only [Staging.slopeWord, toNat_append_eq_add, BitVec.toNat_ofNat]
  omega

/-! ### STATUS (R223) -/

/-- Settles O10: the read is `toNat_statusWord`, and the write is `Errors.writeOneToClear`. -/
theorem statusReadAndClear : Obligations.StatusReadAndClear := by
  intro w s
  have hreg : regAt 1#10 = .status := rfl
  rw [exec_regWrite, hreg]
  exact ⟨busy_iff_has, toNat_statusWord s, rfl⟩

/-! ### SLOPE and BYPASS (R225, R226) -/

theorem toNat_slope_writeReg (s : State) (w : Word) :
    ((s.writeReg w .slope).readReg .slope).toNat =
      w.toNat % 2 ^ 4 + 2 ^ 8 * (w.toNat / 2 ^ 8 % 2 ^ 4) := by
  have hread : (s.writeReg w .slope).readReg .slope =
      (s.writeReg w .slope).stg.slopeWord := rfl
  rw [hread, toNat_slopeWord]
  simp only [State.writeReg, BitVec.extractLsb'_toNat, Nat.shiftRight_eq_div_pow, pow_zero,
    Nat.div_one]

theorem toNat_bypass_writeReg (s : State) (w : Word) :
    ((s.writeReg w .bypass).readReg .bypass).toNat = w.toNat % 2 ^ 7 := by
  simp only [State.writeReg, State.readReg, BitVec.toNat_setWidth, BitVec.extractLsb'_toNat,
    Nat.shiftRight_zero]
  exact Nat.mod_mod_of_dvd' (by decide)

/-- Settles O11: each write sets its fields alone, and `toNat_slope_writeReg` and
`toNat_bypass_writeReg` read them back. -/
theorem slopeAndBypassStoreTheirFields : Obligations.SlopeAndBypassStoreTheirFields := by
  intro w s
  have hslope : regAt 3#10 = .slope := rfl
  have hbypass : regAt 4#10 = .bypass := rfl
  rw [exec_regWrite, exec_regWrite, hslope, hbypass]
  exact ⟨⟨_, rfl, rfl, toNat_slope_writeReg s w⟩, _, rfl, rfl, toNat_bypass_writeReg s w⟩

/-! ### The word registers (R227) -/

/-- Does a write to the register store the whole word (R227)? -/
def Reg.storesWord : Reg → Bool
  | .fs | .lcFreq | .hcFreq | .bandFreq _ | .bandGain _ | .bandQ _ | .qfreq => true
  | _ => false

theorem storesWord_iff {r : Reg} :
    r.storesWord = true ↔ r ∈ [Reg.fs, .lcFreq, .hcFreq, .qfreq] ∨
      ∃ b, r = .bandFreq b ∨ r = .bandGain b ∨ r = .bandQ b := by
  cases r <;> simp [Reg.storesWord]

theorem readReg_writeReg_of_storesWord {r : Reg} (h : r.storesWord = true) (s : State) (w : Word) :
    (s.writeReg w r).readReg r = w := by
  cases r with
  | fs | lcFreq | hcFreq | qfreq => rfl
  | bandFreq b | bandGain b | bandQ b => simp [State.writeReg, State.readReg]
  | _ => cases h

/-- Only a write to STATUS reaches beyond the staging registers and QFREQ. -/
theorem writeReg_frame_of_ne_status {r : Reg} (h : r ≠ .status) (s : State) (w : Word) :
    s.writeReg w r =
      { s with stg := (s.writeReg w r).stg, qfreq := (s.writeReg w r).qfreq } := by
  cases r with
  | status => exact absurd rfl h
  | _ => rfl

/-- Settles O12: a word register reads back what was written, every other register reads as before
(`readReg_writeReg_of_ne`), and STATUS is no word register. -/
theorem wordRegistersStoreEveryPattern : Obligations.WordRegistersStoreEveryPattern := by
  intro waddr w s hreg
  have hword : (regAt waddr).storesWord = true := storesWord_iff.mpr hreg
  have hstatus : regAt waddr ≠ .status := fun e => by
    rw [e] at hword
    cases hword
  exact ⟨_, exec_regWrite waddr w s, readReg_writeReg_of_storesWord hword s w,
    fun r hne => readReg_writeReg_of_ne hne s w, writeReg_frame_of_ne_status hstatus s w⟩

/-! ### The read-only registers (R222, R224, R228) -/

/-- Settles O13: register by register, the read is the model's and the write is ignored; no write
reaches the active configuration (`writeReg_act`) or the delay lines (`writeReg_st`). -/
theorem readOnlyRegistersReturnState : Obligations.ReadOnlyRegistersReturnState := by
  intro waddr w s
  rw [exec_regWrite]
  refine ⟨?id, ?cmd, ⟨_, rfl, writeReg_act .., writeReg_st ..⟩, ?qresult, ?actBypass, ?actFs, ?coef,
    ?st1, ?st2⟩
  case coef =>
    intro j m hreg
    rw [hreg]
    cases m <;> exact ⟨rfl, rfl⟩
  case st1 | st2 =>
    intro j hreg
    rw [hreg]
    exact ⟨rfl, rfl⟩
  case cmd =>
    intro hreg
    rw [hreg]
    rfl
  case id | qresult | actBypass | actFs =>
    intro hreg
    rw [hreg]
    exact ⟨rfl, rfl⟩

end Sys2Proof.Machine
end

section
/-!
Errors (60_exceptions.md): that CORE never stops (R240), which error a transaction records and what
its rejection leaves alone (R241, R243, R244), and that a set error bit stays set (R246): O27, O28
and O56.
-/

namespace Sys2Proof.Machine
open Sys2Proof.Claims

/-! ### CORE never stops (R240) -/

theorem runTurn_answers (u : Turn) (s : State) : ∃ t, runTurn u s = .next t := by
  obtain ⟨i, s', e, -⟩ | e | ⟨n, e⟩ | e := runTurn_cases u s
  · rw [e]
    exact exec_answers i s'
  all_goals exact ⟨_, e⟩

/-- Settles O56: a step is one turn, and every turn answers (`runTurn_answers`). -/
theorem noStepStops : Obligations.NoStepStops := fun s => runTurn_answers s.takeTurn.1 s.takeTurn.2

/-! ### What a rejection leaves (R244) -/

/-- A command holds while BUSY = 1, whichever it is (R200). -/
theorem exec_of_busy {i : Instr} {w : Word} {s : State} (hw : commandWord i = some w)
    (hbusy : s.busy = true) : exec i s = .next { s with port := { s.port with held := some w } } := by
  cases i with
  | regRead _ _ | regWrite _ _ | process _ => cases hw
  | _ =>
    cases hw
    exact command_of_busy hbusy _ _

/-- The state a transaction rejected with error `b` leaves: the error bit set, and a PROCESS's input
returned as its output (R160, R244). -/
def State.rejected (s : State) (b : ErrBit) : Instr → State
  | .process x => (s.setError b).returnSample x
  | _ => s.setError b

@[simp] theorem rejected_err (s : State) (b : ErrBit) (i : Instr) :
    (s.rejected b i).err = s.err.set b := by cases i <;> rfl

/-- `t` is what `rejection` says `i` leaves of the errors of `s`: the rejected state, or the error
bits as they were, but for a write to STATUS. -/
structure Records (i : Instr) (s t : State) : Prop where
  rejected : ∀ b, rejection i s = some b → t = s.rejected b i
  accepted : rejection i s = none → (∀ a w, i = .regWrite a w → regAt a ≠ .status) → t.err = s.err

theorem Records.of_rejection {i : Instr} {s t : State} {b : ErrBit} (h : rejection i s = some b)
    (ht : t = s.rejected b i) : Records i s t where
  rejected b' h' := by
    cases h.symm.trans h'
    exact ht
  accepted h' := by
    rw [h] at h'
    cases h'

theorem Records.of_no_rejection {i : Instr} {s t : State} (h : rejection i s = none)
    (ht : (∀ a w, i = .regWrite a w → regAt a ≠ .status) → t.err = s.err) : Records i s t where
  rejected b h' := by
    rw [h] at h'
    cases h'
  accepted _ := ht

theorem writeReg_err_of_ne_status {r : Reg} (h : r ≠ .status) (s : State) (w : Word) :
    (s.writeReg w r).err = s.err := by rw [writeReg_frame_of_ne_status h]

/-! ### Which error each transaction records, and in which order (R241, R243) -/

theorem prepare_records (s : State) : Records .cmdPrepare s s.prepare := by
  cases hvalid : validFs s.stg.fs && validSnap s.params s.stg.capture
  · exact .of_rejection (by simp [rejection, hvalid])
      (prepare_of_invalid (Bool.and_eq_false_iff.mp hvalid))
  · obtain ⟨hfs, hg⟩ := Bool.and_eq_true_iff.mp hvalid
    exact .of_no_rejection (by simp [rejection, hvalid]) fun _ => by simp [prepare_of_valid hfs hg]

theorem update_records (s : State) : Records .cmdUpdate s s.update := by
  obtain ⟨hready, e⟩ | ⟨hready, hg, e⟩ | ⟨hready, hg, e⟩ := update_cases s
  · exact .of_rejection (by simp [rejection, ← isReady_iff, hready]) e
  · exact .of_rejection (by simp [rejection, ← isReady_iff, hready, hg]) e
  · exact .of_no_rejection (by simp [rejection, ← isReady_iff, hready, hg]) fun _ => by rw [e]

theorem release_records (s : State) : Records .cmdRelease s s.release := by
  obtain ⟨hstate, e⟩ | ⟨hstate, e⟩ := release_cases s
  · exact .of_rejection (if_pos hstate) e
  · exact .of_no_rejection (if_neg hstate) fun _ => by rw [e]

theorem query_records (s : State) : Records .cmdQuery s s.query := by
  obtain ⟨hready, e⟩ | ⟨hready, r, e⟩ := query_cases s
  · exact .of_rejection (by simp [rejection, ← isReady_iff, hready]) e
  · exact .of_no_rejection (by simp [rejection, ← isReady_iff, hready]) fun _ => by rw [e]

theorem process_records (x : Word) (s : State) :
    ∃ t, execProcess x s = .next t ∧ Records (.process x) s t := by
  obtain ⟨hready, e⟩ | ⟨hready, e⟩ := process_cases x s
  · exact ⟨_, e, .of_rejection (by simp [rejection, ← isReady_iff, hready]) rfl⟩
  · exact ⟨_, e, .of_no_rejection (by simp [rejection, ← isReady_iff, hready]) fun _ => rfl⟩

/-- Past the command entry, every transaction records what `rejection` says. -/
theorem exec_records {i : Instr} {s : State}
    (hidle : (commandWord i).isSome = true → s.busy = false) :
    ∃ t, exec i s = .next t ∧ Records i s t := by
  cases i with
  | regRead waddr wdata => exact ⟨_, rfl, .of_no_rejection rfl fun _ => rfl⟩
  | regWrite waddr wdata =>
    exact ⟨_, rfl, .of_no_rejection rfl fun h => writeReg_err_of_ne_status (h _ _ rfl) s wdata⟩
  | cmdNop => exact ⟨s, command_of_idle (hidle rfl) _ _, .of_no_rejection rfl fun _ => rfl⟩
  | cmdPrepare => exact ⟨_, exec_cmdPrepare (hidle rfl), prepare_records s⟩
  | cmdUpdate => exact ⟨_, exec_cmdUpdate (hidle rfl), update_records s⟩
  | cmdFlush => exact ⟨_, exec_cmdFlush (hidle rfl), .of_no_rejection rfl fun _ => rfl⟩
  | cmdRelease => exact ⟨_, exec_cmdRelease (hidle rfl), release_records s⟩
  | cmdQuery => exact ⟨_, exec_cmdQuery (hidle rfl), query_records s⟩
  | cmdIllegal rsv op => exact ⟨_, exec_cmdIllegal (hidle rfl) rsv op, .of_rejection rfl rfl⟩
  | process x => exact process_records x s

/-- Settles O27: a command holds while BUSY (`exec_of_busy`), and past that every transaction leaves
what `rejection` says (`exec_records`). -/
theorem errorsAreExactAndPrecise : Obligations.ErrorsAreExactAndPrecise := by
  refine ⟨fun i w s => exec_of_busy, fun i s hidle => ?_⟩
  obtain ⟨t, e, hrecords⟩ := exec_records hidle
  refine ⟨fun b hb => ?rejected, fun hnone hstatus => ⟨t, e, hrecords.accepted hnone hstatus⟩⟩
  case rejected =>
    rw [e, hrecords.rejected b hb]
    cases i <;> rfl

/-! ### A set error bit stays set (R246) -/

/-- Every error bit set in `e` is set in `e'`. -/
def Errors.StaySet (e e' : Errors) : Prop :=
  (e.cerr = true → e'.cerr = true) ∧ (e.serr = true → e'.serr = true) ∧
    (e.ierr = true → e'.ierr = true)

theorem Errors.StaySet.refl (e : Errors) : e.StaySet e := ⟨id, id, id⟩

theorem Errors.staySet_set (e : Errors) (b : ErrBit) : e.StaySet (e.set b) := by
  cases b <;> simp [Errors.StaySet]

/-- A transaction that is no write to STATUS leaves the error bits alone or sets one. -/
theorem exec_err_cases {i : Instr} {s t : State} (e : exec i s = .next t)
    (hstatus : ∀ a w, i = .regWrite a w → regAt a ≠ .status) :
    t.err = s.err ∨ ∃ b, t.err = s.err.set b := by
  by_cases hidle : (commandWord i).isSome = true → s.busy = false
  case pos =>
    obtain ⟨t', e', hrecords⟩ := exec_records hidle
    cases e'.symm.trans e
    cases hr : rejection i s with
    | none => exact .inl (hrecords.accepted hr hstatus)
    | some b => exact .inr ⟨b, by rw [hrecords.rejected b hr, rejected_err]⟩
  case neg =>
    obtain ⟨hcommand, hbusy⟩ := Classical.not_imp.mp hidle
    obtain ⟨w, hw⟩ := Option.isSome_iff_exists.mp hcommand
    cases (exec_of_busy hw (Bool.eq_true_of_not_eq_false hbusy)).symm.trans e
    exact .inl rfl

theorem exec_staySet {i : Instr} {s t : State} (e : exec i s = .next t)
    (hstatus : ∀ a w, i = .regWrite a w → regAt a ≠ .status) : s.err.StaySet t.err := by
  obtain h | ⟨b, h⟩ := exec_err_cases e hstatus <;> rw [h]
  · exact .refl _
  · exact Errors.staySet_set _ b

/-- Settles O28: an instruction leaves the error bits alone or sets one (`exec_err_cases`), a write
to STATUS clears those it has a 1 for, and a commit touches none (`commit_frame`). -/
theorem errorBitsAreSticky : Obligations.ErrorBitsAreSticky := by
  refine ⟨fun i s t => exec_staySet, fun waddr w s t e => ?write, fun n s t e => ?commit⟩
  case write =>
    cases (exec_regWrite waddr w s).symm.trans e
    by_cases hstatus : regAt waddr = .status
    · simp +contextual [hstatus, State.writeReg, Errors.writeOneToClear]
    · rw [writeReg_err_of_ne_status hstatus]
      exact ⟨fun h _ => h, fun h _ => h, fun h _ => h⟩
  case commit =>
    cases e
    rw [commit_frame]

end Sys2Proof.Machine
end

section
/-!
The encoder and the decoder as inverses of each other, and the byte frames of the table's words
(30_encoding.md): O1, O2, O4 and O5.
-/

namespace Sys2Proof

/-! ### Command words (R73, R74) -/

theorem isCommandWord_iff {rsv : BitVec 24} {op : BitVec 8} :
    isCommandWord rsv op = true ↔ rsv = 0#24 ∧ op.toNat ≤ 5 := by
  simp [isCommandWord]

/-- A word written to CMD is one of the six commands or illegal, by lines (3) and (4) of R75. -/
theorem decodeCommand_cases (w : Word) :
    (∃ n : Fin 6, w = cmdWord 0#24 (BitVec.ofNat 8 n)) ∨
      (isCommandWord (cmdRsv w) (cmdOp w) = false ∧
        decodeCommand w = .cmdIllegal (cmdRsv w) (cmdOp w)) := by
  cases h : isCommandWord (cmdRsv w) (cmdOp w)
  case false =>
    rw [← Bool.not_eq_true, isCommandWord_iff] at h
    exact .inr ⟨rfl, decodeCommand_illegal h⟩
  case true =>
    obtain ⟨hrsv, hop⟩ := isCommandWord_iff.mp h
    refine .inl ⟨⟨(cmdOp w).toNat, Nat.lt_succ_of_le hop⟩, ?_⟩
    rw [BitVec.ofNat_toNat, BitVec.setWidth_eq, ← hrsv, cmdWord_fields]

/-- The decoder keeps every bit of a word written to CMD. -/
theorem encode_decodeCommand (w : Word) :
    (decodeCommand w).wf = true ∧ encode (decodeCommand w) = .ctl (Req.mk true cmdWAddr w) := by
  obtain ⟨n, rfl⟩ | ⟨hword, e⟩ := decodeCommand_cases w
  · revert n
    decide
  · rw [e, encode, encodeCommand, cmdWord_fields]
    exact ⟨by rw [Instr.wf, hword, Bool.not_false], rfl⟩

theorem decode_encodeCommand (rsv : BitVec 24) (op : BitVec 8) :
    decode (encodeCommand rsv op) = decodeCommand (cmdWord rsv op) := by
  rw [encodeCommand, decode_ctl_command (we_mk ..) (waddr_mk ..), wdata_mk]

/-! ### Decoder and encoder -/

/-- Settles O1: a read and a write are given back by their three fields, a named command by its
closed word, and an illegal word by its two fields. -/
theorem decodeOfEncodeIsIdentity : Obligations.DecodeOfEncodeIsIdentity := by
  intro i hwf
  cases i with
  | regRead waddr wdata => rw [encode, decode_ctl_read (we_mk ..), waddr_mk, wdata_mk]
  | regWrite waddr wdata =>
    have hcmd : Req.waddr (Req.mk true waddr wdata) ≠ cmdWAddr := by
      simpa [Instr.wf] using hwf
    rw [encode, decode_ctl_write (we_mk ..) hcmd, waddr_mk, wdata_mk]
  | cmdIllegal rsv op =>
    have hword : ¬(cmdRsv (cmdWord rsv op) = 0#24 ∧ (cmdOp (cmdWord rsv op)).toNat ≤ 5) := by
      rw [cmdRsv_cmdWord, cmdOp_cmdWord, ← isCommandWord_iff]
      simpa [Instr.wf] using hwf
    rw [encode, decode_encodeCommand, decodeCommand_illegal hword, cmdRsv_cmdWord, cmdOp_cmdWord]
  | process x => rfl
  | _ => exact decode_encodeCommand ..

theorem encode_decode_ctl (r : Req) :
    (decode (.ctl r)).wf = true ∧ encode (decode (.ctl r)) = .ctl r := by
  cases hwe : Req.we r
  case false =>
    rw [decode_ctl_read hwe]
    exact ⟨rfl, by rw [encode, ← hwe, mk_fields]⟩
  case true =>
    by_cases hcmd : Req.waddr r = cmdWAddr
    case pos =>
      rw [decode_ctl_command hwe hcmd]
      obtain ⟨hwf, e⟩ := encode_decodeCommand (Req.wdata r)
      exact ⟨hwf, by rw [e, ← hwe, ← hcmd, mk_fields]⟩
    case neg =>
      rw [decode_ctl_write hwe hcmd]
      exact ⟨bne_iff_ne.mpr hcmd, by rw [encode, ← hwe, mk_fields]⟩

/-- Settles O2: a request is the packing of the fields the decoder reads (`encode_decode_ctl`), and
a sample is its own field. -/
theorem encodeOfDecodeIsIdentity : Obligations.EncodeOfDecodeIsIdentity
  | .ctl r => encode_decode_ctl r
  | .smp _ => ⟨rfl, rfl⟩

/-! ### Byte frames (log entry 14) -/

/-- A word in a 6-byte frame is a request if it has no bit above bit 42. -/
theorem tableTransaction_of_six {nbits : Nat} (h : frameBytes nbits = 6) (w : Nat) :
    tableTransaction nbits w = if w < 2 ^ 43 then some (.ctl (BitVec.ofNat 43 w)) else none := by
  unfold tableTransaction
  rw [h]
  split
  case isTrue hbig => rw [if_neg (by omega)]
  case isFalse hfits =>
    rw [decodeBytes, length_toBytes, ofBytes_toBytes 6 w (Nat.lt_of_not_le hfits)]
    rw [if_neg (by decide), if_pos rfl]
    by_cases hw : w < 2 ^ 43
    · rw [if_pos hw, if_pos hw]
    · rw [if_neg hw, if_neg hw]

/-- A word in a 4-byte frame is a sample. -/
theorem tableTransaction_of_four {nbits : Nat} (h : frameBytes nbits = 4) (w : Nat) :
    tableTransaction nbits w = if w < 2 ^ 32 then some (.smp (BitVec.ofNat 32 w)) else none := by
  unfold tableTransaction
  rw [h]
  split
  case isTrue hbig => rw [if_neg (by omega)]
  case isFalse hfits =>
    have hw : w < 2 ^ 32 := Nat.lt_of_not_le hfits
    rw [decodeBytes, length_toBytes, ofBytes_toBytes 4 w hw, if_pos hw]
    rfl

theorem decodeTableWord_request {nbits : Nat} (h : frameBytes nbits = 6) (r : Req) :
    decodeTableWord nbits r.toNat = some (decode (.ctl r)) := by
  rw [decodeTableWord, tableTransaction_of_six h, if_pos r.isLt, BitVec.ofNat_toNat,
    BitVec.setWidth_eq, Option.map_some]

theorem decodeTableWord_stray {nbits w : Nat} (h : frameBytes nbits = 6) (hw : 2 ^ 43 ≤ w) :
    decodeTableWord nbits w = none := by
  rw [decodeTableWord, tableTransaction_of_six h, if_neg (Nat.not_lt_of_le hw), Option.map_none]

/-- Settles O5: rows of 43 and of 48 bits have the same 6-byte frame, rows of 32 bits a 4-byte
frame. -/
theorem tableFramesCarryEveryWord : Obligations.TableFramesCarryEveryWord := by
  refine ⟨fun r => ⟨decodeTableWord_request rfl r, decodeTableWord_request rfl r⟩, fun x => ?sample,
    fun w hw => ⟨decodeTableWord_stray rfl hw, decodeTableWord_stray rfl hw⟩, fun w hw => ?wide⟩
  case sample =>
    rw [decodeTableWord, tableTransaction_of_four rfl, if_pos x.isLt, BitVec.ofNat_toNat,
      BitVec.setWidth_eq, Option.map_some]
  case wide =>
    rw [decodeTableWord, tableTransaction_of_four rfl, if_neg (Nat.not_lt_of_le hw),
      Option.map_none]

/-- Settles O4: ten closed words, decoded by evaluation. -/
theorem writtenOutWordsDecode : Obligations.WrittenOutWordsDecode := by
  unfold Obligations.WrittenOutWordsDecode
  decide

end Sys2Proof
end

section
/-!
The register map (20_memory.md), reads, and the flags of ACT_BYPASS (10_state.md): O6, O8 and O14.
-/

namespace Sys2Proof.Machine

/-! ### The register map and reads (R51, R220) -/

/-- Settles O6: each named offset is evaluated, and `regAt_eq_reserved_iff` covers the others. -/
theorem registerMapOffsets : Obligations.RegisterMapOffsets := by
  exact ⟨rfl, rfl, rfl, rfl, rfl, rfl, rfl, rfl, rfl, rfl, rfl, rfl, by decide +kernel,
    by decide +kernel, regAt_eq_reserved_iff⟩

/-- Settles O8: a read answers in every state and only returns a word (`exec_regRead`). -/
theorem regReadReturnsRegister : Obligations.RegReadReturnsRegister :=
  fun waddr w s => exec_regRead waddr w s

/-! ### ACT_BYPASS (R36) -/

theorem flagsNat_lt (l : List Bool) : flagsNat l < 2 ^ l.length := by
  induction l with
  | nil => decide
  | cons f fs ih =>
    have hf := f.toNat_le
    rw [flagsNat, List.length_cons, pow_succ]
    omega

/-- Bit `n` of a packed list of flags is the flag at `n`, and 0 beyond the list. -/
theorem testBit_flagsNat (l : List Bool) (n : Nat) : (flagsNat l).testBit n = l[n]?.getD false := by
  induction l generalizing n with
  | nil => simp [flagsNat]
  | cons f fs ih =>
    have hpack : flagsNat (f :: fs) = 2 ^ 1 * flagsNat fs + f.toNat := by
      rw [flagsNat, pow_one, Nat.add_comm]
    rw [hpack, Nat.testBit_two_pow_mul_add _ f.toNat_lt]
    cases n with
    | zero => cases f <;> rfl
    | succ n => simpa using ih n

/-- The three groups of flags stand in bytes of their own. -/
theorem getLsbD_bypassWord (a : Active) (n : Nat) :
    a.bypassWord.getLsbD n =
      if n < 8 then a.sbyp.toList[n]?.getD false
      else if n - 8 < 8 then a.secLow.toList[n - 8]?.getD false
      else a.secHigh.toList[n - 8 - 8]?.getD false := by
  have hsbyp := flagsNat_lt a.sbyp.toList
  have hlow := flagsNat_lt a.secLow.toList
  have hhigh := flagsNat_lt a.secHigh.toList
  rw [Vector.length_toList] at hsbyp hlow hhigh
  have hpack : a.bypassWord.toNat =
      2 ^ 8 * (2 ^ 8 * flagsNat a.secHigh.toList + flagsNat a.secLow.toList)
        + flagsNat a.sbyp.toList := by
    rw [Active.bypassWord, BitVec.toNat_ofNat]
    omega
  rw [BitVec.getLsbD, hpack, Nat.testBit_two_pow_mul_add _ (hsbyp.trans (by decide)),
    Nat.testBit_two_pow_mul_add _ (hlow.trans (by decide))]
  simp only [testBit_flagsNat]

theorem getElem?_toList_getD {m : Nat} (v : Vector Bool m) (k : Fin m) :
    v.toList[k.val]?.getD false = v[k] := by simp

theorem getElem?_toList_getD_of_le {m n : Nat} (v : Vector Bool m) (h : m ≤ n) :
    v.toList[n]?.getD false = false := by simp [h]

/-- Settles O14: in each byte of the word, the bits below the number of flags are the flags, and
those from there on are 0 (`getLsbD_bypassWord`). -/
theorem actBypassBits : Obligations.ActBypassBits := by
  refine fun a => ⟨fun k => ?stage, fun i => ⟨?low, ?high⟩, fun n hn => ?zero⟩ <;>
    rw [getLsbD_bypassWord]
  case stage => rw [if_pos (by omega), getElem?_toList_getD]
  case low =>
    rw [if_neg (by omega), if_pos (by omega), Nat.add_sub_cancel_left, getElem?_toList_getD]
  case high =>
    have hbit : 16 + i.val - 8 - 8 = i.val := by omega
    rw [if_neg (by omega), if_neg (by omega), hbit, getElem?_toList_getD]
  case zero =>
    split_ifs <;> exact getElem?_toList_getD_of_le _ (by omega)

end Sys2Proof.Machine
end

section
/-!
The query frequency (43_channel_chain.md), over the exact values: O23.
-/

namespace Sys2Proof.Machine

theorem leHalf_iff_rat32 {f fs : Word} (hf : isFinite32 f = true) (hfs : isFinite32 fs = true) :
    leHalf f fs = true ↔ rat32 f ≤ rat32 fs / 2 := by
  obtain ⟨s, m, hm⟩ := exists_fin_of_finite hf
  obtain ⟨t, n, hn⟩ := exists_fin_of_finite hfs
  have hunits : leHalf f fs = decide (2 * signedMag s m ≤ signedMag t n) := by
    rw [leHalf, hm, hn]
  have hcast : (2 * signedMag s m ≤ signedMag t n) ↔
      (2 * signedMag s m : ℚ) ≤ (signedMag t n : ℚ) := by exact_mod_cast Iff.rfl
  rw [hunits, decide_eq_true_iff, hcast, rat32, rat32, hm, hn, ratOf_fin_units, ratOf_fin_units,
    div_right_comm, div_le_div_iff_of_pos_right (by positivity), le_div_iff₀' two_pos]

/-- Settles O23: the two comparisons of R169 over the exact values are `le32_iff_rat32` with zero
and `leHalf_iff_rat32`. -/
theorem queryFrequencyRange : Obligations.QueryFrequencyRange := by
  intro f fs hfs
  rw [queryFreqOk, Bool.and_eq_true, Bool.and_eq_true, and_assoc]
  refine and_congr_right fun hf => ?_
  rw [le32_iff_rat32 (by decide) hf, rat32_zero32, leHalf_iff_rat32 hf hfs]

end Sys2Proof.Machine
end

section
/-!
The three agents' turns and the reset event (70_reset_and_hazards.md, 45_lifecycle_commands.md):
what each agent fetches, which write holds and when it completes, and the state reset leaves: O15,
O55, O57, O58 and O59.
-/

namespace Sys2Proof.Machine

/-! ### Command words (R74, R76) -/

theorem commandWord_decodeCommand (w : Word) : commandWord (decodeCommand w) = some w := by
  obtain ⟨n, rfl⟩ | ⟨-, e⟩ := decodeCommand_cases w
  · revert n
    decide
  · rw [e, commandWord, cmdWord_fields]

/-- A request has a command word exactly if it is a write to CMD (R200). -/
theorem commandWord_decode_ctl (r : Req) :
    commandWord (decode (.ctl r)) = if Req.isCommand r then some (Req.wdata r) else none := by
  cases hwe : Req.we r
  case false => simp [decode_ctl_read hwe, Req.isCommand, hwe, commandWord]
  case true =>
    by_cases hcmd : Req.waddr r = cmdWAddr
    case pos =>
      simp [decode_ctl_command hwe hcmd, Req.isCommand, hwe, hcmd, commandWord_decodeCommand]
    case neg => simp [decode_ctl_write hwe hcmd, Req.isCommand, hwe, hcmd, commandWord]

/-! ### What each agent fetches (R58, R72, R200) -/

theorem nextRequest_of_cons {s : State} {r : Req} {rs : List Req} (h : s.port.ctlIn = r :: rs) :
    s.nextRequest = some (r, { s with port := { s.port with ctlIn := rs } }) := by
  simp only [State.nextRequest, h]

theorem fetchControl_of_request {s : State} {r : Req} {rs : List Req} (h : s.port.held = none)
    (hin : s.port.ctlIn = r :: rs) :
    s.fetchControl =
      some (decode (.ctl r), { s with port := { s.port with ctlIn := rs } }) := by
  simp only [State.fetchControl, h, nextRequest_of_cons hin, Option.map_some]

theorem fetchControl_of_nil {s : State} (h : s.port.held = none) (hin : s.port.ctlIn = []) :
    s.fetchControl = none := by
  simp only [State.fetchControl, State.nextRequest, h, hin, Option.map_none]

theorem fetchControl_of_held_idle {s : State} {w : Word} (h : s.port.held = some w)
    (hidle : s.busy = false) : s.fetchControl = some (s.resumeHeld w) := by
  simp [State.fetchControl, h, hidle]

theorem fetchControl_of_held_busy {s : State} {w : Word} {r : Req} {rs : List Req}
    (h : s.port.held = some w) (hbusy : s.busy = true) (hin : s.port.ctlIn = r :: rs) :
    s.fetchControl =
      if Req.isCommand r then none
      else some (decode (.ctl r), { s with port := { s.port with ctlIn := rs } }) := by
  simp [State.fetchControl, h, hbusy, nextRequest_of_cons hin]

theorem fetchRetry_of_held {s : State} {w : Word} (h : s.port.held = some w) :
    s.fetchRetry = some (s.resumeHeld w) := by
  rw [State.fetchRetry, h, Option.map_some]

theorem fetchSample_of_cons {s : State} {x : Word} {xs : List Word} (h : s.port.smpIn = x :: xs) :
    s.fetchSample =
      some (decode (.smp x), { s with port := { s.port with smpIn := xs } }) := by
  simp only [State.fetchSample, h]

/-! ### A step, by the agent whose turn it is (R59) -/

theorem step_control {s : State} {ts : List Turn} {f : Option (Instr × State)}
    (h : s.port.turns = .control :: ts)
    (hf : ({ s with port := { s.port with turns := ts } } : State).fetchControl = f) :
    step s = runFetched f { s with port := { s.port with turns := ts } } := by
  rw [step_of_turns h, runTurn, hf]

theorem step_retry {s : State} {ts : List Turn} {f : Option (Instr × State)}
    (h : s.port.turns = .retry :: ts)
    (hf : ({ s with port := { s.port with turns := ts } } : State).fetchRetry = f) :
    step s = runFetched f { s with port := { s.port with turns := ts } } := by
  rw [step_of_turns h, runTurn, hf]

theorem step_sample {s : State} {ts : List Turn} {f : Option (Instr × State)}
    (h : s.port.turns = .sample :: ts)
    (hf : ({ s with port := { s.port with turns := ts } } : State).fetchSample = f) :
    step s = runFetched f { s with port := { s.port with turns := ts } } := by
  rw [step_of_turns h, runTurn, hf]

/-! ### Commands hold while BUSY (R200) -/

/-- Nothing but a command ever holds. -/
theorem exec_held {i : Instr} {s t : State} (h : commandWord i = none) (e : exec i s = .next t) :
    t.port.held = s.port.held := by
  cases i with
  | regRead waddr wdata =>
    cases e
    rfl
  | regWrite waddr wdata =>
    cases e
    exact congrArg Ports.held (writeReg_port ..)
  | process x => obtain ⟨-, e'⟩ | ⟨-, e'⟩ := process_cases x s <;> cases e'.symm.trans e <;> rfl
  | _ => cases h

/-- A retry while BUSY drops the write and holds it again. -/
theorem runTurn_retry_of_busy {s : State} {w : Word} (h : s.port.held = some w)
    (hbusy : s.busy = true) : runTurn .retry s = .next s := by
  have hexec := exec_of_busy (s := (s.resumeHeld w).2) (commandWord_decodeCommand w) hbusy
  rw [runTurn, fetchRetry_of_held h]
  exact hexec.trans (by rw [← h]; rfl)

/-- Settles O15: the held write is taken up as the command of its word (`fetchControl_of_held_idle`,
`fetchRetry_of_held`), and that command holds again while BUSY = 1 (`runTurn_retry_of_busy`). -/
theorem commandsHoldWhileBusy : Obligations.CommandsHoldWhileBusy := by
  refine ⟨fun i w s => exec_of_busy, fun i s hw => ?others,
    fun s w ts hheld hidle hturns => ?completes, fun s w ts hheld hbusy hturns => ?retried⟩
  case others =>
    obtain ⟨t, e⟩ := exec_answers i s
    exact ⟨t, e, exec_held hw e⟩
  case completes =>
    obtain h | h := hturns
    · rw [step_control h (fetchControl_of_held_idle hheld hidle)]
      rfl
    · rw [step_retry h (fetchRetry_of_held hheld)]
      rfl
  case retried =>
    rw [step_of_turns hturns]
    exact runTurn_retry_of_busy hheld hbusy

/-! ### A step performs the decoded transaction -/

/-- Settles O57: the turn is taken (`step_of_turns`), and the agent fetches what the lemma on its
queue says; a request is a command exactly if it has a command word (`commandWord_decode_ctl`). -/
theorem stepPerformsTheDecodedTransaction : Obligations.StepPerformsTheDecodedTransaction := by
  refine ⟨fun s r rs ts hturns hheld hin => ?request, fun s x xs ts hturns hin => ?sample,
    fun s w r rs ts hturns hheld hbusy hin => ?holding, fun s ts hturns hheld hin => ?nothing⟩
  case request =>
    rw [step_control hturns (fetchControl_of_request hheld hin)]
    rfl
  case sample =>
    rw [step_sample hturns (fetchSample_of_cons hin)]
    rfl
  case holding =>
    rw [step_control hturns (fetchControl_of_held_busy hheld hbusy hin), commandWord_decode_ctl]
    cases Req.isCommand r <;> rfl
  case nothing =>
    rw [step_control hturns (fetchControl_of_nil hheld hin)]
    rfl

/-! ### The placement of a table word (log entry 15) -/

/-- A placed request is performed with no write holding. -/
theorem step_offer_ctl (s : State) (r : Req) :
    step (s.offer (.ctl r)) =
      exec (decode (.ctl r)) { s with port := { s.port with held := none } } := by
  rw [step_control rfl (fetchControl_of_request rfl rfl)]
  rfl

/-- A placed sample is performed on the state it was placed in. -/
theorem step_offer_smp (s : State) (x : Word) : step (s.offer (.smp x)) = exec (.process x) s := by
  rw [step_sample rfl (fetchSample_of_cons rfl)]
  rfl

theorem decode_ctl_ne_process (r : Req) (x : Word) : decode (.ctl r) ≠ .process x := by
  intro h
  have e : Transaction.ctl r = .smp x := by rw [← (encode_decode_ctl r).2, h, encode]
  cases e

/-- Settles O58: the placed word is the next transaction performed (`step_offer_ctl`,
`step_offer_smp`), and no request decodes to a PROCESS. -/
theorem placedWordIsPerformedNext : Obligations.PlacedWordIsPerformedNext := by
  intro s nbits w i hword
  obtain ⟨t, ht, rfl⟩ := Option.map_eq_some_iff.mp hword
  have hplaced : s.withFetchWord nbits w = s.offer t := by rw [State.withFetchWord, ht]
  rw [hplaced]
  cases t with
  | smp x => exact step_offer_smp s x
  | ctl r =>
    rw [step_offer_ctl]
    split
    case h_1 x hprocess => exact absurd hprocess (decode_ctl_ne_process r x)
    case h_2 => rfl

/-! ### The reset event (R270) -/

theorem readReg_resetEvent (s : State) (r : Reg) :
    s.resetEvent.readReg r = State.reset.readReg r := by cases r <;> rfl

/-- Settles O55: the reset event sets every state element, so the registers, which are read from the
state elements alone, are those of reset (`readReg_resetEvent`). -/
theorem resetEventFromAnyState : Obligations.ResetEventFromAnyState := by
  intro s ts hturns
  rw [step_of_turns hturns]
  exact ⟨_, rfl, readReg_resetEvent _, rfl, rfl, rfl, rfl, rfl, rfl, rfl, rfl⟩

theorem params_default_wf : Params.default.wf = true := by decide +kernel

/-- Settles O59: at reset nothing is pending, the configuration is the default one
(`params_default_wf`), and the state is unprepared. -/
theorem resetMeetsTheInvariant : Obligations.ResetMeetsTheInvariant where
  params := params_default_wf
  actFs h := nomatch h
  busyReady h := nomatch h
  coefFinite := reset_coefsFinite
  unprepared _ := ⟨rfl, rfl⟩
  sections h := absurd rfl h
  pend := pendingEmpty_wf

end Sys2Proof.Machine
end

section
/-!
What a transaction may write (10_state.md), and the lifecycle transitions (45_lifecycle_commands.md):
O26 and O29.
-/

namespace Sys2Proof.Machine

/-! ### The state elements a transaction may write -/

/-- `t` in the elements that an instruction may write and at the ports, `s` in all others. -/
def State.withWritten (s t : State) : Instr → State
  | .regRead _ _ => { s with port := t.port }
  | .regWrite _ _ => { s with err := t.err, stg := t.stg, qfreq := t.qfreq, port := t.port }
  | .cmdNop => { s with port := t.port }
  | .cmdPrepare =>
    { s with lstate := t.lstate, err := t.err, act := t.act, st := t.st, port := t.port }
  | .cmdUpdate => { s with err := t.err, pend := t.pend, port := t.port }
  | .cmdFlush => { s with st := t.st, port := t.port }
  | .cmdRelease => { s with lstate := t.lstate, err := t.err, port := t.port }
  | .cmdQuery => { s with err := t.err, qresult := t.qresult, port := t.port }
  | .cmdIllegal _ _ => { s with err := t.err, port := t.port }
  | .process _ => { s with lstate := t.lstate, err := t.err, st := t.st, port := t.port }

theorem withWritten_params (s t : State) (i : Instr) : (s.withWritten t i).params = s.params := by
  cases i <;> rfl

/-- Instruction `i` changes nothing of `s` on the way to `t` but what it may write. -/
def WritesOnly (i : Instr) (s t : State) : Prop := t = s.withWritten t i

theorem writesOnly_withPort (i : Instr) (s : State) (p : Ports) :
    WritesOnly i s { s with port := p } := by cases i <;> rfl

theorem writeReg_writesOnly (s : State) (w : Word) (waddr : WAddr) :
    WritesOnly (.regWrite waddr w) s (s.writeReg w (regAt waddr)) := by
  unfold WritesOnly
  cases regAt waddr <;> rfl

theorem prepare_writesOnly (s : State) : WritesOnly .cmdPrepare s s.prepare := by
  obtain e | ⟨-, -, e⟩ := prepare_cases s <;> rw [e] <;> rfl

theorem update_writesOnly (s : State) : WritesOnly .cmdUpdate s s.update := by
  obtain ⟨-, e⟩ | ⟨-, -, e⟩ | ⟨-, -, e⟩ := update_cases s <;> rw [e] <;> rfl

theorem release_writesOnly (s : State) : WritesOnly .cmdRelease s s.release := by
  obtain ⟨-, e⟩ | ⟨-, e⟩ := release_cases s <;> rw [e] <;> rfl

theorem query_writesOnly (s : State) : WritesOnly .cmdQuery s s.query := by
  obtain ⟨-, e⟩ | ⟨-, r, e⟩ := query_cases s <;> rw [e] <;> rfl

/-- A command that holds touches the ports alone, so only its effect matters. -/
theorem command_writesOnly {i : Instr} {s t : State} {w : Word} {f : State → State}
    (e : s.command w f = .next t) (hf : WritesOnly i s (f s)) : WritesOnly i s t := by
  obtain ⟨-, e'⟩ | ⟨-, e'⟩ := command_cases s w f <;> cases e'.symm.trans e
  · exact writesOnly_withPort i s _
  · exact hf

theorem process_writesOnly {s t : State} {x : Word} (e : execProcess x s = .next t) :
    WritesOnly (.process x) s t := by
  obtain ⟨-, e'⟩ | ⟨-, e'⟩ := process_cases x s <;> cases e'.symm.trans e <;> rfl

theorem exec_writesOnly {i : Instr} {s t : State} (e : exec i s = .next t) : WritesOnly i s t := by
  cases i with
  | regRead waddr wdata =>
    cases e
    rfl
  | regWrite waddr wdata =>
    cases e
    exact writeReg_writesOnly s wdata waddr
  | cmdNop => exact command_writesOnly e rfl
  | cmdPrepare => exact command_writesOnly e (prepare_writesOnly s)
  | cmdUpdate => exact command_writesOnly e (update_writesOnly s)
  | cmdFlush => exact command_writesOnly e rfl
  | cmdRelease => exact command_writesOnly e (release_writesOnly s)
  | cmdQuery => exact command_writesOnly e (query_writesOnly s)
  | cmdIllegal rsv op => exact command_writesOnly e rfl
  | process x => exact process_writesOnly e

/-- Settles O29: for each element, every instruction that may not write it (`exec_writesOnly`) leaves
it as it was. -/
theorem stateElementWriters : Obligations.StateElementWriters := by
  intro i s t e
  have h : t = s.withWritten t i := exec_writesOnly e
  refine ⟨?params, fun hne => ?lstate, fun hne => ?staging, fun hne => ?pend, fun hne => ?act,
    fun hne => ?qresult⟩
  case params => exact (congrArg State.params h).trans (withWritten_params s t i)
  case lstate =>
    cases i with
    | cmdPrepare => exact .inl rfl
    | cmdRelease => exact .inr (.inl rfl)
    | process x => exact .inr (.inr ⟨x, rfl⟩)
    | _ => exact absurd (congrArg State.lstate h) hne
  case staging =>
    cases i with
    | regWrite waddr wdata => exact ⟨waddr, wdata, rfl⟩
    | _ =>
      obtain hne | hne := hne
      · exact absurd (congrArg State.stg h) hne
      · exact absurd (congrArg State.qfreq h) hne
  case pend =>
    cases i with
    | cmdUpdate => rfl
    | _ => exact absurd (congrArg State.pend h) hne
  case act =>
    cases i with
    | cmdPrepare => rfl
    | _ => exact absurd (congrArg State.act h) hne
  case qresult =>
    cases i with
    | cmdQuery => rfl
    | _ => exact absurd (congrArg State.qresult h) hne

/-! ### The lifecycle transitions (R206) -/

/-- A transaction that may not write LSTATE leaves it as it is, whether it holds or completes. -/
theorem exec_keeps_lstate {i : Instr} {s : State} (hprepare : i ≠ .cmdPrepare)
    (hrelease : i ≠ .cmdRelease) (hprocess : ∀ x, i ≠ .process x) :
    ∃ t, exec i s = .next t ∧ t.lstate = s.lstate := by
  obtain ⟨t, e⟩ := exec_answers i s
  refine ⟨t, e, by_contra fun hne => ?_⟩
  obtain ⟨-, hwriters, -⟩ := stateElementWriters i s t e
  obtain h | h | ⟨x, h⟩ := hwriters hne
  · exact hprepare h
  · exact hrelease h
  · exact hprocess x h

theorem refused_of_not_ready {i : Instr} {s t : State} (hi : i = .cmdUpdate ∨ i = .cmdQuery)
    (hidle : s.busy = false) (hready : s.lstate.isReady = false) (e : exec i s = .next t) :
    t.err = s.err.set .serr := by
  obtain rfl | rfl := hi
  · rw [exec_cmdUpdate hidle, update_of_not_ready hready] at e
    cases e
    rfl
  · rw [exec_cmdQuery hidle, query_of_not_ready hready] at e
    cases e
    rfl

/-- Settles O26: PREPARE, PROCESS and RELEASE have the outcomes of their case lemmas, and no other
transaction writes LSTATE (`exec_keeps_lstate`). -/
theorem lifecycleTransitions : Obligations.LifecycleTransitions := by
  refine ⟨fun s hidle => ⟨_, exec_cmdPrepare hidle, ?prepare⟩, fun s x => ?process,
    fun s hidle => ⟨_, exec_cmdRelease hidle, ?release⟩, fun i s hi hidle => ?ready,
    fun i s hi => ?keeps, fun s => ⟨_, rfl, rfl⟩⟩
  case prepare =>
    split
    case isTrue h =>
      rw [prepare_of_valid h.1 h.2]
      exact ⟨rfl, rfl⟩
    case isFalse h =>
      rw [prepare_of_invalid ((not_and_or.mp h).imp Bool.eq_false_of_not_eq_true
        Bool.eq_false_of_not_eq_true)]
      exact ⟨rfl, rfl⟩
  case process =>
    obtain ⟨hready, e⟩ | ⟨hready, e⟩ := process_cases x s <;> rw [hready] <;>
      exact ⟨_, e, rfl, rfl⟩
  case release =>
    obtain ⟨hstate, e⟩ | ⟨hstate, e⟩ := release_cases s <;> rw [e]
    · rw [if_pos hstate]
      exact ⟨hstate, rfl⟩
    · rw [if_neg hstate]
      exact ⟨rfl, rfl⟩
  case ready =>
    have hkeeps : ∃ t, exec i s = .next t ∧ t.lstate = s.lstate := by
      obtain rfl | rfl := hi <;> exact exec_keeps_lstate nofun nofun nofun
    obtain ⟨t, e, hstate⟩ := hkeeps
    exact ⟨t, e, hstate, fun hready => refused_of_not_ready hi hidle hready e⟩
  case keeps =>
    obtain rfl | rfl | ⟨rsv, op, rfl⟩ := hi <;> exact exec_keeps_lstate nofun nofun nofun

end Sys2Proof.Machine
end
